-- ==== Sys2Proof/Word.lean ====
section
/-! DEFINITION. Word.lean: the 32-bit register word of CDN-RED (R6 `W` = 32, R13 "Every register is 32 bits wide"). -/

namespace Sys2Proof

/-- A register word (R6, R7): bit 31 is the most significant. A u32 value `n` is stored as
`BitVec.ofNat 32 n` and an s32 value `z` as `BitVec.ofInt 32 z` (two's complement, R8). -/
abbrev Word := BitVec 32

end Sys2Proof
end

