-- ==== Sys2Proof/Config.lean ====
section
/-! DEFINITION. Config.lean: the implementation parameters of R6 and the values the spec leaves free (opaque: no body,
so nothing can evaluate one or prove a value of it). -/

namespace Sys2Proof

/-- `CBF_RULE` (R6, R117): which condition skips the CABAC coded_block_flag request. -/
inductive CbfRule where
  | doc
  | h264
deriving DecidableEq, Repr

namespace Config

/-- `LZ_MAX` (R6): the largest accepted run of leading zero bits. -/
def lzMax : Nat := 31

/-- `CABAC_K_MAX` (R6): the largest accepted unary run in the suffix of a CABAC absolute level. -/
def cabacKMax : Nat := 29

/-- The cut-off of the ABS unary part (R121): at most 14 Decision bins. -/
def absCutOff : Nat := 14

/-- The largest `BSLEN` (R6, R48): the BitSource holds 0 to 2^32-1 bits. -/
def maxBsLen : Nat := 2 ^ 32 - 1

/-- `CBF_RULE` as this hardware takes it (R6: `DOC`). The strap itself stands in State, so that the
alternative `H264` can be run too (log entry 9). -/
def cbfRule : CbfRule := .doc

/-- The number of Core steps `exec` and the event `run` let a command take at most. R155 bounds a command by 4863 Engine
requests (R126), 1153 bits with at most 17 placement steps (R114, R111) or 63 bits (R94), to which this model adds the
legality step and the commit or abort step: no command reaches the bound. -/
def coreBudget : Nat := 4865

/-- FREE VALUE (log entry 1): where in its range POS falls after an abort of a bitstream command (R132, I1). The
argument is the number of the draw. -/
opaque freePos : Nat → Nat

/-- FREE VALUE (log entry 2): a result register or COEF entry after reset (R46, R145, I3). The arguments are the number of
the draw and the register's offset in the register space. -/
opaque resetWord : Nat → Nat → Word

/-- FREE VALUE (log entry 3): a bit read at a position that was changed while the command runs (R58, I4). -/
opaque freeBit : Nat → Bool

/-- FREE VALUE (log entry 3): the answer to a read after BSLEN was changed while the command runs, `none` standing for end
of stream (R58, I4). -/
opaque freeBitOrEnd : Nat → Option Bool

end Config

end Sys2Proof
end

