-- ==== Sys2Proof/Syntax.lean ====
section
/-! DEFINITION. Syntax.lean: the six commands of CDN-RED (R64), one constructor per row of the opcode table. The operands
are the command word's fields (R63), unscaled (R66). ARG is no field of the word: it is read from its register (R67). -/

namespace Sys2Proof

/-- A command (R64). -/
inductive Instr where
  /-- READ_UE, OP 0x1 (R90). -/
  | readUe
  /-- READ_SE, OP 0x2 (R91). -/
  | readSe
  /-- READ_TE, OP 0x3 (R92). -/
  | readTe
  /-- READ_CE, OP 0x4 (R93). -/
  | readCe
  /-- CAVLC_BLOCK, OP 0x5 (R95): START, END, MAXC code, BTYPE. -/
  | cavlcBlock (start stop : BitVec 6) (maxc : BitVec 3) (btype : BitVec 5)
  /-- CABAC_BLOCK, OP 0x6 (R115): START, END, MAXC code, BTYPE, CAT. -/
  | cabacBlock (start stop : BitVec 6) (maxc : BitVec 3) (btype : BitVec 5) (cat : BitVec 2)
deriving DecidableEq, Repr

end Sys2Proof
end

