-- ==== Sys2Proof/Machine/State.lean ====
section
/-! DEFINITION. Machine/State.lean: all the state of the four agents of R5 as plain data, and the state after reset (R46, R145).
STATUS.BUSY is not stored twice: it is whether a command runs (`State.run`), R18. -/

namespace Sys2Proof.Machine

/-- The error kinds (R128). -/
inductive ErrorKind where
  | streamExhausted
  | malformedSyntax
  | unboundedLoop
  | unsupportedPath
  | invalidCommand
deriving DecidableEq, Repr

/-- The result registers and the coefficient buffer (R22 to R41), or a running command's staging copy `S` of them
(R12). SIGMAP_LO and SIGMAP_HI are the halves of `sigmap` (R37), and so on for LASTMAP (R38) and SIGNMAP (R39). -/
structure Results where
  /-- VALUE (R22). -/
  value : Word
  /-- TOTALCOEFF (R23). -/
  totalcoeff : Word
  /-- TRAILINGONES (R24). -/
  trailingones : Word
  /-- TOTALZEROS (R25). -/
  totalzeros : Word
  /-- CBF (R26). -/
  cbf : Word
  /-- LASTPOS (R27). -/
  lastpos : Word
  /-- T1SIGNS (R28). -/
  t1signs : Word
  /-- BITS (R29). -/
  bits : Word
  /-- REQS (R30). -/
  reqs : Word
  /-- RBMASK (R31). -/
  rbmask : Word
  /-- LEVEL[0..15] (R32). -/
  level : Vector Word 16
  /-- RUN[0..15] (R33). -/
  run : Vector Word 16
  /-- LEVELPREFIX[0..15] (R34). -/
  levelprefix : Vector Word 16
  /-- LEVELSUFFIX[0..15] (R35). -/
  levelsuffix : Vector Word 16
  /-- RUNBEFORE[0..15] (R36). -/
  runbefore : Vector Word 16
  /-- SIGMAP_HI and SIGMAP_LO (R37). -/
  sigmap : BitVec 64
  /-- LASTMAP_HI and LASTMAP_LO (R38). -/
  lastmap : BitVec 64
  /-- SIGNMAP_HI and SIGNMAP_LO (R39). -/
  signmap : BitVec 64
  /-- ABSLM1[0..63] (R40). -/
  abslm1 : Vector Word 64
  /-- COEF[0..63] (R41). -/
  coef : Vector Word 64
deriving DecidableEq, Repr

/-- Every result register 0: what a command's staging copy starts from, so that a register it gives no value is written 0
(R43). -/
def Results.zero : Results where
  value := 0
  totalcoeff := 0
  trailingones := 0
  totalzeros := 0
  cbf := 0
  lastpos := 0
  t1signs := 0
  bits := 0
  reqs := 0
  rbmask := 0
  level := Vector.replicate 16 0
  run := Vector.replicate 16 0
  levelprefix := Vector.replicate 16 0
  levelsuffix := Vector.replicate 16 0
  runbefore := Vector.replicate 16 0
  sigmap := 0
  lastmap := 0
  signmap := 0
  abslm1 := Vector.replicate 64 0
  coef := Vector.replicate 64 0

/-- The result registers after reset: each one a free 32-bit value, drawn under the number `n` and the register's own offset
(R46, I3; log entry 2). -/
def Results.unspecified (n : Nat) : Results where
  value := Config.resetWord n 0x010
  totalcoeff := Config.resetWord n 0x014
  trailingones := Config.resetWord n 0x018
  totalzeros := Config.resetWord n 0x01C
  cbf := Config.resetWord n 0x020
  lastpos := Config.resetWord n 0x024
  t1signs := Config.resetWord n 0x028
  bits := Config.resetWord n 0x02C
  reqs := Config.resetWord n 0x030
  rbmask := Config.resetWord n 0x034
  level := Vector.ofFn fun i => Config.resetWord n (0x040 + 4 * i.val)
  run := Vector.ofFn fun i => Config.resetWord n (0x080 + 4 * i.val)
  levelprefix := Vector.ofFn fun i => Config.resetWord n (0x0C0 + 4 * i.val)
  levelsuffix := Vector.ofFn fun i => Config.resetWord n (0x100 + 4 * i.val)
  runbefore := Vector.ofFn fun i => Config.resetWord n (0x140 + 4 * i.val)
  sigmap := Config.resetWord n 0x184 ++ Config.resetWord n 0x180
  lastmap := Config.resetWord n 0x18C ++ Config.resetWord n 0x188
  signmap := Config.resetWord n 0x194 ++ Config.resetWord n 0x190
  abslm1 := Vector.ofFn fun j => Config.resetWord n (0x200 + 4 * j.val)
  coef := Vector.ofFn fun j => Config.resetWord n (0x300 + 4 * j.val)

/-- The stored fields of STATUS (R17): VALID (bit 1), ERR (bits 6:4) and DROPPED (bit 8). BUSY (bit 0) is `State.busy`, and
the reserved bits are not stored: they read 0. -/
structure Status where
  valid : Bool
  err : BitVec 3
  dropped : Bool
deriving DecidableEq, Repr

/-- The four Exp-Golomb read forms (R2). -/
inductive EgKind where
  | ue
  | se
  | te
  | ce
deriving DecidableEq, Repr

/-- The phases of a command whose next Core step reads one bit (R131), with the phase's own variables (R44). `code` is the code
bits `ReadVLC` has accumulated (R11), `zeros` the count of `CountLeadingZeros` (R9), `left` and `acc` the bits still to
read and the value so far of `ReadBits` (R9). -/
inductive BitPhase where
  /-- The leading zeros of an Exp-Golomb code (R90 to R93). -/
  | egZeros (kind : EgKind) (zeros : Nat)
  /-- The suffix of an Exp-Golomb code with `zeros` leading zeros. -/
  | egSuffix (kind : EgKind) (zeros left acc : Nat)
  /-- The inverted bit of TE(v) with range 1 (R92). -/
  | teBit
  /-- coeff_token (R97). -/
  | coeffToken (code : List Bool)
  /-- trailing_ones_sign_flag of coefficient `i` (R100). -/
  | trailingOne (i suffixLength : Nat)
  /-- level_prefix of coefficient `i` (R101). -/
  | levelZeros (i suffixLength zeros : Nat)
  /-- level_suffix of coefficient `i`, whose level_prefix was `zeros` (R102). -/
  | levelSuffix (i suffixLength zeros left acc : Nat)
  /-- total_zeros (R107). -/
  | totalZeros (code : List Bool)
  /-- run_before of coefficient `i` (R109). -/
  | runBefore (i zerosLeft : Nat) (code : List Bool)
deriving DecidableEq, Repr

/-- The phases of CABAC_BLOCK whose next Core step issues one Engine request and receives its answer (R131), with the phase's own
variables (R44): `numCoeff` the active range bound, `numGt1` and `numEq1` the counters of R124, `bin` the count of ABS
bins, `k` and `suf` those of R122. -/
inductive BinPhase where
  /-- The CBF request (R117). -/
  | codedBlockFlag
  /-- The SIG request for position `i` (R119). -/
  | significant (i numCoeff : Nat)
  /-- The LAST request for position `i` (R119). -/
  | last (i numCoeff : Nat)
  /-- ABS bin number `bin` of position `i` (R121). -/
  | absUnary (i bin numGt1 numEq1 : Nat)
  /-- A Bypass bin of the suffix's unary run (R122, the first loop). -/
  | sufUnary (i k suf numGt1 numEq1 : Nat)
  /-- A Bypass bin of the suffix's `k` remaining bits (R122, the second loop). -/
  | sufBits (i k suf numGt1 numEq1 : Nat)
  /-- The sign bin of position `i`, whose absLevelMinus1 is `v` (R123). -/
  | sign (i v numGt1 numEq1 : Nat)
deriving DecidableEq, Repr

/-- The phase of a running command (R44, R131). -/
inductive Phase where
  /-- Started; the next Core step decides legality (R69, R130). `none` is a word that decodes to no command. -/
  | check (command : Option Instr)
  /-- The next Core step reads one bit. -/
  | bit (p : BitPhase)
  /-- The next Core step issues one Engine request. -/
  | bin (p : BinPhase)
  /-- CAVLC placement (R111): `left` coefficients are still to place, `coeffNum` is the variable of that name. -/
  | place (left : Nat) (coeffNum : Int)
  /-- The next Core step commits (R132). -/
  | commit
  /-- The next Core step aborts with this error (R132). -/
  | abort (e : ErrorKind)
deriving DecidableEq, Repr

/-- The internal state of the Core while a command runs (R44). -/
structure Run where
  /-- The snapshot of CMD. -/
  cmd : Word
  /-- The snapshot of ARG. -/
  arg : Word
  /-- `POS_start`. -/
  posStart : Word
  /-- The working position `POS` (R12). -/
  pos : Nat
  /-- The staging copy `S` (R12). -/
  staged : Results
  /-- The request count (R44). -/
  reqs : Nat
  /-- The phase, with the loop variables. -/
  phase : Phase
  /-- MODEL FIELD (log entry 3): the positions from POS_start on that were changed since the command started (R58). -/
  changed : List Nat
  /-- MODEL FIELD (log entry 3): BSLEN was changed since the command started (R58). -/
  lenChanged : Bool
deriving DecidableEq, Repr

/-- What a Decision bin belongs to (R116, field `kind`). -/
inductive ReqKind where
  | cbf
  | sig
  | last
  | abs
deriving DecidableEq, Repr

/-- The descriptor of a Decision request (R116). -/
structure Desc where
  kind : ReqKind
  btype : Nat
  maxc : Nat
  cat : Nat
  pos : Nat
  binIdx : Nat
  numGt1 : Nat
  numEq1 : Nat
deriving DecidableEq, Repr

/-- A request to the Engine (R10). -/
inductive Request where
  | decision (desc : Desc)
  | bypass
deriving DecidableEq, Repr

/-- An answer of the Engine (R10). -/
inductive Answer where
  | bin (b : Bool)
  | exhausted
deriving DecidableEq, Repr

/-- The Engine (R5, R10) as the model sees it: the answers it will give, in order (an input, R5; the Engine has not answered
yet when none is listed, R153), and the requests it has received and answered, oldest first. -/
structure Engine where
  answers : List Answer
  requests : List Request
deriving DecidableEq, Repr

/-- What an agent does next; the order of `State.inbox` is the order in which the agents' steps take effect (R59, R131). -/
inductive Event where
  /-- The Host reads `width` bits at a byte offset (R49, R55). -/
  | read (offset width : Nat)
  /-- The Host writes `width` bits at a byte offset (R49, R55). -/
  | write (offset width : Nat) (v : Word)
  /-- The Host writes `w` to CMD and the Core takes all its steps of that command before any other agent moves (one of the
  orders R131 allows; log entry 4). -/
  | run (w : Word)
  /-- The Host polls STATUS until it reads BUSY = 0 (`wait`, R71). -/
  | wait
  /-- The Core takes one step (R131). -/
  | core
  /-- The platform asserts reset (R145). -/
  | reset
  /-- The BitSource or the Host presents the bitstream `bs` (R58, R147). -/
  | bitstream (bs : List Bool)
  /-- The answers the Engine will give from now on (R5, R147, R153). -/
  | engine (answers : List Answer)
deriving DecidableEq, Repr

/-- The machine: the Core's registers (R13), its internal state (R44), and the other agents of R5. -/
structure State where
  /-- CMD (R14). -/
  cmd : Word
  /-- ARG (R15). -/
  arg : Word
  /-- POS (R16). -/
  pos : Word
  /-- STATUS but for BUSY (R17). -/
  status : Status
  /-- The result registers and COEF (R22 to R41). -/
  results : Results
  /-- The running command's internal state (R44); `none` is idle, BUSY = 0. -/
  run : Option Run
  /-- The BitSource's bit sequence `BS` (R47, R48); `BSLEN` is its length. -/
  bits : List Bool
  /-- The Engine (R5). -/
  engine : Engine
  /-- The strap `CBF_RULE` (R6, R117). -/
  cbfRule : CbfRule
  /-- What the Host's reads returned, oldest first (R54, R55). -/
  reads : List Word
  /-- MODEL FIELD: what the agents do next, in order. With nothing listed, only the Core moves. -/
  inbox : List Event
  /-- MODEL FIELD: the number of the next draw of a free value. -/
  draws : Nat
deriving DecidableEq, Repr

/-- STATUS.BUSY (R17, R18): a command runs. -/
def State.busy (s : State) : Bool := s.run.isSome

/-- CDN-RED stops with no fault. Every error of the spec is reported in STATUS.ERR and the machine goes on (R132, R135), and
an Engine that never answers leaves the Core waiting, which is no error (R153). -/
inductive Fault where
deriving DecidableEq, Repr

/-- Why the model takes no step. -/
inductive Refusal where
  /-- Raised by `exec` for an instruction without a meaning, by its mnemonic; safe. No arm raises it. -/
  | notModelled (mnemonic : String)
  /-- Raised for a Host access outside the window, not word-aligned, or not 32 bits wide: "such an access has no step" (R50);
  safe. -/
  | unsupportedAccess (offset width : Nat)
  /-- Raised for a bitstream longer than 2^32-1 bits, which is outside the range of BSLEN (R6, R48); safe. -/
  | bitstreamTooLong (length : Nat)
deriving DecidableEq, Repr

/-- The machine right after reset (R46, R145): CMD, ARG, POS and STATUS 0, no command running, every result register a free value.
BitSource and Engine are external: none has presented a bit or an answer yet (log entry 5). -/
def State.reset : State where
  cmd := 0
  arg := 0
  pos := 0
  status := ⟨false, 0, false⟩
  results := Results.unspecified 0
  run := none
  bits := []
  engine := ⟨[], []⟩
  cbfRule := Config.cbfRule
  reads := []
  inbox := []
  draws := 1

end Sys2Proof.Machine
end

