-- ==== Sys2Proof/Machine/Flags.lean ====
section
/-! DEFINITION. Machine/Flags.lean: every computation of STATUS (R17 to R21): its word as the Host reads it, and its value after
a start, a commit, an abort and a dropped write. -/

namespace Sys2Proof.Machine

/-- The code of an error kind in STATUS.ERR (R20, R128). -/
def errorCode : ErrorKind → BitVec 3
  | .streamExhausted => 1
  | .malformedSyntax => 2
  | .unboundedLoop => 3
  | .unsupportedPath => 4
  | .invalidCommand => 5

/-- STATUS as the Host reads it (R17): BUSY bit 0, VALID bit 1, ERR bits 6:4, DROPPED bit 8, every other bit 0. -/
def statusWord (busy : Bool) (st : Status) : Word :=
  (BitVec.ofBool busy).setWidth 32 ||| ((BitVec.ofBool st.valid).setWidth 32 <<< 1)
    ||| (st.err.setWidth 32 <<< 4) ||| ((BitVec.ofBool st.dropped).setWidth 32 <<< 8)

/-- STATUS when a command starts (R130, step 4): VALID, ERR and DROPPED are cleared (R19, R20, R21). -/
def statusStart : Status := ⟨false, 0, false⟩

/-- STATUS after a commit (R132): VALID = 1, ERR = 0, DROPPED is kept. -/
def statusCommit (st : Status) : Status := ⟨true, 0, st.dropped⟩

/-- STATUS after an abort (R132): VALID = 0, ERR the code of the error, DROPPED is kept. -/
def statusAbort (e : ErrorKind) (st : Status) : Status := ⟨false, errorCode e, st.dropped⟩

/-- STATUS after a dropped write (R21): only DROPPED changes. -/
def statusDrop (st : Status) : Status := ⟨st.valid, st.err, true⟩

/-- STATUS after reset (R46). -/
def statusReset : Status := ⟨false, 0, false⟩

end Sys2Proof.Machine
end

