-- ==== Sys2Proof/Decode.lean ====
section
/-! DEFINITION. Decode.lean: the command word's fields (R63), the decoder from words to commands (R64, R68) and the encoder
(R70). Every one of the 2^32 words is either a command or rejected by name. -/

namespace Sys2Proof

/-- OP, CMD[3:0] (R63). -/
def fieldOp (w : Word) : BitVec 4 := w.extractLsb' 0 4

/-- START, CMD[9:4] (R63). -/
def fieldStart (w : Word) : BitVec 6 := w.extractLsb' 4 6

/-- END, CMD[15:10] (R63). -/
def fieldEnd (w : Word) : BitVec 6 := w.extractLsb' 10 6

/-- MAXC, CMD[18:16] (R63). -/
def fieldMaxc (w : Word) : BitVec 3 := w.extractLsb' 16 3

/-- BTYPE, CMD[23:19] (R63). -/
def fieldBtype (w : Word) : BitVec 5 := w.extractLsb' 19 5

/-- CAT, CMD[25:24] (R63). -/
def fieldCat (w : Word) : BitVec 2 := w.extractLsb' 24 2

/-- RSV, CMD[31:26] (R63). -/
def fieldRsv (w : Word) : BitVec 6 := w.extractLsb' 26 6

/-- CMD[25:4], which must be 0 for the four Exp-Golomb commands (R68). -/
def fieldStray (w : Word) : BitVec 22 := w.extractLsb' 4 22

/-- Why a word is no command (R68). -/
inductive DecodeError where
  /-- RSV is not 0. -/
  | reservedBits
  /-- OP is 0x0 or 0x7 to 0xF. -/
  | reservedOp (op : BitVec 4)
  /-- An Exp-Golomb command with CMD[25:4] not 0. -/
  | strayBits
  /-- CAVLC_BLOCK with CAT not 0. -/
  | catNotZero
deriving DecidableEq, Repr

/-- One of the four Exp-Golomb commands, whose bits 25:4 must be 0 (R68). -/
def decodeRead (i : Instr) (w : Word) : Except DecodeError Instr :=
  if fieldStray w = 0 then .ok i else .error .strayBits

/-- The command a word selects (R64), or why it selects none (R68). The fields of a block command are taken as they
stand; a reserved MAXC code or a bad span is left to the legality check of the command's start (R69), as the opcode
table's masks leave it. -/
def decode (w : Word) : Except DecodeError Instr :=
  if fieldRsv w ≠ 0 then .error .reservedBits
  else
    match (fieldOp w).toNat with
    | 1 => decodeRead .readUe w
    | 2 => decodeRead .readSe w
    | 3 => decodeRead .readTe w
    | 4 => decodeRead .readCe w
    | 5 =>
      if fieldCat w = 0 then
        .ok (.cavlcBlock (fieldStart w) (fieldEnd w) (fieldMaxc w) (fieldBtype w))
      else .error .catNotZero
    | 6 => .ok (.cabacBlock (fieldStart w) (fieldEnd w) (fieldMaxc w) (fieldBtype w) (fieldCat w))
    | _ => .error (.reservedOp (fieldOp w))

/-- The command word built from its fields (R70): `OP | start << 4 | end << 10 | MAXCcode << 16 | btype << 19 | cat << 24`. -/
def packWord (op : BitVec 4) (start stop : BitVec 6) (maxc : BitVec 3) (btype : BitVec 5) (cat : BitVec 2) : Word :=
  op.setWidth 32 ||| (start.setWidth 32 <<< 4) ||| (stop.setWidth 32 <<< 10) ||| (maxc.setWidth 32 <<< 16)
    ||| (btype.setWidth 32 <<< 19) ||| (cat.setWidth 32 <<< 24)

/-- The word of a command (R64, R70); fields a form does not list are 0. -/
def encode : Instr → Word
  | .readUe => packWord 1 0 0 0 0 0
  | .readSe => packWord 2 0 0 0 0 0
  | .readTe => packWord 3 0 0 0 0 0
  | .readCe => packWord 4 0 0 0 0 0
  | .cavlcBlock start stop maxc btype => packWord 5 start stop maxc btype 0
  | .cabacBlock start stop maxc btype cat => packWord 6 start stop maxc btype cat

/-- The command word of an opcode-table row's bits `w`, `nbits` of them; the bits above `nbits` are 0. There is one command
length, 32 bits (R63). -/
def tableWord (nbits w : Nat) : Word := BitVec.ofNat 32 (w % 2 ^ nbits)

/-- The command the decoder reads from an opcode-table word; a word longer than 32 bits is none. -/
def decodeTableWord (nbits w : Nat) : Option Instr :=
  if nbits ≤ 32 then (decode (tableWord nbits w)).toOption else none

end Sys2Proof
end

