-- ==== Sys2Proof/Machine/Tables.lean ====
section
/-! DEFINITION. Machine/Tables.lean: the tables of 30_encoding.md (R65, R77 to R86). A code is written as the bits in the order
they are read, first bit on the left (R7): `O` is a 0 bit and `I` a 1 bit. -/

namespace Sys2Proof.Tables

/-- A variable-length code table: a finite set of codes and the value each yields (R11). -/
abbrev Vlc (α : Type) := List (List Bool × α)

/-- A 0 bit of a code. -/
abbrev O : Bool := false

/-- A 1 bit of a code. -/
abbrev I : Bool := true

/-- `maxCoefficients` of a MAXC code (R65, R66); the codes 5, 6 and 7 are reserved. -/
def maxCoefficients (code : BitVec 3) : Option Nat :=
  match code.toNat with
  | 0 => some 4
  | 1 => some 8
  | 2 => some 15
  | 3 => some 16
  | 4 => some 64
  | _ => none

/-- The columns of the coeff_token tables (R77). -/
inductive CtColumn where
  | nc0
  | nc2
  | nc4
  | nc8
  | chroma420
  | chroma422
deriving DecidableEq, Repr

/-- TableSelect (R77, R96): the coeff_token column an nC value selects; a value below -2 selects none. -/
def tableSelect (nC : Int) : Option CtColumn :=
  if nC = -1 then some .chroma420
  else if nC = -2 then some .chroma422
  else if nC < 0 then none
  else if nC ≤ 1 then some .nc0
  else if nC ≤ 3 then some .nc2
  else if nC ≤ 7 then some .nc4
  else some .nc8

/-- Table T-CT, column "0 <= nC < 2" (R78). Each row is a code and its (TotalCoeff, TrailingOnes). -/
def ctNc0 : Vlc (Nat × Nat) :=
  [([I], (0, 0)),
   ([O, O, O, I, O, I], (1, 0)),
   ([O, I], (1, 1)),
   ([O, O, O, O, O, I, I, I], (2, 0)),
   ([O, O, O, I, O, O], (2, 1)),
   ([O, O, I], (2, 2)),
   ([O, O, O, O, O, O, I, I, I], (3, 0)),
   ([O, O, O, O, O, I, I, O], (3, 1)),
   ([O, O, O, O, I, O, I], (3, 2)),
   ([O, O, O, I, I], (3, 3)),
   ([O, O, O, O, O, O, O, I, I, I], (4, 0)),
   ([O, O, O, O, O, O, I, I, O], (4, 1)),
   ([O, O, O, O, O, I, O, I], (4, 2)),
   ([O, O, O, O, I, I], (4, 3)),
   ([O, O, O, O, O, O, O, O, I, I, I], (5, 0)),
   ([O, O, O, O, O, O, O, I, I, O], (5, 1))] ++
  [([O, O, O, O, O, O, I, O, I], (5, 2)),
   ([O, O, O, O, I, O, O], (5, 3)),
   ([O, O, O, O, O, O, O, O, O, I, I, I, I], (6, 0)),
   ([O, O, O, O, O, O, O, O, I, I, O], (6, 1)),
   ([O, O, O, O, O, O, O, I, O, I], (6, 2)),
   ([O, O, O, O, O, I, O, O], (6, 3)),
   ([O, O, O, O, O, O, O, O, O, I, O, I, I], (7, 0)),
   ([O, O, O, O, O, O, O, O, O, I, I, I, O], (7, 1)),
   ([O, O, O, O, O, O, O, O, I, O, I], (7, 2)),
   ([O, O, O, O, O, O, I, O, O], (7, 3)),
   ([O, O, O, O, O, O, O, O, O, I, O, O, O], (8, 0)),
   ([O, O, O, O, O, O, O, O, O, I, O, I, O], (8, 1)),
   ([O, O, O, O, O, O, O, O, O, I, I, O, I], (8, 2)),
   ([O, O, O, O, O, O, O, I, O, O], (8, 3)),
   ([O, O, O, O, O, O, O, O, O, O, I, I, I, I], (9, 0)),
   ([O, O, O, O, O, O, O, O, O, O, I, I, I, O], (9, 1))] ++
  [([O, O, O, O, O, O, O, O, O, I, O, O, I], (9, 2)),
   ([O, O, O, O, O, O, O, O, I, O, O], (9, 3)),
   ([O, O, O, O, O, O, O, O, O, O, I, O, I, I], (10, 0)),
   ([O, O, O, O, O, O, O, O, O, O, I, O, I, O], (10, 1)),
   ([O, O, O, O, O, O, O, O, O, O, I, I, O, I], (10, 2)),
   ([O, O, O, O, O, O, O, O, O, I, I, O, O], (10, 3)),
   ([O, O, O, O, O, O, O, O, O, O, O, I, I, I, I], (11, 0)),
   ([O, O, O, O, O, O, O, O, O, O, O, I, I, I, O], (11, 1)),
   ([O, O, O, O, O, O, O, O, O, O, I, O, O, I], (11, 2)),
   ([O, O, O, O, O, O, O, O, O, O, I, I, O, O], (11, 3)),
   ([O, O, O, O, O, O, O, O, O, O, O, I, O, I, I], (12, 0)),
   ([O, O, O, O, O, O, O, O, O, O, O, I, O, I, O], (12, 1)),
   ([O, O, O, O, O, O, O, O, O, O, O, I, I, O, I], (12, 2)),
   ([O, O, O, O, O, O, O, O, O, O, I, O, O, O], (12, 3)),
   ([O, O, O, O, O, O, O, O, O, O, O, O, I, I, I, I], (13, 0)),
   ([O, O, O, O, O, O, O, O, O, O, O, O, O, O, I], (13, 1))] ++
  [([O, O, O, O, O, O, O, O, O, O, O, I, O, O, I], (13, 2)),
   ([O, O, O, O, O, O, O, O, O, O, O, I, I, O, O], (13, 3)),
   ([O, O, O, O, O, O, O, O, O, O, O, O, I, O, I, I], (14, 0)),
   ([O, O, O, O, O, O, O, O, O, O, O, O, I, I, I, O], (14, 1)),
   ([O, O, O, O, O, O, O, O, O, O, O, O, I, I, O, I], (14, 2)),
   ([O, O, O, O, O, O, O, O, O, O, O, I, O, O, O], (14, 3)),
   ([O, O, O, O, O, O, O, O, O, O, O, O, O, I, I, I], (15, 0)),
   ([O, O, O, O, O, O, O, O, O, O, O, O, I, O, I, O], (15, 1)),
   ([O, O, O, O, O, O, O, O, O, O, O, O, I, O, O, I], (15, 2)),
   ([O, O, O, O, O, O, O, O, O, O, O, O, I, I, O, O], (15, 3)),
   ([O, O, O, O, O, O, O, O, O, O, O, O, O, I, O, O], (16, 0)),
   ([O, O, O, O, O, O, O, O, O, O, O, O, O, I, I, O], (16, 1)),
   ([O, O, O, O, O, O, O, O, O, O, O, O, O, I, O, I], (16, 2)),
   ([O, O, O, O, O, O, O, O, O, O, O, O, I, O, O, O], (16, 3))]

/-- Table T-CT, column "2 <= nC < 4" (R78). Each row is a code and its (TotalCoeff, TrailingOnes). -/
def ctNc2 : Vlc (Nat × Nat) :=
  [([I, I], (0, 0)),
   ([O, O, I, O, I, I], (1, 0)),
   ([I, O], (1, 1)),
   ([O, O, O, I, I, I], (2, 0)),
   ([O, O, I, I, I], (2, 1)),
   ([O, I, I], (2, 2)),
   ([O, O, O, O, I, I, I], (3, 0)),
   ([O, O, I, O, I, O], (3, 1)),
   ([O, O, I, O, O, I], (3, 2)),
   ([O, I, O, I], (3, 3)),
   ([O, O, O, O, O, I, I, I], (4, 0)),
   ([O, O, O, I, I, O], (4, 1)),
   ([O, O, O, I, O, I], (4, 2)),
   ([O, I, O, O], (4, 3)),
   ([O, O, O, O, O, I, O, O], (5, 0)),
   ([O, O, O, O, I, I, O], (5, 1))] ++
  [([O, O, O, O, I, O, I], (5, 2)),
   ([O, O, I, I, O], (5, 3)),
   ([O, O, O, O, O, O, I, I, I], (6, 0)),
   ([O, O, O, O, O, I, I, O], (6, 1)),
   ([O, O, O, O, O, I, O, I], (6, 2)),
   ([O, O, I, O, O, O], (6, 3)),
   ([O, O, O, O, O, O, O, I, I, I, I], (7, 0)),
   ([O, O, O, O, O, O, I, I, O], (7, 1)),
   ([O, O, O, O, O, O, I, O, I], (7, 2)),
   ([O, O, O, I, O, O], (7, 3)),
   ([O, O, O, O, O, O, O, I, O, I, I], (8, 0)),
   ([O, O, O, O, O, O, O, I, I, I, O], (8, 1)),
   ([O, O, O, O, O, O, O, I, I, O, I], (8, 2)),
   ([O, O, O, O, I, O, O], (8, 3)),
   ([O, O, O, O, O, O, O, O, I, I, I, I], (9, 0)),
   ([O, O, O, O, O, O, O, I, O, I, O], (9, 1))] ++
  [([O, O, O, O, O, O, O, I, O, O, I], (9, 2)),
   ([O, O, O, O, O, O, I, O, O], (9, 3)),
   ([O, O, O, O, O, O, O, O, I, O, I, I], (10, 0)),
   ([O, O, O, O, O, O, O, O, I, I, I, O], (10, 1)),
   ([O, O, O, O, O, O, O, O, I, I, O, I], (10, 2)),
   ([O, O, O, O, O, O, O, I, I, O, O], (10, 3)),
   ([O, O, O, O, O, O, O, O, I, O, O, O], (11, 0)),
   ([O, O, O, O, O, O, O, O, I, O, I, O], (11, 1)),
   ([O, O, O, O, O, O, O, O, I, O, O, I], (11, 2)),
   ([O, O, O, O, O, O, O, I, O, O, O], (11, 3)),
   ([O, O, O, O, O, O, O, O, O, I, I, I, I], (12, 0)),
   ([O, O, O, O, O, O, O, O, O, I, I, I, O], (12, 1)),
   ([O, O, O, O, O, O, O, O, O, I, I, O, I], (12, 2)),
   ([O, O, O, O, O, O, O, O, I, I, O, O], (12, 3)),
   ([O, O, O, O, O, O, O, O, O, I, O, I, I], (13, 0)),
   ([O, O, O, O, O, O, O, O, O, I, O, I, O], (13, 1))] ++
  [([O, O, O, O, O, O, O, O, O, I, O, O, I], (13, 2)),
   ([O, O, O, O, O, O, O, O, O, I, I, O, O], (13, 3)),
   ([O, O, O, O, O, O, O, O, O, O, I, I, I], (14, 0)),
   ([O, O, O, O, O, O, O, O, O, O, I, O, I, I], (14, 1)),
   ([O, O, O, O, O, O, O, O, O, O, I, I, O], (14, 2)),
   ([O, O, O, O, O, O, O, O, O, I, O, O, O], (14, 3)),
   ([O, O, O, O, O, O, O, O, O, O, I, O, O, I], (15, 0)),
   ([O, O, O, O, O, O, O, O, O, O, I, O, O, O], (15, 1)),
   ([O, O, O, O, O, O, O, O, O, O, I, O, I, O], (15, 2)),
   ([O, O, O, O, O, O, O, O, O, O, O, O, I], (15, 3)),
   ([O, O, O, O, O, O, O, O, O, O, O, I, I, I], (16, 0)),
   ([O, O, O, O, O, O, O, O, O, O, O, I, I, O], (16, 1)),
   ([O, O, O, O, O, O, O, O, O, O, O, I, O, I], (16, 2)),
   ([O, O, O, O, O, O, O, O, O, O, O, I, O, O], (16, 3))]

/-- Table T-CT, column "4 <= nC < 8" (R78). Each row is a code and its (TotalCoeff, TrailingOnes). -/
def ctNc4 : Vlc (Nat × Nat) :=
  [([I, I, I, I], (0, 0)),
   ([O, O, I, I, I, I], (1, 0)),
   ([I, I, I, O], (1, 1)),
   ([O, O, I, O, I, I], (2, 0)),
   ([O, I, I, I, I], (2, 1)),
   ([I, I, O, I], (2, 2)),
   ([O, O, I, O, O, O], (3, 0)),
   ([O, I, I, O, O], (3, 1)),
   ([O, I, I, I, O], (3, 2)),
   ([I, I, O, O], (3, 3)),
   ([O, O, O, I, I, I, I], (4, 0)),
   ([O, I, O, I, O], (4, 1)),
   ([O, I, O, I, I], (4, 2)),
   ([I, O, I, I], (4, 3)),
   ([O, O, O, I, O, I, I], (5, 0)),
   ([O, I, O, O, O], (5, 1))] ++
  [([O, I, O, O, I], (5, 2)),
   ([I, O, I, O], (5, 3)),
   ([O, O, O, I, O, O, I], (6, 0)),
   ([O, O, I, I, I, O], (6, 1)),
   ([O, O, I, I, O, I], (6, 2)),
   ([I, O, O, I], (6, 3)),
   ([O, O, O, I, O, O, O], (7, 0)),
   ([O, O, I, O, I, O], (7, 1)),
   ([O, O, I, O, O, I], (7, 2)),
   ([I, O, O, O], (7, 3)),
   ([O, O, O, O, I, I, I, I], (8, 0)),
   ([O, O, O, I, I, I, O], (8, 1)),
   ([O, O, O, I, I, O, I], (8, 2)),
   ([O, I, I, O, I], (8, 3)),
   ([O, O, O, O, I, O, I, I], (9, 0)),
   ([O, O, O, O, I, I, I, O], (9, 1))] ++
  [([O, O, O, I, O, I, O], (9, 2)),
   ([O, O, I, I, O, O], (9, 3)),
   ([O, O, O, O, O, I, I, I, I], (10, 0)),
   ([O, O, O, O, I, O, I, O], (10, 1)),
   ([O, O, O, O, I, I, O, I], (10, 2)),
   ([O, O, O, I, I, O, O], (10, 3)),
   ([O, O, O, O, O, I, O, I, I], (11, 0)),
   ([O, O, O, O, O, I, I, I, O], (11, 1)),
   ([O, O, O, O, I, O, O, I], (11, 2)),
   ([O, O, O, O, I, I, O, O], (11, 3)),
   ([O, O, O, O, O, I, O, O, O], (12, 0)),
   ([O, O, O, O, O, I, O, I, O], (12, 1)),
   ([O, O, O, O, O, I, I, O, I], (12, 2)),
   ([O, O, O, O, I, O, O, O], (12, 3)),
   ([O, O, O, O, O, O, I, I, O, I], (13, 0)),
   ([O, O, O, O, O, O, I, I, I], (13, 1))] ++
  [([O, O, O, O, O, I, O, O, I], (13, 2)),
   ([O, O, O, O, O, I, I, O, O], (13, 3)),
   ([O, O, O, O, O, O, I, O, O, I], (14, 0)),
   ([O, O, O, O, O, O, I, I, O, O], (14, 1)),
   ([O, O, O, O, O, O, I, O, I, I], (14, 2)),
   ([O, O, O, O, O, O, I, O, I, O], (14, 3)),
   ([O, O, O, O, O, O, O, I, O, I], (15, 0)),
   ([O, O, O, O, O, O, I, O, O, O], (15, 1)),
   ([O, O, O, O, O, O, O, I, I, I], (15, 2)),
   ([O, O, O, O, O, O, O, I, I, O], (15, 3)),
   ([O, O, O, O, O, O, O, O, O, I], (16, 0)),
   ([O, O, O, O, O, O, O, I, O, O], (16, 1)),
   ([O, O, O, O, O, O, O, O, I, I], (16, 2)),
   ([O, O, O, O, O, O, O, O, I, O], (16, 3))]

/-- Table T-CT, column "8 <= nC" (R78). Each row is a code and its (TotalCoeff, TrailingOnes). -/
def ctNc8 : Vlc (Nat × Nat) :=
  [([O, O, O, O, I, I], (0, 0)),
   ([O, O, O, O, O, O], (1, 0)),
   ([O, O, O, O, O, I], (1, 1)),
   ([O, O, O, I, O, O], (2, 0)),
   ([O, O, O, I, O, I], (2, 1)),
   ([O, O, O, I, I, O], (2, 2)),
   ([O, O, I, O, O, O], (3, 0)),
   ([O, O, I, O, O, I], (3, 1)),
   ([O, O, I, O, I, O], (3, 2)),
   ([O, O, I, O, I, I], (3, 3)),
   ([O, O, I, I, O, O], (4, 0)),
   ([O, O, I, I, O, I], (4, 1)),
   ([O, O, I, I, I, O], (4, 2)),
   ([O, O, I, I, I, I], (4, 3)),
   ([O, I, O, O, O, O], (5, 0)),
   ([O, I, O, O, O, I], (5, 1))] ++
  [([O, I, O, O, I, O], (5, 2)),
   ([O, I, O, O, I, I], (5, 3)),
   ([O, I, O, I, O, O], (6, 0)),
   ([O, I, O, I, O, I], (6, 1)),
   ([O, I, O, I, I, O], (6, 2)),
   ([O, I, O, I, I, I], (6, 3)),
   ([O, I, I, O, O, O], (7, 0)),
   ([O, I, I, O, O, I], (7, 1)),
   ([O, I, I, O, I, O], (7, 2)),
   ([O, I, I, O, I, I], (7, 3)),
   ([O, I, I, I, O, O], (8, 0)),
   ([O, I, I, I, O, I], (8, 1)),
   ([O, I, I, I, I, O], (8, 2)),
   ([O, I, I, I, I, I], (8, 3)),
   ([I, O, O, O, O, O], (9, 0)),
   ([I, O, O, O, O, I], (9, 1))] ++
  [([I, O, O, O, I, O], (9, 2)),
   ([I, O, O, O, I, I], (9, 3)),
   ([I, O, O, I, O, O], (10, 0)),
   ([I, O, O, I, O, I], (10, 1)),
   ([I, O, O, I, I, O], (10, 2)),
   ([I, O, O, I, I, I], (10, 3)),
   ([I, O, I, O, O, O], (11, 0)),
   ([I, O, I, O, O, I], (11, 1)),
   ([I, O, I, O, I, O], (11, 2)),
   ([I, O, I, O, I, I], (11, 3)),
   ([I, O, I, I, O, O], (12, 0)),
   ([I, O, I, I, O, I], (12, 1)),
   ([I, O, I, I, I, O], (12, 2)),
   ([I, O, I, I, I, I], (12, 3)),
   ([I, I, O, O, O, O], (13, 0)),
   ([I, I, O, O, O, I], (13, 1))] ++
  [([I, I, O, O, I, O], (13, 2)),
   ([I, I, O, O, I, I], (13, 3)),
   ([I, I, O, I, O, O], (14, 0)),
   ([I, I, O, I, O, I], (14, 1)),
   ([I, I, O, I, I, O], (14, 2)),
   ([I, I, O, I, I, I], (14, 3)),
   ([I, I, I, O, O, O], (15, 0)),
   ([I, I, I, O, O, I], (15, 1)),
   ([I, I, I, O, I, O], (15, 2)),
   ([I, I, I, O, I, I], (15, 3)),
   ([I, I, I, I, O, O], (16, 0)),
   ([I, I, I, I, O, I], (16, 1)),
   ([I, I, I, I, I, O], (16, 2)),
   ([I, I, I, I, I, I], (16, 3))]

/-- Table T-CDC, column "nC = -1" (R79). -/
def ctChroma420 : Vlc (Nat × Nat) :=
  [([O, I], (0, 0)),
   ([O, O, O, I, I, I], (1, 0)),
   ([I], (1, 1)),
   ([O, O, O, I, O, O], (2, 0)),
   ([O, O, O, I, I, O], (2, 1)),
   ([O, O, I], (2, 2)),
   ([O, O, O, O, I, I], (3, 0)),
   ([O, O, O, O, O, I, I], (3, 1)),
   ([O, O, O, O, O, I, O], (3, 2)),
   ([O, O, O, I, O, I], (3, 3)),
   ([O, O, O, O, I, O], (4, 0)),
   ([O, O, O, O, O, O, I, I], (4, 1)),
   ([O, O, O, O, O, O, I, O], (4, 2)),
   ([O, O, O, O, O, O, O], (4, 3))]

/-- Table T-CDC, column "nC = -2" (R79). -/
def ctChroma422 : Vlc (Nat × Nat) :=
  [([I], (0, 0)),
   ([O, O, O, I, I, I, I], (1, 0)),
   ([O, I], (1, 1)),
   ([O, O, O, I, I, I, O], (2, 0)),
   ([O, O, O, I, I, O, I], (2, 1)),
   ([O, O, I], (2, 2)),
   ([O, O, O, O, O, O, I, I, I], (3, 0)),
   ([O, O, O, I, I, O, O], (3, 1)),
   ([O, O, O, I, O, I, I], (3, 2)),
   ([O, O, O, O, I], (3, 3)),
   ([O, O, O, O, O, O, I, I, O], (4, 0)),
   ([O, O, O, O, O, O, I, O, I], (4, 1)),
   ([O, O, O, I, O, I, O], (4, 2)),
   ([O, O, O, O, O, I], (4, 3)),
   ([O, O, O, O, O, O, O, I, I, I], (5, 0)),
   ([O, O, O, O, O, O, O, I, I, O], (5, 1))] ++
  [([O, O, O, O, O, O, I, O, O], (5, 2)),
   ([O, O, O, I, O, O, I], (5, 3)),
   ([O, O, O, O, O, O, O, O, I, I, I], (6, 0)),
   ([O, O, O, O, O, O, O, O, I, I, O], (6, 1)),
   ([O, O, O, O, O, O, O, I, O, I], (6, 2)),
   ([O, O, O, I, O, O, O], (6, 3)),
   ([O, O, O, O, O, O, O, O, O, I, I, I], (7, 0)),
   ([O, O, O, O, O, O, O, O, O, I, I, O], (7, 1)),
   ([O, O, O, O, O, O, O, O, I, O, I], (7, 2)),
   ([O, O, O, O, O, O, O, I, O, O], (7, 3)),
   ([O, O, O, O, O, O, O, O, O, O, I, I, I], (8, 0)),
   ([O, O, O, O, O, O, O, O, O, I, O, I], (8, 1)),
   ([O, O, O, O, O, O, O, O, O, I, O, O], (8, 2)),
   ([O, O, O, O, O, O, O, O, I, O, O], (8, 3))]

/-- Table T-TZ4 (R83), column TotalCoeff 1. -/
def tz4c1 : Vlc Nat :=
  [([I], 0),
   ([O, I, I], 1),
   ([O, I, O], 2),
   ([O, O, I, I], 3),
   ([O, O, I, O], 4),
   ([O, O, O, I, I], 5),
   ([O, O, O, I, O], 6),
   ([O, O, O, O, I, I], 7),
   ([O, O, O, O, I, O], 8),
   ([O, O, O, O, O, I, I], 9),
   ([O, O, O, O, O, I, O], 10),
   ([O, O, O, O, O, O, I, I], 11),
   ([O, O, O, O, O, O, I, O], 12),
   ([O, O, O, O, O, O, O, I, I], 13),
   ([O, O, O, O, O, O, O, I, O], 14),
   ([O, O, O, O, O, O, O, O, I], 15)]

/-- Table T-TZ4 (R83), column TotalCoeff 2. -/
def tz4c2 : Vlc Nat :=
  [([I, I, I], 0),
   ([I, I, O], 1),
   ([I, O, I], 2),
   ([I, O, O], 3),
   ([O, I, I], 4),
   ([O, I, O, I], 5),
   ([O, I, O, O], 6),
   ([O, O, I, I], 7),
   ([O, O, I, O], 8),
   ([O, O, O, I, I], 9),
   ([O, O, O, I, O], 10),
   ([O, O, O, O, I, I], 11),
   ([O, O, O, O, I, O], 12),
   ([O, O, O, O, O, I], 13),
   ([O, O, O, O, O, O], 14)]

/-- Table T-TZ4 (R83), column TotalCoeff 3. -/
def tz4c3 : Vlc Nat :=
  [([O, I, O, I], 0),
   ([I, I, I], 1),
   ([I, I, O], 2),
   ([I, O, I], 3),
   ([O, I, O, O], 4),
   ([O, O, I, I], 5),
   ([I, O, O], 6),
   ([O, I, I], 7),
   ([O, O, I, O], 8),
   ([O, O, O, I, I], 9),
   ([O, O, O, I, O], 10),
   ([O, O, O, O, O, I], 11),
   ([O, O, O, O, I], 12),
   ([O, O, O, O, O, O], 13)]

/-- Table T-TZ4 (R83), column TotalCoeff 4. -/
def tz4c4 : Vlc Nat :=
  [([O, O, O, I, I], 0),
   ([I, I, I], 1),
   ([O, I, O, I], 2),
   ([O, I, O, O], 3),
   ([I, I, O], 4),
   ([I, O, I], 5),
   ([I, O, O], 6),
   ([O, O, I, I], 7),
   ([O, I, I], 8),
   ([O, O, I, O], 9),
   ([O, O, O, I, O], 10),
   ([O, O, O, O, I], 11),
   ([O, O, O, O, O], 12)]

/-- Table T-TZ4 (R83), column TotalCoeff 5. -/
def tz4c5 : Vlc Nat :=
  [([O, I, O, I], 0),
   ([O, I, O, O], 1),
   ([O, O, I, I], 2),
   ([I, I, I], 3),
   ([I, I, O], 4),
   ([I, O, I], 5),
   ([I, O, O], 6),
   ([O, I, I], 7),
   ([O, O, I, O], 8),
   ([O, O, O, O, I], 9),
   ([O, O, O, I], 10),
   ([O, O, O, O, O], 11)]

/-- Table T-TZ4 (R83), column TotalCoeff 6. -/
def tz4c6 : Vlc Nat :=
  [([O, O, O, O, O, I], 0),
   ([O, O, O, O, I], 1),
   ([I, I, I], 2),
   ([I, I, O], 3),
   ([I, O, I], 4),
   ([I, O, O], 5),
   ([O, I, I], 6),
   ([O, I, O], 7),
   ([O, O, O, I], 8),
   ([O, O, I], 9),
   ([O, O, O, O, O, O], 10)]

/-- Table T-TZ4 (R83), column TotalCoeff 7. -/
def tz4c7 : Vlc Nat :=
  [([O, O, O, O, O, I], 0),
   ([O, O, O, O, I], 1),
   ([I, O, I], 2),
   ([I, O, O], 3),
   ([O, I, I], 4),
   ([I, I], 5),
   ([O, I, O], 6),
   ([O, O, O, I], 7),
   ([O, O, I], 8),
   ([O, O, O, O, O, O], 9)]

/-- Table T-TZ4 (R83), column TotalCoeff 8. -/
def tz4c8 : Vlc Nat :=
  [([O, O, O, O, O, I], 0),
   ([O, O, O, I], 1),
   ([O, O, O, O, I], 2),
   ([O, I, I], 3),
   ([I, I], 4),
   ([I, O], 5),
   ([O, I, O], 6),
   ([O, O, I], 7),
   ([O, O, O, O, O, O], 8)]

/-- Table T-TZ4 (R83), column TotalCoeff 9. -/
def tz4c9 : Vlc Nat :=
  [([O, O, O, O, O, I], 0),
   ([O, O, O, O, O, O], 1),
   ([O, O, O, I], 2),
   ([I, I], 3),
   ([I, O], 4),
   ([O, O, I], 5),
   ([O, I], 6),
   ([O, O, O, O, I], 7)]

/-- Table T-TZ4 (R83), column TotalCoeff 10. -/
def tz4c10 : Vlc Nat :=
  [([O, O, O, O, I], 0),
   ([O, O, O, O, O], 1),
   ([O, O, I], 2),
   ([I, I], 3),
   ([I, O], 4),
   ([O, I], 5),
   ([O, O, O, I], 6)]

/-- Table T-TZ4 (R83), column TotalCoeff 11. -/
def tz4c11 : Vlc Nat :=
  [([O, O, O, O], 0),
   ([O, O, O, I], 1),
   ([O, O, I], 2),
   ([O, I, O], 3),
   ([I], 4),
   ([O, I, I], 5)]

/-- Table T-TZ4 (R83), column TotalCoeff 12. -/
def tz4c12 : Vlc Nat :=
  [([O, O, O, O], 0),
   ([O, O, O, I], 1),
   ([O, I], 2),
   ([I], 3),
   ([O, O, I], 4)]

/-- Table T-TZ4 (R83), column TotalCoeff 13. -/
def tz4c13 : Vlc Nat :=
  [([O, O, O], 0),
   ([O, O, I], 1),
   ([I], 2),
   ([O, I], 3)]

/-- Table T-TZ4 (R83), column TotalCoeff 14. -/
def tz4c14 : Vlc Nat :=
  [([O, O], 0),
   ([O, I], 1),
   ([I], 2)]

/-- Table T-TZ4 (R83), column TotalCoeff 15. -/
def tz4c15 : Vlc Nat :=
  [([O], 0),
   ([I], 1)]

/-- Table T-TZ420 (R84), column TotalCoeff 1. -/
def tz420c1 : Vlc Nat :=
  [([I], 0),
   ([O, I], 1),
   ([O, O, I], 2),
   ([O, O, O], 3)]

/-- Table T-TZ420 (R84), column TotalCoeff 2. -/
def tz420c2 : Vlc Nat :=
  [([I], 0),
   ([O, I], 1),
   ([O, O], 2)]

/-- Table T-TZ420 (R84), column TotalCoeff 3. -/
def tz420c3 : Vlc Nat :=
  [([I], 0),
   ([O], 1)]

/-- Table T-TZ422 (R84), column TotalCoeff 1. -/
def tz422c1 : Vlc Nat :=
  [([I], 0),
   ([O, I, O], 1),
   ([O, I, I], 2),
   ([O, O, I, O], 3),
   ([O, O, I, I], 4),
   ([O, O, O, I], 5),
   ([O, O, O, O, I], 6),
   ([O, O, O, O, O], 7)]

/-- Table T-TZ422 (R84), column TotalCoeff 2. -/
def tz422c2 : Vlc Nat :=
  [([O, O, O], 0),
   ([O, I], 1),
   ([O, O, I], 2),
   ([I, O, O], 3),
   ([I, O, I], 4),
   ([I, I, O], 5),
   ([I, I, I], 6)]

/-- Table T-TZ422 (R84), column TotalCoeff 3. -/
def tz422c3 : Vlc Nat :=
  [([O, O, O], 0),
   ([O, O, I], 1),
   ([O, I], 2),
   ([I, O], 3),
   ([I, I, O], 4),
   ([I, I, I], 5)]

/-- Table T-TZ422 (R84), column TotalCoeff 4. -/
def tz422c4 : Vlc Nat :=
  [([I, I, O], 0),
   ([O, O], 1),
   ([O, I], 2),
   ([I, O], 3),
   ([I, I, I], 4)]

/-- Table T-TZ422 (R84), column TotalCoeff 5. -/
def tz422c5 : Vlc Nat :=
  [([O, O], 0),
   ([O, I], 1),
   ([I, O], 2),
   ([I, I], 3)]

/-- Table T-TZ422 (R84), column TotalCoeff 6. -/
def tz422c6 : Vlc Nat :=
  [([O, O], 0),
   ([O, I], 1),
   ([I], 2)]

/-- Table T-TZ422 (R84), column TotalCoeff 7. -/
def tz422c7 : Vlc Nat :=
  [([O], 0),
   ([I], 1)]

/-- Table T-RB (R86), column zerosLeft 1. -/
def rbc1 : Vlc Nat :=
  [([I], 0),
   ([O], 1)]

/-- Table T-RB (R86), column zerosLeft 2. -/
def rbc2 : Vlc Nat :=
  [([I], 0),
   ([O, I], 1),
   ([O, O], 2)]

/-- Table T-RB (R86), column zerosLeft 3. -/
def rbc3 : Vlc Nat :=
  [([I, I], 0),
   ([I, O], 1),
   ([O, I], 2),
   ([O, O], 3)]

/-- Table T-RB (R86), column zerosLeft 4. -/
def rbc4 : Vlc Nat :=
  [([I, I], 0),
   ([I, O], 1),
   ([O, I], 2),
   ([O, O, I], 3),
   ([O, O, O], 4)]

/-- Table T-RB (R86), column zerosLeft 5. -/
def rbc5 : Vlc Nat :=
  [([I, I], 0),
   ([I, O], 1),
   ([O, I, I], 2),
   ([O, I, O], 3),
   ([O, O, I], 4),
   ([O, O, O], 5)]

/-- Table T-RB (R86), column zerosLeft 6. -/
def rbc6 : Vlc Nat :=
  [([I, I], 0),
   ([O, O, O], 1),
   ([O, O, I], 2),
   ([O, I, I], 3),
   ([O, I, O], 4),
   ([I, O, I], 5),
   ([I, O, O], 6)]

/-- Table T-RB (R86), column ">6" (zerosLeft 7 and above). -/
def rbc7 : Vlc Nat :=
  [([I, I, I], 0),
   ([I, I, O], 1),
   ([I, O, I], 2),
   ([I, O, O], 3),
   ([O, I, I], 4),
   ([O, I, O], 5),
   ([O, O, I], 6),
   ([O, O, O, I], 7),
   ([O, O, O, O, I], 8),
   ([O, O, O, O, O, I], 9),
   ([O, O, O, O, O, O, I], 10),
   ([O, O, O, O, O, O, O, I], 11),
   ([O, O, O, O, O, O, O, O, I], 12),
   ([O, O, O, O, O, O, O, O, O, I], 13),
   ([O, O, O, O, O, O, O, O, O, O, I], 14)]

/-- The codes of a coeff_token column (R77). -/
def coeffToken : CtColumn → Vlc (Nat × Nat)
  | .nc0 => ctNc0
  | .nc2 => ctNc2
  | .nc4 => ctNc4
  | .nc8 => ctNc8
  | .chroma420 => ctChroma420
  | .chroma422 => ctChroma422

/-- Table T-TZ4 (R83) by column. -/
def tz4 (tc : Nat) : Vlc Nat :=
  match tc with
  | 1 => tz4c1
  | 2 => tz4c2
  | 3 => tz4c3
  | 4 => tz4c4
  | 5 => tz4c5
  | 6 => tz4c6
  | 7 => tz4c7
  | 8 => tz4c8
  | 9 => tz4c9
  | 10 => tz4c10
  | 11 => tz4c11
  | 12 => tz4c12
  | 13 => tz4c13
  | 14 => tz4c14
  | 15 => tz4c15
  | _ => []

/-- Table T-TZ420 (R84) by column. -/
def tz420 (tc : Nat) : Vlc Nat :=
  match tc with
  | 1 => tz420c1
  | 2 => tz420c2
  | 3 => tz420c3
  | _ => []

/-- Table T-TZ422 (R84) by column. -/
def tz422 (tc : Nat) : Vlc Nat :=
  match tc with
  | 1 => tz422c1
  | 2 => tz422c2
  | 3 => tz422c3
  | 4 => tz422c4
  | 5 => tz422c5
  | 6 => tz422c6
  | 7 => tz422c7
  | _ => []

/-- The total_zeros table that `maxCoefficients` and TotalCoeff select (R82, R107). -/
def totalZeros (maxc tc : Nat) : Vlc Nat :=
  if maxc = 4 then tz420 tc
  else if maxc = 8 then tz422 tc
  else if maxc = 15 ∨ maxc = 16 then tz4 tc
  else []

/-- The run_before column that zerosLeft selects (R85, R109: column min(zerosLeft, 7)). -/
def runBefore (zerosLeft : Nat) : Vlc Nat :=
  match min zerosLeft 7 with
  | 1 => rbc1
  | 2 => rbc2
  | 3 => rbc3
  | 4 => rbc4
  | 5 => rbc5
  | 6 => rbc6
  | 7 => rbc7
  | _ => []

end Sys2Proof.Tables
end

