-- ==== Sys2Proof/WellFormed.lean ====
section
/-! DEFINITION. WellFormed.lean: the checks of R68 that a command's own fields must pass. The checks that also read ARG (READ_TE
with range 0, CAVLC_BLOCK's nC) stand in Machine/Operands.lean. -/

namespace Sys2Proof

/-- The MAXC code of a block command is not reserved (R65, R68). -/
def Instr.maxcDefined : Instr → Bool
  | .readUe => true
  | .readSe => true
  | .readTe => true
  | .readCe => true
  | .cavlcBlock _ _ maxc _ => (Tables.maxCoefficients maxc).isSome
  | .cabacBlock _ _ maxc _ _ => (Tables.maxCoefficients maxc).isSome

/-- A block command has `scanIndexStart <= scanIndexEnd` (R68). -/
def Instr.spanOrdered : Instr → Bool
  | .readUe => true
  | .readSe => true
  | .readTe => true
  | .readCe => true
  | .cavlcBlock start stop _ _ => decide (start.toNat ≤ stop.toNat)
  | .cabacBlock start stop _ _ _ => decide (start.toNat ≤ stop.toNat)

/-- A block command has `scanIndexEnd <= maxCoefficients - 1` (R68). -/
def Instr.spanFits : Instr → Bool
  | .readUe => true
  | .readSe => true
  | .readTe => true
  | .readCe => true
  | .cavlcBlock _ stop maxc _ => decide (stop.toNat < (Tables.maxCoefficients maxc).getD 64)
  | .cabacBlock _ stop maxc _ _ => decide (stop.toNat < (Tables.maxCoefficients maxc).getD 64)

/-- A command whose fields are legal (R68). -/
def Instr.wellFormed (i : Instr) : Bool :=
  i.maxcDefined && i.spanOrdered && i.spanFits

end Sys2Proof
end

