-- ==== Sys2Proof/Machine/Operands.lean ====
section
/-! DEFINITION. Machine/Operands.lean: operand assembly from the snapshots of CMD and ARG (R66, R67) and the operand checks of
R68, R92 and R96. -/

namespace Sys2Proof.Machine

/-- The BlockAddress of a block command (R66). -/
structure BlockAddress where
  blockType : Nat
  start : Nat
  stop : Nat
  maxc : Nat
  cat : Nat
deriving DecidableEq, Repr

/-- A block command's BlockAddress, every field zero-extended (R66). -/
def blockOf (w : Word) : BlockAddress where
  blockType := (fieldBtype w).toNat
  start := (fieldStart w).toNat
  stop := (fieldEnd w).toNat
  maxc := (Tables.maxCoefficients (fieldMaxc w)).getD 0
  cat := (fieldCat w).toNat

/-- The running command's BlockAddress, from its snapshot of CMD (R44, R66). -/
def Run.block (r : Run) : BlockAddress := blockOf r.cmd

/-- The span count `end - start + 1` (R66). -/
def Run.count (r : Run) : Nat := r.block.stop + 1 - r.block.start

/-- ARG as READ_TE's `range`, a u32 (R67). -/
def Run.range (r : Run) : Nat := r.arg.toNat

/-- ARG as CAVLC_BLOCK's `nC`, an s32 (R67). -/
def Run.nC (r : Run) : Int := r.arg.toInt

/-- The running command is a CABAC_BLOCK, by the OP field of its snapshot (R64). -/
def Run.isCabac (r : Run) : Bool := fieldOp r.cmd = 6

/-- The nC and maxCoefficients pairs CAVLC_BLOCK accepts (R96). -/
def cavlcAccepts (maxc : Nat) (nC : Int) : Bool :=
  if maxc = 64 then false
  else if nC < -2 then false
  else if nC = -1 ∧ maxc ≠ 4 then false
  else if nC = -2 ∧ maxc ≠ 8 then false
  else if 0 ≤ nC ∧ ¬ (maxc = 15 ∨ maxc = 16) then false
  else true

/-- The operand checks that read ARG (R68, last item). -/
def argumentLegal (i : Instr) (arg : Word) : Bool :=
  match i with
  | .readUe => true
  | .readSe => true
  | .readTe => decide (arg.toNat ≠ 0)
  | .readCe => true
  | .cavlcBlock _ _ maxc _ => cavlcAccepts ((Tables.maxCoefficients maxc).getD 0) arg.toInt
  | .cabacBlock _ _ _ _ _ => true

/-- A command is legal with this ARG (R68, R69). -/
def legal (i : Instr) (arg : Word) : Bool := i.wellFormed && argumentLegal i arg

end Sys2Proof.Machine
end

