-- ==== Sys2Proof/Machine/Ops.lean ====
section
/-! DEFINITION. Machine/Ops.lean: the operations the commands share. Starting a command (R130), reading a bit (R9, R58), reading a
code (R11), the Engine's answer (R10), raising an error and aborting (R11, R132), committing (R12, R132), dropping a write
(R21) and reset (R145). -/

namespace Sys2Proof.Machine

/-! ### The running command -/

/-- Go on with another phase. -/
def Run.goto (p : Phase) (r : Run) : Run := { r with phase := p }

/-- Replace the staging copy `S` (R12). -/
def Run.stage (f : Results → Results) (r : Run) : Run := { r with staged := f r.staged }

/-- `raise E` (R11): no further bit or bin is requested; the next Core step aborts. -/
def Run.raise (e : ErrorKind) (r : Run) : Run := r.goto (.abort e)

/-- The end of a command that reads bits: `S.BITS <- POS - POS_start` (R29, R89, R112), then commit. -/
def Run.finishBits (r : Run) : Run :=
  (r.stage fun S => { S with bits := BitVec.ofNat 32 (r.pos - r.posStart.toNat) }).goto .commit

/-- Set or keep bit `i` of a staged mask, which starts at 0 (R28, R31, R37 to R39). -/
def putBit {n : Nat} (m : BitVec n) (i : Nat) (b : Bool) : BitVec n :=
  if b then m ||| BitVec.twoPow n i else m

/-- The number of 1 bits of a 64-bit map. -/
def countBits (m : BitVec 64) : Nat := ((List.range 64).filter fun i => m.getLsbD i).length

/-! ### Lifecycle (R130, R132) -/

/-- A command starts (R130): CMD is latched, ARG and POS are snapshotted, STATUS becomes BUSY = 1 and all else 0, in one step.
`command` is what the word decodes to. -/
def startCommand (w : Word) (command : Option Instr) (s : State) : State :=
  { s with
    cmd := w
    status := statusStart
    run := some
      { cmd := w
        arg := s.arg
        posStart := s.pos
        pos := s.pos.toNat
        staged := Results.zero
        reqs := 0
        phase := .check command
        changed := []
        lenChanged := false } }

/-- Commit (R12, R132): the results and the working position become visible in one step. -/
def commitRun (s : State) (r : Run) : State :=
  { s with
    pos := BitVec.ofNat 32 r.pos
    status := statusCommit s.status
    results := r.staged
    run := none }

/-- POS keeps POS_start on an InvalidCommand abort and on every CABAC_BLOCK abort (R132). -/
def keepsPos (e : ErrorKind) (r : Run) : Bool := e = .invalidCommand || r.isCabac

/-- A value of the range `[lo, max(lo, bslen)]`, drawn (R132, I1; log entry 1). -/
def drawPos (n lo bslen : Nat) : Nat := lo + Config.freePos n % (max lo bslen + 1 - lo)

/-- TAKING AN ERROR (R132, R133): the abort of the running command. No result register changes; STATUS holds the error's code;
POS keeps POS_start or takes a draw from its range. -/
def abortRun (e : ErrorKind) (s : State) (r : Run) : State :=
  if keepsPos e r then
    { s with
      pos := r.posStart
      status := statusAbort e s.status
      run := none }
  else
    { s with
      pos := BitVec.ofNat 32 (drawPos s.draws r.posStart.toNat s.bits.length)
      status := statusAbort e s.status
      run := none
      draws := s.draws + 1 }

/-- A dropped write (R21): DROPPED is set and nothing else changes. -/
def dropWrite (s : State) : State := { s with status := statusDrop s.status }

/-- Reset (R145): the registers take their reset values (R46), the internal state is discarded, BitSource and Engine are not
touched. -/
def resetCore (s : State) : State :=
  { s with
    cmd := 0
    arg := 0
    pos := 0
    status := statusReset
    results := Results.unspecified s.draws
    run := none
    draws := s.draws + 1 }

/-! ### The bitstream (R9, R47, R48, R58) -/

/-- What a `ReadBit` of the running command finds at its working position, `none` for the end of the stream, and how many draws
it takes. A position that was changed since the command started, or any position after BSLEN was, is a draw (R58, I4).
No BSLEN has a bit at 2^32-1 or above (R48). -/
def bitAt (s : State) (r : Run) : Option Bool × Nat :=
  if Config.maxBsLen ≤ r.pos then (none, 0)
  else if r.lenChanged then (Config.freeBitOrEnd s.draws, 1)
  else if r.changed.contains r.pos then (some (Config.freeBit s.draws), 1)
  else (s.bits[r.pos]?, 0)

/-- The bitstream is changed (R58). A running command keeps a record of the positions from POS_start on that changed, and of
a change of BSLEN. -/
def changeBits (bs : List Bool) (s : State) : State :=
  { s with
    bits := bs
    run := s.run.map fun r =>
      { r with
        changed := r.changed
          ++ (List.range bs.length).filter fun p => decide (r.posStart.toNat ≤ p) && bs[p]? != s.bits[p]?
        lenChanged := r.lenChanged || bs.length != s.bits.length } }

/-- `CountLeadingZeros` (R9): the count after one more zero bit, or `none` where it exceeds LZ_MAX (R94). -/
def countZero (zeros : Nat) : Option Nat :=
  if zeros + 1 > Config.lzMax then none else some (zeros + 1)

/-- `ReadBits` (R9): the value after one more bit, the first bit the most significant. -/
def shiftIn (acc : Nat) (b : Bool) : Nat := 2 * acc + b.toNat

/-! ### Codes (R11) -/

/-- What `ReadVLC` finds after a bit. -/
inductive VlcRead (α : Type) where
  /-- The bits are a code, with this value. -/
  | found (v : α)
  /-- The bits begin some code. -/
  | more
  /-- The bits begin no code. -/
  | bad
deriving DecidableEq, Repr

/-- `ReadVLC(T)` after the bits `acc` (R11): "is a code" is tested before "begins no code" (R134). -/
def readVlc {α : Type} (t : Tables.Vlc α) (acc : List Bool) : VlcRead α :=
  match t.find? fun e => e.1 == acc with
  | some e => .found e.2
  | none => if t.any fun e => acc.isPrefixOf e.1 then .more else .bad

end Sys2Proof.Machine
end

