-- ==== Sys2Proof/Machine/Cabac.lean ====
section
/-! DEFINITION. Machine/Cabac.lean: the CABAC residual block (R115 to R127), phase by phase. `sig[j]` and `last[j]` are the staged
SIGMAP and LASTMAP bits (R120). -/

namespace Sys2Proof.Machine

/-! ### Requests (R116) -/

/-- The request a phase issues (R116, R117, R119, R121 to R123). -/
def requestOf (p : BinPhase) (r : Run) : Request :=
  let b := r.block
  match p with
  | .codedBlockFlag => .decision ⟨.cbf, b.blockType, b.maxc, b.cat, 0, 0, 0, 0⟩
  | .significant i _ => .decision ⟨.sig, b.blockType, b.maxc, b.cat, i, 0, 0, 0⟩
  | .last i _ => .decision ⟨.last, b.blockType, b.maxc, b.cat, i, 0, 0, 0⟩
  | .absUnary i bin g e => .decision ⟨.abs, b.blockType, b.maxc, b.cat, i, bin, g, e⟩
  | .sufUnary _ _ _ _ _ => .bypass
  | .sufBits _ _ _ _ _ => .bypass
  | .sign _ _ _ _ => .bypass

/-! ### Commit (R125) -/

/-- The end of a CABAC_BLOCK: TOTALCOEFF is the number of significant positions and REQS the number of requests issued (R23, R30,
R125). BITS stays 0 (R29). -/
def finishCabac (r : Run) : Run :=
  (r.stage fun S =>
    { S with totalcoeff := BitVec.ofNat 32 (countBits S.sigmap), reqs := BitVec.ofNat 32 r.reqs }).goto .commit

/-! ### Levels and signs (R121 to R124) -/

/-- The highest significant position below `n` and not below `start` (R124: positions with `sig = 0` issue no request). -/
def nextSignificant (sig : BitVec 64) (start : Nat) : Nat → Option Nat
  | 0 => none
  | n + 1 => if n < start then none else if sig.getLsbD n then some n else nextSignificant sig start n

/-- The next level, of the highest significant position below `n`, or the end of the block (R115, R124). -/
def nextCoef (n numGt1 numEq1 : Nat) (r : Run) : Run :=
  match nextSignificant r.staged.sigmap r.block.start n with
  | some i => r.goto (.bin (.absUnary i 0 numGt1 numEq1))
  | none => finishCabac r

/-- The sign bin of position `i` (R123), then the counters (R124). -/
def afterSign (i v numGt1 numEq1 : Nat) (b : Bool) (r : Run) : Run :=
  nextCoef i (if v = 0 then numGt1 else numGt1 + 1) (if v = 0 then numEq1 + 1 else numEq1)
    (r.stage fun S =>
      { S with
        abslm1 := S.abslm1.setIfInBounds i (BitVec.ofNat 32 v)
        signmap := putBit S.signmap i b
        coef := S.coef.setIfInBounds i (BitVec.ofInt 32 (((v : Int) + 1) * (1 - 2 * (b.toNat : Int)))) })

/-- One ABS bin (R121): a 0 bin ends the value, the 14th 1 bin goes on with the suffix. -/
def afterAbsUnary (i bin numGt1 numEq1 : Nat) (b : Bool) (r : Run) : Run :=
  if b then
    if bin + 1 < Config.absCutOff then r.goto (.bin (.absUnary i (bin + 1) numGt1 numEq1))
    else r.goto (.bin (.sufUnary i 0 0 numGt1 numEq1))
  else r.goto (.bin (.sign i bin numGt1 numEq1))

/-- One bin of the suffix's unary run (R122, first loop): the 30th consecutive 1 raises UnboundedLoop. -/
def afterSufUnary (i k suf numGt1 numEq1 : Nat) (b : Bool) (r : Run) : Run :=
  if b then
    if k + 1 > Config.cabacKMax then r.raise .unboundedLoop
    else r.goto (.bin (.sufUnary i (k + 1) (suf + 2 ^ k) numGt1 numEq1))
  else if k = 0 then r.goto (.bin (.sign i (Config.absCutOff + suf) numGt1 numEq1))
  else r.goto (.bin (.sufBits i k suf numGt1 numEq1))

/-- One of the suffix's `k` bits (R122, second loop). -/
def afterSufBits (i k suf numGt1 numEq1 : Nat) (b : Bool) (r : Run) : Run :=
  let suf1 := suf + b.toNat * 2 ^ (k - 1)
  if k ≤ 1 then r.goto (.bin (.sign i (Config.absCutOff + suf1) numGt1 numEq1))
  else r.goto (.bin (.sufBits i (k - 1) suf1 numGt1 numEq1))

/-! ### Significance map (R119, R120) -/

/-- The final position: significant and last, inferred where it was not requested (R120). -/
def finalPosition (fin : Nat) (r : Run) : Run :=
  nextCoef (fin + 1) 0 0
    (r.stage fun S =>
      { S with
        sigmap := putBit S.sigmap fin true
        lastmap := putBit S.lastmap fin true
        lastpos := BitVec.ofNat 32 fin })

/-- The head of the scan loop at position `i` (R119): `while i < numCoeff - 1`. -/
def scanFrom (i numCoeff : Nat) (r : Run) : Run :=
  if i + 1 < numCoeff then r.goto (.bin (.significant i numCoeff)) else finalPosition (numCoeff - 1) r

/-- The significance bin of position `i` (R119). -/
def afterSignificant (i numCoeff : Nat) (b : Bool) (r : Run) : Run :=
  if b then (r.stage fun S => { S with sigmap := putBit S.sigmap i true }).goto (.bin (.last i numCoeff))
  else scanFrom (i + 1) numCoeff r

/-- The last-significance bin of position `i` (R119): a 1 shrinks the active range. -/
def afterLast (i numCoeff : Nat) (b : Bool) (r : Run) : Run :=
  if b then scanFrom (i + 1) (i + 1) (r.stage fun S => { S with lastmap := putBit S.lastmap i true })
  else scanFrom (i + 1) numCoeff r

/-! ### coded_block_flag (R117, R118) -/

/-- The flag is known: 0 commits the all-zero block (R118), 1 goes on with the significance map (R119). -/
def withCbf (b : Bool) (r : Run) : Run :=
  let r1 := r.stage fun S => { S with cbf := BitVec.ofNat 32 b.toNat }
  if b then scanFrom r1.block.start (r1.block.stop + 1) r1 else finishCabac r1

/-- The condition that skips the CBF request (R117). -/
def cbfSkipped (rule : CbfRule) (b : BlockAddress) : Bool :=
  match rule with
  | .doc => decide (b.maxc = 64 ∧ b.cat = 3)
  | .h264 => decide (b.maxc = 64 ∧ b.cat ≠ 3)

/-- CABAC_BLOCK after its legality check (R115, R117): a skipped flag is 1, with no request. -/
def beginCabac (rule : CbfRule) (r : Run) : Run :=
  if cbfSkipped rule r.block then withCbf true r else r.goto (.bin .codedBlockFlag)

end Sys2Proof.Machine
end

