-- ==== Sys2Proof/Machine/Cavlc.lean ====
section
/-! DEFINITION. Machine/Cavlc.lean: the CAVLC residual block (R95 to R114), phase by phase. TC and T1 are the staged TOTALCOEFF and
TRAILINGONES (R95), `level[i]` and `run[i]` the staged LEVEL[i] and RUN[i] (R112). -/

namespace Sys2Proof.Machine

/-- TC of the running command. -/
def Run.tc (r : Run) : Nat := r.staged.totalcoeff.toNat

/-- T1 of the running command. -/
def Run.t1 (r : Run) : Nat := r.staged.trailingones.toNat

/-! ### Levels (R99 to R105) -/

/-- The first suffixLength (R99). -/
def initialSuffixLength (tc t1 : Nat) : Nat := if tc > 10 ∧ t1 < 3 then 1 else 0

/-- levelSuffixSize (R81, R102). -/
def levelSuffixSize (p suffixLength : Nat) : Nat :=
  if p = 14 ∧ suffixLength = 0 then 4
  else if p ≥ 15 then p - 3
  else suffixLength

/-- levelCode (R103). `first` says that this is the first non-trailing-one level and T1 < 3. The result is an Int, since one
addition of R103 subtracts 4096. -/
def levelCode (p suffixLength suf : Nat) (first : Bool) : Int :=
  ((min 15 p : Nat) : Int) * 2 ^ suffixLength + suf
    + (if p ≥ 15 ∧ suffixLength = 0 then 15 else 0)
    + (if p ≥ 16 then 2 ^ (p - 3) - 4096 else 0)
    + (if first then 2 else 0)

/-- The signed level of a levelCode, by parity (R104); `>> 1` is the floor of the half (R8). -/
def levelOf (code : Int) : Int :=
  if code % 2 = 0 then (code + 2) / 2 else (-code - 1) / 2

/-- suffixLength after a non-trailing-one level (R105). -/
def nextSuffixLength (suffixLength : Nat) (level : Int) : Nat :=
  let sl := if suffixLength = 0 then 1 else suffixLength
  if level.natAbs > 3 * 2 ^ (sl - 1) ∧ sl < 6 then sl + 1 else sl

/-! ### Runs and placement (R109 to R112) -/

/-- The next run_before is read while zeros are left and a coefficient other than the last remains. Else the runs of the
coefficients before the last are 0, which `S` already holds, and the last takes the zeros left (R109). -/
def nextRun (i zerosLeft : Nat) (r : Run) : Run :=
  if i + 1 < r.tc ∧ 0 < zerosLeft then r.goto (.bit (.runBefore i zerosLeft []))
  else
    (r.stage fun S => { S with run := S.run.setIfInBounds (r.tc - 1) (BitVec.ofNat 32 zerosLeft) }).goto
      (.place r.tc (-1))

/-- total_zeros is known (R107); `TZ > count - TC` is refused (R108). -/
def withTotalZeros (tz : Nat) (r : Run) : Run :=
  if tz > r.count - r.tc then r.raise .malformedSyntax
  else nextRun 0 tz (r.stage fun S => { S with totalzeros := BitVec.ofNat 32 tz })

/-- One bit of a run_before (R109, R110). -/
def afterRunBefore (i zerosLeft : Nat) (code : List Bool) (b : Bool) (r : Run) : Run :=
  match readVlc (Tables.runBefore zerosLeft) (code ++ [b]) with
  | .more => r.goto (.bit (.runBefore i zerosLeft (code ++ [b])))
  | .bad => r.raise .malformedSyntax
  | .found rb =>
    let r1 := r.stage fun S =>
      { S with
        rbmask := putBit S.rbmask i true
        runbefore := S.runbefore.setIfInBounds i (BitVec.ofNat 32 rb) }
    if rb > zerosLeft then r1.raise .malformedSyntax
    else
      nextRun (i + 1) (zerosLeft - rb)
        (r1.stage fun S => { S with run := S.run.setIfInBounds i (BitVec.ofNat 32 rb) })

/-- One placement (R111): the coefficient `left - 1` is placed, or LASTPOS is set and the command commits (R112). -/
def placeStep (left : Nat) (coeffNum : Int) (r : Run) : Run :=
  match left with
  | 0 =>
    (r.stage fun S => { S with lastpos := BitVec.ofInt 32 (r.block.start + coeffNum) }).finishBits
  | i + 1 =>
    let c := coeffNum + (r.staged.run.getD i 0).toNat + 1
    (r.stage fun S =>
      { S with coef := S.coef.setIfInBounds (r.block.start + c).toNat (S.level.getD i 0) }).goto (.place i c)

/-- One bit of total_zeros (R107). -/
def afterTotalZeros (code : List Bool) (b : Bool) (r : Run) : Run :=
  match readVlc (Tables.totalZeros r.block.maxc r.tc) (code ++ [b]) with
  | .more => r.goto (.bit (.totalZeros (code ++ [b])))
  | .bad => r.raise .malformedSyntax
  | .found tz => withTotalZeros tz r

/-! ### The order of the fields (R95, R100, R107) -/

/-- Coefficient `i` is decoded next: a sign for `i < T1`, a level code for `T1 <= i < TC`; after the last, total_zeros if the
block has room for zeros, else none (R100, R107). -/
def nextLevel (i suffixLength : Nat) (r : Run) : Run :=
  if i < r.tc then
    if i < r.t1 then r.goto (.bit (.trailingOne i suffixLength))
    else r.goto (.bit (.levelZeros i suffixLength 0))
  else if r.tc < r.count then r.goto (.bit (.totalZeros []))
  else withTotalZeros 0 r

/-- One trailing-ones sign (R80, R100). -/
def afterTrailingOne (i suffixLength : Nat) (b : Bool) (r : Run) : Run :=
  nextLevel (i + 1) suffixLength
    (r.stage fun S =>
      { S with
        t1signs := putBit S.t1signs i b
        level := S.level.setIfInBounds i (BitVec.ofInt 32 (1 - 2 * (b.toNat : Int))) })

/-- level_prefix and level_suffix of coefficient `i` are read (R102 to R105). -/
def levelDone (i suffixLength p suf : Nat) (r : Run) : Run :=
  let level := levelOf (levelCode p suffixLength suf (decide (i = r.t1 ∧ r.t1 < 3)))
  nextLevel (i + 1) (nextSuffixLength suffixLength level)
    (r.stage fun S =>
      { S with
        levelsuffix := S.levelsuffix.setIfInBounds i (BitVec.ofNat 32 suf)
        level := S.level.setIfInBounds i (BitVec.ofInt 32 level) })

/-- One bit of level_prefix (R101); a size of 0 reads no suffix bit (R102). -/
def afterLevelZeros (i suffixLength zeros : Nat) (b : Bool) (r : Run) : Run :=
  if b then
    let r1 := r.stage fun S => { S with levelprefix := S.levelprefix.setIfInBounds i (BitVec.ofNat 32 zeros) }
    if levelSuffixSize zeros suffixLength = 0 then levelDone i suffixLength zeros 0 r1
    else r1.goto (.bit (.levelSuffix i suffixLength zeros (levelSuffixSize zeros suffixLength) 0))
  else
    match countZero zeros with
    | none => r.raise .unboundedLoop
    | some z => r.goto (.bit (.levelZeros i suffixLength z))

/-- One bit of level_suffix (R102). -/
def afterLevelSuffix (i suffixLength zeros left acc : Nat) (b : Bool) (r : Run) : Run :=
  if left ≤ 1 then levelDone i suffixLength zeros (shiftIn acc b) r
  else r.goto (.bit (.levelSuffix i suffixLength zeros (left - 1) (shiftIn acc b)))

/-- coeff_token is read (R97, R98, R99). -/
def withToken (tc t1 : Nat) (r : Run) : Run :=
  if tc > r.count then r.raise .malformedSyntax
  else
    let r1 := r.stage fun S =>
      { S with
        value := BitVec.ofNat 32 (tc * 4 + t1)
        totalcoeff := BitVec.ofNat 32 tc
        trailingones := BitVec.ofNat 32 t1 }
    if tc = 0 then r1.finishBits else nextLevel 0 (initialSuffixLength tc t1) r1

/-- The coeff_token table of the running command's nC (R77, R96). -/
def Run.tokenTable (r : Run) : Tables.Vlc (Nat × Nat) :=
  match Tables.tableSelect r.nC with
  | some c => Tables.coeffToken c
  | none => []

/-- One bit of coeff_token (R97). -/
def afterCoeffToken (code : List Bool) (b : Bool) (r : Run) : Run :=
  match readVlc r.tokenTable (code ++ [b]) with
  | .more => r.goto (.bit (.coeffToken (code ++ [b])))
  | .bad => r.raise .malformedSyntax
  | .found (tc, t1) => withToken tc t1 r

/-- CAVLC_BLOCK after its legality check (R95, R96). -/
def beginCavlc (r : Run) : Run := r.goto (.bit (.coeffToken []))

end Sys2Proof.Machine
end

