-- ==== Sys2Proof/Machine/ExpGolomb.lean ====
section
/-! DEFINITION. Machine/ExpGolomb.lean: the Exp-Golomb reads (R89 to R94), phase by phase. -/

namespace Sys2Proof.Machine

/-- READ_UE's value of `k` (R90). -/
def valueUe (k : Nat) : Word := BitVec.ofNat 32 k

/-- The signed value of `k` (R74, R91): an odd `k` gives `(k+1)/2`, an even one `-(k/2)`. -/
def seMap (k : Nat) : Int := if k % 2 = 1 then (k + 1) / 2 else -(k / 2)

/-- READ_SE's value of `k` (R91). -/
def valueSe (k : Nat) : Word := BitVec.ofInt 32 (seMap k)

/-- READ_TE's value of `k` with range above 1 (R92): "otherwise standard UE", not checked against the range. -/
def valueTe (k : Nat) : Word := BitVec.ofNat 32 k

/-- READ_CE's value of `k` (R93). -/
def valueCe (k : Nat) : Word := BitVec.ofNat 32 k

/-- VALUE for the code number `k` (R22). -/
def egValue : EgKind → Nat → Word
  | .ue, k => valueUe k
  | .se, k => valueSe k
  | .te, k => valueTe k
  | .ce, k => valueCe k

/-- The code is read: `S.VALUE` and `S.BITS` are staged, then commit (R89). `k = 2^L - 1 + suffix` (R73). -/
def egDone (kind : EgKind) (zeros suffix : Nat) (r : Run) : Run :=
  (r.stage fun S => { S with value := egValue kind (2 ^ zeros - 1 + suffix) }).finishBits

/-- One bit of the leading zeros (R9, R94). `ReadBits(0)` reads no bit. -/
def afterEgZeros (kind : EgKind) (zeros : Nat) (b : Bool) (r : Run) : Run :=
  if b then
    if zeros = 0 then egDone kind 0 0 r else r.goto (.bit (.egSuffix kind zeros zeros 0))
  else
    match countZero zeros with
    | none => r.raise .unboundedLoop
    | some z => r.goto (.bit (.egZeros kind z))

/-- One bit of the suffix (R9, R73). -/
def afterEgSuffix (kind : EgKind) (zeros left acc : Nat) (b : Bool) (r : Run) : Run :=
  if left ≤ 1 then egDone kind zeros (shiftIn acc b) r
  else r.goto (.bit (.egSuffix kind zeros (left - 1) (shiftIn acc b)))

/-- The one bit of TE(v) with range 1: the inverted bit (R75, R92). -/
def afterTeBit (b : Bool) (r : Run) : Run :=
  (r.stage fun S => { S with value := BitVec.ofNat 32 (1 - b.toNat) }).finishBits

/-- READ_UE after its legality check (R90). -/
def beginReadUe (r : Run) : Run := r.goto (.bit (.egZeros .ue 0))

/-- READ_SE after its legality check (R91). -/
def beginReadSe (r : Run) : Run := r.goto (.bit (.egZeros .se 0))

/-- READ_TE after its legality check (R92), which has refused range 0. -/
def beginReadTe (r : Run) : Run :=
  if r.range = 1 then r.goto (.bit .teBit) else r.goto (.bit (.egZeros .te 0))

/-- READ_CE after its legality check (R93). -/
def beginReadCe (r : Run) : Run := r.goto (.bit (.egZeros .ce 0))

end Sys2Proof.Machine
end

