-- ==== Sys2Proof/Machine/CoreStep.lean ====
section
/-! DEFINITION. Machine/CoreStep.lean: one Core step (R131) and a command taken from its start to its end. -/

namespace Sys2Proof.Machine

/-- A legal command enters its first phase (R130, R131). -/
def beginCommand (rule : CbfRule) (i : Instr) (r : Run) : Run :=
  match i with
  | .readUe => beginReadUe r
  | .readSe => beginReadSe r
  | .readTe => beginReadTe r
  | .readCe => beginReadCe r
  | .cavlcBlock _ _ _ _ => beginCavlc r
  | .cabacBlock _ _ _ _ _ => beginCabac rule r

/-- Legality is decided before any bit is read or request issued (R68, R69, R130). -/
def checkCommand (rule : CbfRule) (command : Option Instr) (r : Run) : Run :=
  match command with
  | none => r.raise .invalidCommand
  | some i => if legal i r.arg then beginCommand rule i r else r.raise .invalidCommand

/-- The computation that follows a bit read in a phase. -/
def afterBit (p : BitPhase) (b : Bool) (r : Run) : Run :=
  match p with
  | .egZeros kind zeros => afterEgZeros kind zeros b r
  | .egSuffix kind zeros left acc => afterEgSuffix kind zeros left acc b r
  | .teBit => afterTeBit b r
  | .coeffToken code => afterCoeffToken code b r
  | .trailingOne i sl => afterTrailingOne i sl b r
  | .levelZeros i sl zeros => afterLevelZeros i sl zeros b r
  | .levelSuffix i sl zeros left acc => afterLevelSuffix i sl zeros left acc b r
  | .totalZeros code => afterTotalZeros code b r
  | .runBefore i zl code => afterRunBefore i zl code b r

/-- The computation that follows a bin answered in a phase. -/
def afterBin (p : BinPhase) (b : Bool) (r : Run) : Run :=
  match p with
  | .codedBlockFlag => withCbf b r
  | .significant i n => afterSignificant i n b r
  | .last i n => afterLast i n b r
  | .absUnary i bin g e => afterAbsUnary i bin g e b r
  | .sufUnary i k suf g e => afterSufUnary i k suf g e b r
  | .sufBits i k suf g e => afterSufBits i k suf g e b r
  | .sign i v g e => afterSign i v g e b r

/-- A Core step that reads one bit (R9, R131): past the end it raises StreamExhausted, else the working position advances. -/
def bitStep (p : BitPhase) (s : State) (r : Run) : State :=
  match bitAt s r with
  | (none, d) => { s with draws := s.draws + d, run := some (r.raise .streamExhausted) }
  | (some b, d) => { s with draws := s.draws + d, run := some (afterBit p b { r with pos := r.pos + 1 }) }

/-- A Core step that issues one Engine request and receives its answer (R10, R131). With no answer it holds (R153). -/
def binStep (p : BinPhase) (s : State) (r : Run) : State :=
  match s.engine.answers with
  | [] => s
  | a :: rest =>
    { s with
      engine := ⟨rest, s.engine.requests ++ [requestOf p r]⟩
      run := some
        (match a with
          | .exhausted => Run.raise .streamExhausted { r with reqs := r.reqs + 1 }
          | .bin b => afterBin p b { r with reqs := r.reqs + 1 }) }

/-- One step of the running command (R131, R132). -/
def runStep (s : State) (r : Run) : State :=
  match r.phase with
  | .check command => { s with run := some (checkCommand s.cbfRule command r) }
  | .bit p => bitStep p s r
  | .bin p => binStep p s r
  | .place left c => { s with run := some (placeStep left c r) }
  | .commit => commitRun s r
  | .abort e => abortRun e s r

/-- One Core step; an idle Core does nothing (R143, R146). -/
def coreStep (s : State) : State :=
  match s.run with
  | none => s
  | some r => runStep s r

/-- The running command waits for an answer the Engine has not given (R131, R153). -/
def waiting (s : State) : Bool :=
  match s.run with
  | none => false
  | some r =>
    match r.phase with
    | .check _ => false
    | .bit _ => false
    | .bin _ => s.engine.answers.isEmpty
    | .place _ _ => false
    | .commit => false
    | .abort _ => false

/-- No Core step is enabled: the Core is idle or waits for the Engine. -/
def stalled (s : State) : Bool := !s.busy || waiting s

/-- Core steps, at most `n`, until the Core is idle or waits for the Engine. -/
def runCore : Nat → State → State
  | 0, s => s
  | n + 1, s => if stalled s then s else runCore n (coreStep s)

/-- A command word written to CMD, with all the Core steps of its command (R130 to R132): `command` is what it decodes to. A
write while BUSY = 1 is dropped (R21). -/
def runCommand (w : Word) (command : Option Instr) (s : State) : State :=
  if s.busy then dropWrite s else runCore Config.coreBudget (startCommand w command s)

end Sys2Proof.Machine
end

