-- ==== Sys2Proof/Machine/Commands.lean ====
section
/-! DEFINITION. Machine/Commands.lean: the meaning of each command, from its start to its commit or abort. A command that finds the
Core busy is dropped (R21), one that waits for the Engine stays where it waits (R153). What a command does in between
stands in ExpGolomb.lean, Cavlc.lean and Cabac.lean. -/

namespace Sys2Proof.Machine

/-- READ_UE (R90). -/
def execReadUe (s : State) : Host.Outcome State Fault Refusal :=
  .next (runCommand (encode .readUe) (some .readUe) s)

/-- READ_SE (R91). -/
def execReadSe (s : State) : Host.Outcome State Fault Refusal :=
  .next (runCommand (encode .readSe) (some .readSe) s)

/-- READ_TE (R92). -/
def execReadTe (s : State) : Host.Outcome State Fault Refusal :=
  .next (runCommand (encode .readTe) (some .readTe) s)

/-- READ_CE (R93). -/
def execReadCe (s : State) : Host.Outcome State Fault Refusal :=
  .next (runCommand (encode .readCe) (some .readCe) s)

/-- CAVLC_BLOCK (R95 to R114). -/
def execCavlcBlock (start stop : BitVec 6) (maxc : BitVec 3) (btype : BitVec 5) (s : State) :
    Host.Outcome State Fault Refusal :=
  .next (runCommand (encode (.cavlcBlock start stop maxc btype)) (some (.cavlcBlock start stop maxc btype)) s)

/-- CABAC_BLOCK (R115 to R127). -/
def execCabacBlock (start stop : BitVec 6) (maxc : BitVec 3) (btype : BitVec 5) (cat : BitVec 2) (s : State) :
    Host.Outcome State Fault Refusal :=
  .next (runCommand (encode (.cabacBlock start stop maxc btype cat)) (some (.cabacBlock start stop maxc btype cat)) s)

end Sys2Proof.Machine
end

