-- ==== Sys2Proof/Machine/Dispatch.lean ====
section
/-! DEFINITION. Machine/Dispatch.lean: one arm per command. -/

namespace Sys2Proof.Machine

def exec (i : Instr) (s : State) : Host.Outcome State Fault Refusal :=
  match i with
  | .readUe => Sys2Proof.Machine.execReadUe s
  | .readSe => Sys2Proof.Machine.execReadSe s
  | .readTe => Sys2Proof.Machine.execReadTe s
  | .readCe => Sys2Proof.Machine.execReadCe s
  | .cavlcBlock start stop maxc btype => Sys2Proof.Machine.execCavlcBlock start stop maxc btype s
  | .cabacBlock start stop maxc btype cat => Sys2Proof.Machine.execCabacBlock start stop maxc btype cat s

end Sys2Proof.Machine
end

