-- ==== Sys2Proof/Machine/Registers.lean ====
section
/-! DEFINITION. Machine/Registers.lean: the register space (R13, R47, R49 to R55): what a Host read returns and what a Host write
does. -/

namespace Sys2Proof.Machine

/-- A Host access the window supports (R49, R50): 32 bits at a multiple of 4 below 0x400. -/
def supportedAccess (offset width : Nat) : Bool := decide (offset < 0x400 ∧ offset % 4 = 0 ∧ width = 32)

/-- The result register, or the reserved slot, at a byte offset from 0x010 on (R13, R42). -/
def resultSlot (offset : Nat) (S : Results) : Word :=
  if offset = 0x010 then S.value
  else if offset = 0x014 then S.totalcoeff
  else if offset = 0x018 then S.trailingones
  else if offset = 0x01C then S.totalzeros
  else if offset = 0x020 then S.cbf
  else if offset = 0x024 then S.lastpos
  else if offset = 0x028 then S.t1signs
  else if offset = 0x02C then S.bits
  else if offset = 0x030 then S.reqs
  else if offset = 0x034 then S.rbmask
  else if offset < 0x040 then 0
  else if offset < 0x080 then S.level.getD ((offset - 0x040) / 4) 0
  else if offset < 0x0C0 then S.run.getD ((offset - 0x080) / 4) 0
  else if offset < 0x100 then S.levelprefix.getD ((offset - 0x0C0) / 4) 0
  else if offset < 0x140 then S.levelsuffix.getD ((offset - 0x100) / 4) 0
  else if offset < 0x180 then S.runbefore.getD ((offset - 0x140) / 4) 0
  else if offset = 0x180 then S.sigmap.extractLsb' 0 32
  else if offset = 0x184 then S.sigmap.extractLsb' 32 32
  else if offset = 0x188 then S.lastmap.extractLsb' 0 32
  else if offset = 0x18C then S.lastmap.extractLsb' 32 32
  else if offset = 0x190 then S.signmap.extractLsb' 0 32
  else if offset = 0x194 then S.signmap.extractLsb' 32 32
  else if offset < 0x200 then 0
  else if offset < 0x300 then S.abslm1.getD ((offset - 0x200) / 4) 0
  else S.coef.getD ((offset - 0x300) / 4) 0

/-- What a Host read of a slot returns (R13, R54); while a command runs, what the slot held before it (R60). -/
def readSlot (offset : Nat) (s : State) : Word :=
  if offset = 0x000 then s.cmd
  else if offset = 0x004 then s.arg
  else if offset = 0x008 then s.pos
  else if offset = 0x00C then statusWord s.busy s.status
  else resultSlot offset s.results

/-- A Host write of a slot (R14 to R16, R21, R55). A write to CMD while idle starts the command the word encodes; CMD, ARG and
POS drop a write while BUSY = 1; every other slot ignores writes. `command` is what the written word decodes to. -/
def writeSlot (offset : Nat) (v : Word) (s : State) : State :=
  if offset = 0x000 then
    if s.busy then dropWrite s else startCommand v (decode v).toOption s
  else if offset = 0x004 then
    if s.busy then dropWrite s else { s with arg := v }
  else if offset = 0x008 then
    if s.busy then dropWrite s else { s with pos := v }
  else s

end Sys2Proof.Machine
end

