-- ==== Sys2Proof/Machine/Agents.lean ====
section
/-! DEFINITION. Machine/Agents.lean: what each agent's step does to the machine (R5, R131), and the Host programs of R70 and R71. -/

namespace Sys2Proof.Machine

/-- A word written to CMD, with all the Core steps of its command before any other agent moves (log entry 4). A word that
decodes runs as its command's meaning; one that does not ends with InvalidCommand (R68). -/
def runWord (w : Word) (s : State) : Host.Outcome State Fault Refusal :=
  match decode w with
  | .ok i => exec i s
  | .error _ => .next (runCommand w none s)

/-! ### `wait` (R71) -/

/-- The event is a step of the Host. -/
def isHostStep (e : Event) : Bool :=
  match e with
  | .read _ _ => true
  | .write _ _ _ => true
  | .run _ => true
  | .wait => true
  | .core => false
  | .reset => false
  | .bitstream _ => false
  | .engine _ => false

/-- The first listed step of another agent than the Host, and the list without it. -/
def firstOtherStep (l : List Event) : Option (Event × List Event) :=
  match l with
  | [] => none
  | e :: rest =>
    if isHostStep e then (firstOtherStep rest).map fun p => (p.1, e :: p.2) else some (e, rest)

/-- What happens while a polling Host loops, `rest` being listed after the poll: one step of the Core, then the next poll. Where the
Core waits for the Engine, it is the first listed step of another agent than the Host, if there is one (R131, R153, R155;
log entry 18). -/
def betweenPolls (s : State) (rest : List Event) : List Event :=
  match (if waiting s then firstOtherStep rest else none) with
  | some (e, others) => e :: .wait :: others
  | none => .core :: .wait :: rest

/-- One poll of `wait` (R71): STATUS is read, and while the value read has bit 0 set, the Host loops. -/
def pollStatus (s : State) : State :=
  { s with
    reads := s.reads ++ [readSlot 0x00C s]
    inbox := if (readSlot 0x00C s).getLsbD 0 then betweenPolls s s.inbox else s.inbox }

/-- One agent's step. An access the window does not support has no step (R50), nor has a bitstream longer than BSLEN can be
(R48). -/
def takeEvent (e : Event) (s : State) : Host.Outcome State Fault Refusal :=
  match e with
  | .read offset width =>
    if supportedAccess offset width then .next { s with reads := s.reads ++ [readSlot offset s] }
    else .refused (.unsupportedAccess offset width)
  | .write offset width v =>
    if supportedAccess offset width then .next (writeSlot offset v s)
    else .refused (.unsupportedAccess offset width)
  | .run w => runWord w s
  | .wait => .next (pollStatus s)
  | .core => .next (coreStep s)
  | .reset => .next (resetCore s)
  | .bitstream bs =>
    if bs.length ≤ Config.maxBsLen then .next (changeBits bs s) else .refused (.bitstreamTooLong bs.length)
  | .engine answers => .next { s with engine := ⟨answers, s.engine.requests⟩ }

/-- The next step: that of the agent the inbox lists first; with nothing listed, the Core's. -/
def nextStep (s : State) : Host.Outcome State Fault Refusal :=
  match s.inbox with
  | [] => .next (coreStep s)
  | e :: rest => takeEvent e { s with inbox := rest }

/-! ### Host programs (R70, R71) -/

/-- The MAXC code of a coefficient count (R65, R70). -/
def maxcCode (maxc : Nat) : Option (BitVec 3) :=
  match maxc with
  | 4 => some 0
  | 8 => some 1
  | 15 => some 2
  | 16 => some 3
  | 64 => some 4
  | _ => none

/-- `W <reg>, <value>` at a byte offset (R70). -/
def hostWrite (offset : Nat) (v : Word) : Event := .write offset 32 v

/-- `R <reg>` at a byte offset (R70). -/
def hostRead (offset : Nat) : Event := .read offset 32

/-- `setpos p` (R71). -/
def setpos (p : Word) : List Event := [hostWrite 0x008 p]

/-- `wait` (R71). -/
def waitIdle : List Event := [.wait]

/-- `run c` (R71): ARG is written if `c` has `arg=`, then CMD, then `wait`. -/
def runProgram (c : Instr) (arg : Option Word) : List Event :=
  (match arg with
    | some a => [hostWrite 0x004 a]
    | none => []) ++ hostWrite 0x000 (encode c) :: waitIdle

/-- `cavlc_4x4 arg=n` (R71). -/
def cavlc4x4 (n : Word) : List Event := runProgram (.cavlcBlock 0 15 3 0) (some n)

/-- `cavlc_ac arg=n` (R71). -/
def cavlcAc (n : Word) : List Event := runProgram (.cavlcBlock 0 14 2 0) (some n)

/-- `cavlc_cdc420` (R71). -/
def cavlcCdc420 : List Event := runProgram (.cavlcBlock 0 3 0 0) (some (BitVec.ofInt 32 (-1)))

/-- `cavlc_cdc422` (R71). -/
def cavlcCdc422 : List Event := runProgram (.cavlcBlock 0 7 1 0) (some (BitVec.ofInt 32 (-2)))

/-- `read_bit_inv` (R71). -/
def readBitInv : List Event := runProgram .readTe (some 1)

end Sys2Proof.Machine
end

