-- ==== Sys2Proof/Machine/Step.lean ====
section
/-! DEFINITION. Machine/Step.lean: one step of the machine, and where the next command comes from. -/

namespace Sys2Proof.Machine

/-- One step: the next agent's (R131). -/
def step (s : State) : Host.Outcome State Fault Refusal := nextStep s

/-- The machine with an opcode-table word as the Host's next command: CDN-RED fetches no instruction (R57), its Host writes one to
CMD. The Core is idle, since a write while BUSY = 1 is dropped (R21; log entry 6). -/
def State.withFetchWord (s : State) (nbits w : Nat) : State :=
  { s with run := none, inbox := .run (tableWord nbits w) :: s.inbox }

end Sys2Proof.Machine
end

