-- ==== Sys2Proof/Safety.lean ====
section
/-! DEFINITION. Safety.lean: what counts as a safe run, in the terms the statements use. The invariant every step keeps; the states a
command leaves; and the syntax a decoded block has (the fields of a CAVLC block as bits, the bins of a CABAC block), with
the results the spec gives for it. -/

namespace Sys2Proof.Machine

/-! ### The invariant -/

/-- STATUS.ERR holds 0 or a code this block writes (R20, R128): never 4, 6 or 7. -/
def errLegal (e : BitVec 3) : Prop := e = 0 ∨ e = 1 ∨ e = 2 ∨ e = 3 ∨ e = 5

/-- A running command: VALID and ERR are clear (R19, R20), its snapshots are the registers, which drop every write (R21), and its
working position has not passed the end of a stream whose BSLEN is unchanged (R16). Two clauses are the model's own: that
the record of changed positions lies inside the stream is bookkeeping of log entry 3, and that the position stays at
2^32-1 or below also after BSLEN changed rests on log entry 14. -/
def RunInv (s : State) (r : Run) : Prop :=
  s.status.valid = false ∧ s.status.err = 0
    ∧ r.cmd = s.cmd ∧ r.arg = s.arg ∧ r.posStart = s.pos
    ∧ s.pos.toNat ≤ r.pos ∧ r.pos ≤ max s.pos.toNat Config.maxBsLen
    ∧ (r.lenChanged = false →
        r.pos ≤ max s.pos.toNat s.bits.length ∧ ∀ p, r.changed.contains p = true → p < s.bits.length)
    ∧ r.phase ≠ .abort .unsupportedPath

/-- The machine's invariant: BSLEN is in its range (R48), ERR is a legal code (R128), VALID = 1 only with ERR = 0 (R132), and a
running command is as `RunInv` says, the model's own clauses (log entries 3 and 14) among it. -/
def Inv (s : State) : Prop :=
  s.bits.length ≤ Config.maxBsLen ∧ errLegal s.status.err ∧ (s.status.valid = true → s.status.err = 0)
    ∧ ∀ r, s.run = some r → RunInv s r

/-! ### What a command leaves -/

/-- The bitstream from POS on begins with these bits. -/
abbrev State.streamHas (s : State) (l : List Bool) : Prop := l <+: s.bits.drop s.pos.toNat

/-- BSLEN is in its range (R48). -/
abbrev State.streamFits (s : State) : Prop := s.bits.length ≤ Config.maxBsLen

/-- The number whose bits, most significant first, are these (R9). -/
def bitsValue (l : List Bool) : Nat := l.foldl (fun a b => 2 * a + b.toNat) 0

/-- `s` after the command `w` has read `n` bits and committed the results `S` (R132). -/
def committed (w : Word) (S : Results) (n : Nat) (s : State) : State :=
  { s with
    cmd := w
    pos := BitVec.ofNat 32 (s.pos.toNat + n)
    status := ⟨true, 0, false⟩
    results := S
    run := none }

/-- `s` after the command `w` has aborted with `e` and POS has kept its value (R132). -/
def abortedKeepingPos (w : Word) (e : ErrorKind) (s : State) : State :=
  { s with cmd := w, status := ⟨false, errorCode e, false⟩, run := none }

/-- `t` is `s` after the command `w` has aborted with `e` and POS took some value of its range (R132). -/
def AbortedRead (w : Word) (e : ErrorKind) (s t : State) : Prop :=
  t = { abortedKeepingPos w e s with pos := t.pos, draws := t.draws }
    ∧ s.pos.toNat ≤ t.pos.toNat ∧ t.pos.toNat ≤ max s.pos.toNat s.bits.length

/-- An Exp-Golomb code (R73): `L` zeros, a 1, an `L`-bit suffix. -/
def egCode (suffix : List Bool) : List Bool := List.replicate suffix.length false ++ true :: suffix

/-- The value of the code with this suffix (R73): `2^L - 1 + suffix`. -/
def egNumber (suffix : List Bool) : Nat := 2 ^ suffix.length - 1 + bitsValue suffix

/-- A command word is illegal with this ARG: the list of R68, over the word's bits as a number. -/
def IllegalWord (w arg : Word) : Prop :=
  let n := w.toNat
  let op := n % 16
  let start := n / 2 ^ 4 % 64
  let stop := n / 2 ^ 10 % 64
  let code := n / 2 ^ 16 % 8
  let cat := n / 2 ^ 24 % 4
  let maxc := [4, 8, 15, 16, 64].getD code 0
  let nC := arg.toInt
  op = 0 ∨ 7 ≤ op
    ∨ n / 2 ^ 26 ≠ 0
    ∨ ((op = 1 ∨ op = 2 ∨ op = 3 ∨ op = 4) ∧ n / 2 ^ 4 % 2 ^ 22 ≠ 0)
    ∨ (op = 5 ∧ cat ≠ 0)
    ∨ ((op = 5 ∨ op = 6) ∧ (5 ≤ code ∨ start > stop ∨ stop + 1 > maxc))
    ∨ (op = 3 ∧ arg.toNat = 0)
    ∨ (op = 5 ∧ (maxc = 64 ∨ nC < -2 ∨ (nC = -1 ∧ maxc ≠ 4) ∨ (nC = -2 ∧ maxc ≠ 8)
        ∨ (0 ≤ nC ∧ maxc ≠ 15 ∧ maxc ≠ 16)))

/-! ### The fields of a CAVLC block (R95 to R112) -/

/-- A register array that holds these values from index 0 on, and 0 after them. -/
def wordsOf {n : Nat} (l : List Word) : Vector Word n := Vector.ofFn fun i => l.getD i.val 0

/-- A mask whose bit `i` is element `i`. -/
def maskOf (n : Nat) (l : List Bool) : BitVec n := BitVec.ofNat n (l.foldr (fun b a => b.toNat + 2 * a) 0)

/-- The fields of one CAVLC block, in the order they stand in the bitstream. -/
structure CavlcFields where
  /-- The coeff_token code and what it codes. -/
  token : List Bool
  tc : Nat
  t1 : Nat
  /-- The trailing-ones signs. -/
  signs : List Bool
  /-- level_prefix and the bits of level_suffix of each level that is no trailing one. -/
  levels : List (Nat × List Bool)
  /-- The total_zeros code ([] where none is read) and total_zeros. -/
  tzCode : List Bool
  tz : Nat
  /-- The run_before code ([] where none is read) and the run of every coefficient but the last. -/
  runs : List (List Bool × Nat)
deriving DecidableEq, Repr

/-- The signed levels that level codes give, from a suffixLength on (R102 to R105). `first` says that the first of them is the
first non-trailing-one level and T1 < 3 (R103). -/
def levelValues (suffixLength : Nat) (first : Bool) : List (Nat × List Bool) → List Int
  | [] => []
  | (p, suf) :: rest =>
    let l := levelOf (levelCode p suffixLength (bitsValue suf) first)
    l :: levelValues (nextSuffixLength suffixLength l) false rest

/-- Each level_prefix is at most LZ_MAX and each level_suffix has the size that R102 gives it. -/
def levelsOk (suffixLength : Nat) (first : Bool) : List (Nat × List Bool) → Bool
  | [] => true
  | (p, suf) :: rest =>
    decide (p ≤ Config.lzMax ∧ suf.length = levelSuffixSize p suffixLength)
      && levelsOk (nextSuffixLength suffixLength (levelOf (levelCode p suffixLength (bitsValue suf) first))) false rest

/-- The bits of level codes (R81). -/
def levelBits : List (Nat × List Bool) → List Bool
  | [] => []
  | (p, suf) :: rest => List.replicate p false ++ true :: suf ++ levelBits rest

/-- Each run is coded in the column of the zeros left, or is 0 with no code when none are left (R109, R110). -/
def runsOk (zerosLeft : Nat) : List (List Bool × Nat) → Bool
  | [] => true
  | (code, run) :: rest =>
    (if zerosLeft = 0 then decide (code = [] ∧ run = 0)
      else decide ((code, run) ∈ Tables.runBefore zerosLeft ∧ run ≤ zerosLeft))
      && runsOk (zerosLeft - run) rest

/-- The sum of the runs that are coded. -/
def CavlcFields.runSum (f : CavlcFields) : Nat := (f.runs.map Prod.snd).sum

/-- The token is one of nC's column and fits the span (R97), each trailing one has its sign (R100), and the levels listed so far have
codes (R101, R102). -/
def CavlcFields.headOk (f : CavlcFields) (nC : Int) (count : Nat) : Bool :=
  (match Tables.tableSelect nC with
    | some c => decide ((f.token, (f.tc, f.t1)) ∈ Tables.coeffToken c)
    | none => false)
    && decide (f.tc ≤ count)
    && decide (f.signs.length = f.t1)
    && levelsOk (initialSuffixLength f.tc f.t1) (decide (f.t1 < 3)) f.levels

/-- total_zeros is coded in its column, or is 0 with no code where none is read (R107), and the block has room for it (R108). -/
def CavlcFields.zerosOk (f : CavlcFields) (maxc count : Nat) : Bool :=
  (if f.tc = 0 ∨ f.tc = count then decide (f.tzCode = [] ∧ f.tz = 0)
    else decide ((f.tzCode, f.tz) ∈ Tables.totalZeros maxc f.tc))
    && decide (f.tz ≤ count - f.tc)

/-- The fields are those of a block of `maxc` coefficients with `count` positions under this nC. -/
def CavlcFields.ok (f : CavlcFields) (nC : Int) (maxc count : Nat) : Bool :=
  f.headOk nC count
    && decide (f.levels.length = f.tc - f.t1)
    && f.zerosOk maxc count
    && decide (f.runs.length = f.tc - 1)
    && runsOk f.tz f.runs

/-- The bits of the token, the signs and the levels listed so far. -/
def CavlcFields.headBits (f : CavlcFields) : List Bool := f.token ++ f.signs ++ levelBits f.levels

/-- The bits of the fields, in the order of R113. -/
def CavlcFields.bits (f : CavlcFields) : List Bool := f.headBits ++ f.tzCode ++ f.runs.flatMap Prod.fst

/-- The bits `p` are a pattern absent from the table (R11, R87): they begin no code, and no code ends inside them. -/
abbrev absentFrom {α : Type} (p : List Bool) (t : Tables.Vlc α) : Prop := ∀ e ∈ t, ¬ p <+: e.1 ∧ ¬ e.1 <+: p

/-- All TC levels, in decode order (R100 to R105). -/
def CavlcFields.allLevels (f : CavlcFields) : List Int :=
  f.signs.map (fun b => if b then -1 else 1)
    ++ levelValues (initialSuffixLength f.tc f.t1) (decide (f.t1 < 3)) f.levels

/-- All TC runs: the last coefficient absorbs the remaining zeros (R109). -/
def CavlcFields.allRuns (f : CavlcFields) : List Nat :=
  if f.tc = 0 then [] else f.runs.map Prod.snd ++ [f.tz - f.runSum]

/-- The array index of coefficient `i` (R111): coefficients `i` to TC-1 take `run + 1` positions each from `start` on. -/
def CavlcFields.index (f : CavlcFields) (start i : Nat) : Nat :=
  start + ((f.allRuns.drop i).map (· + 1)).sum - 1

/-- The coefficient at array index `j` (R111): the level placed there, or 0. -/
def CavlcFields.coefAt (f : CavlcFields) (start j : Nat) : Int :=
  match (List.range f.tc).find? fun i => f.index start i == j with
  | some i => f.allLevels.getD i 0
  | none => 0

/-- The results of the block (R22 to R36, R41, R112). -/
def CavlcFields.results (f : CavlcFields) (start : Nat) : Results :=
  { Results.zero with
    value := BitVec.ofNat 32 (f.tc * 4 + f.t1)
    totalcoeff := BitVec.ofNat 32 f.tc
    trailingones := BitVec.ofNat 32 f.t1
    totalzeros := BitVec.ofNat 32 f.tz
    lastpos := BitVec.ofNat 32 (if f.tc = 0 then 0 else f.index start 0)
    t1signs := maskOf 32 f.signs
    bits := BitVec.ofNat 32 f.bits.length
    rbmask := maskOf 32 (f.runs.map fun c => !c.1.isEmpty)
    level := wordsOf (f.allLevels.map (BitVec.ofInt 32))
    run := wordsOf (f.allRuns.map (BitVec.ofNat 32))
    levelprefix := wordsOf (List.replicate f.t1 0 ++ f.levels.map fun l => BitVec.ofNat 32 l.1)
    levelsuffix := wordsOf (List.replicate f.t1 0 ++ f.levels.map fun l => BitVec.ofNat 32 (bitsValue l.2))
    runbefore := wordsOf (f.runs.map fun c => BitVec.ofNat 32 c.2)
    coef := Vector.ofFn fun j => BitVec.ofInt 32 (f.coefAt start j.val) }

/-! ### The bins of a CABAC block (R115 to R125) -/

/-- The coefficients of a coded CABAC block from position `start` up to its final position: `none` for a position that is not
significant, `some (v, s)` for one with absLevelMinus1 `v` and sign bin `s`. -/
abbrev CabacCoefs := List (Option (Nat × Bool))

/-- `k` bits of a number, most significant first. -/
def msbBits (k n : Nat) : List Bool := (List.range k).map fun j => n.testBit (k - 1 - j)

/-- The length of the suffix's unary run (R122): the `k` with `2^k - 1 <= v - 14 < 2^(k+1) - 1`. -/
def suffixK (v : Nat) : Nat := Nat.log2 (v - 14 + 1)

/-- The bins of absLevelMinus1 = `v` (R121, R122). -/
def absBins (v : Nat) : List Bool :=
  if v < 14 then List.replicate v true ++ [false]
  else
    List.replicate 14 true ++ List.replicate (suffixK v) true ++ [false]
      ++ msbBits (suffixK v) (v - 14 + 1 - 2 ^ suffixK v)

/-- The requests that carry those bins, at position `i` of the block `b` (R116, R121, R122). -/
def absRequests (b : BlockAddress) (i v numGt1 numEq1 : Nat) : List Request :=
  (List.range (min (v + 1) 14)).map (fun n =>
      .decision ⟨.abs, b.blockType, b.maxc, b.cat, i, n, numGt1, numEq1⟩)
    ++ if v < 14 then [] else List.replicate (2 * suffixK v + 1) .bypass

/-- The significance and last-significance bins, from position `i` on (R119, R120): the final position's are inferred when it is
`stop`. -/
def scanBins (stop : Nat) : Nat → CabacCoefs → List Bool
  | _, [] => []
  | i, [_] => if i = stop then [] else [true, true]
  | i, none :: c :: rest => false :: scanBins stop (i + 1) (c :: rest)
  | i, some _ :: c :: rest => true :: false :: scanBins stop (i + 1) (c :: rest)

/-- The requests that carry those bins (R116, R119). -/
def scanRequests (b : BlockAddress) : Nat → CabacCoefs → List Request
  | _, [] => []
  | i, [_] =>
    if i = b.stop then []
    else
      [.decision ⟨.sig, b.blockType, b.maxc, b.cat, i, 0, 0, 0⟩,
        .decision ⟨.last, b.blockType, b.maxc, b.cat, i, 0, 0, 0⟩]
  | i, none :: c :: rest =>
    .decision ⟨.sig, b.blockType, b.maxc, b.cat, i, 0, 0, 0⟩ :: scanRequests b (i + 1) (c :: rest)
  | i, some _ :: c :: rest =>
    .decision ⟨.sig, b.blockType, b.maxc, b.cat, i, 0, 0, 0⟩
      :: .decision ⟨.last, b.blockType, b.maxc, b.cat, i, 0, 0, 0⟩ :: scanRequests b (i + 1) (c :: rest)

/-- The coefficients from the final position down (R124): each significant one with its position. -/
def downward (start : Nat) (cs : CabacCoefs) : List (Nat × Nat × Bool) :=
  ((List.range cs.length).filterMap fun k => (cs.getD k none).map fun c => (start + k, c.1, c.2)).reverse

/-- The level and sign bins (R121 to R123). -/
def levelBins : List (Nat × Nat × Bool) → List Bool
  | [] => []
  | (_, v, s) :: rest => absBins v ++ s :: levelBins rest

/-- The requests that carry them, with the counters of R124. -/
def levelRequests (b : BlockAddress) (numGt1 numEq1 : Nat) : List (Nat × Nat × Bool) → List Request
  | [] => []
  | (i, v, _) :: rest =>
    absRequests b i v numGt1 numEq1
      ++ .bypass :: levelRequests b (if v = 0 then numGt1 else numGt1 + 1) (if v = 0 then numEq1 + 1 else numEq1) rest

/-- The coefficients are those of a coded block (R119, R120, R122): the final one is significant and lies in the span, and every
level has a code. -/
def cabacOk (b : BlockAddress) (cs : CabacCoefs) : Bool :=
  (match cs.getLast? with
    | some (some _) => true
    | _ => false)
    && decide (b.start + cs.length ≤ b.stop + 1)
    && cs.all fun c =>
      match c with
      | none => true
      | some (v, _) => decide (v < 14 + 2 ^ (Config.cabacKMax + 1) - 1)

/-- The bins of a coded block after the CBF bin. -/
def cabacBins (b : BlockAddress) (cs : CabacCoefs) : List Bool :=
  scanBins b.stop b.start cs ++ levelBins (downward b.start cs)

/-- The requests that carry those bins. -/
def cabacRequests (b : BlockAddress) (cs : CabacCoefs) : List Request :=
  scanRequests b b.start cs ++ levelRequests b 0 0 (downward b.start cs)

/-- The CBF request, unless it is skipped (R117). -/
def cbfRequests (rule : CbfRule) (b : BlockAddress) : List Request :=
  if cbfSkipped rule b then [] else [.decision ⟨.cbf, b.blockType, b.maxc, b.cat, 0, 0, 0, 0⟩]

/-- Position `j`'s entry of a coded block whose first position is `start`. -/
def coefEntry (start : Nat) (cs : CabacCoefs) (j : Nat) : Option (Nat × Bool) :=
  if j < start then none else cs.getD (j - start) none

/-- The results of a coded block after `reqs` requests (R22 to R41, R125). -/
def cabacResults (b : BlockAddress) (reqs : Nat) (cs : CabacCoefs) : Results :=
  { Results.zero with
    totalcoeff := BitVec.ofNat 32 (cs.filterMap id).length
    cbf := 1
    lastpos := BitVec.ofNat 32 (b.start + cs.length - 1)
    reqs := BitVec.ofNat 32 reqs
    sigmap := maskOf 64 ((List.range 64).map fun j => (coefEntry b.start cs j).isSome)
    lastmap := maskOf 64 ((List.range 64).map fun j => j == b.start + cs.length - 1)
    signmap := maskOf 64 ((List.range 64).map fun j => ((coefEntry b.start cs j).map Prod.snd).getD false)
    abslm1 := Vector.ofFn fun j => BitVec.ofNat 32 (((coefEntry b.start cs j.val).map Prod.fst).getD 0)
    coef := Vector.ofFn fun j =>
      match coefEntry b.start cs j.val with
      | none => 0
      | some (v, s) => BitVec.ofInt 32 (if s then -((v : Int) + 1) else (v : Int) + 1) }

end Sys2Proof.Machine
end

