-- ==== Sys2Proof/Certificates/Slice0/Obligations.lean ====
section
/-! DEFINITION. Certificates/Slice0/Obligations.lean: the statements for the provers, from the numbered rules of spec/. A statement's
docstring names the rule it formalises. A value the spec leaves free (the draws of POS, of a changed bit, of a register
after reset) is constrained by no statement beyond the range the spec gives it. -/

open Sys2Proof Sys2Proof.Machine

/-! ### Encoding (R63 to R70) -/

/-- No bit of an encoding is dropped: every command, whatever its operands, decodes from its word (R63, R64, R70). -/
def Obligations.DecodeReadsBackEveryEncoding : Prop := ∀ i : Instr, decode (encode i) = .ok i

/-- Every word has one meaning: a word that decodes is the word of the command it decodes to (R63, R68). -/
def Obligations.EveryDecodedWordIsItsEncoding : Prop := ∀ (w : Word) (i : Instr), decode w = .ok i → encode i = w

/-- The word of a form is the sum of its fields at their places (R64, R70). -/
def Obligations.EncodingPlacesTheFields : Prop :=
  (encode .readUe).toNat = 1 ∧ (encode .readSe).toNat = 2 ∧ (encode .readTe).toNat = 3 ∧ (encode .readCe).toNat = 4
    ∧ (∀ start stop maxc btype,
        (encode (.cavlcBlock start stop maxc btype)).toNat
          = 5 + start.toNat * 2 ^ 4 + stop.toNat * 2 ^ 10 + maxc.toNat * 2 ^ 16 + btype.toNat * 2 ^ 19)
    ∧ ∀ start stop maxc btype cat,
        (encode (.cabacBlock start stop maxc btype cat)).toNat
          = 6 + start.toNat * 2 ^ 4 + stop.toNat * 2 ^ 10 + maxc.toNat * 2 ^ 16 + btype.toNat * 2 ^ 19
            + cat.toNat * 2 ^ 24

/-- Words of 95_test_vectors.md decode to the commands they stand for (R63, R64, R70). -/
def Obligations.SpecWordsDecode : Prop :=
  decode 0x00000001 = .ok .readUe ∧ decode 0x00000002 = .ok .readSe ∧ decode 0x00000003 = .ok .readTe
    ∧ decode 0x00000004 = .ok .readCe
    ∧ decode 0x00033C05 = .ok (.cavlcBlock 0 15 3 0) ∧ decode 0x00023805 = .ok (.cavlcBlock 0 14 2 0)
    ∧ decode 0x00011C05 = .ok (.cavlcBlock 0 7 1 0)
    ∧ decode 0x0304FC06 = .ok (.cabacBlock 0 63 4 0 3) ∧ decode 0x023B1426 = .ok (.cabacBlock 2 5 3 7 2)

/-- A word and an ARG are illegal by R68's list exactly when the word decodes to no command that is legal with that ARG. -/
def Obligations.IllegalExactlyWhenNoLegalCommand : Prop :=
  ∀ w arg : Word, IllegalWord w arg ↔ ¬ ∃ i, decode w = .ok i ∧ legal i arg = true

/-- An illegal command ends with InvalidCommand, reads no bit, issues no request and draws nothing: only CMD and STATUS change,
and POS keeps POS_start (R68, R69, R132). -/
def Obligations.IllegalCommandsAbort : Prop :=
  ∀ (s : State) (w : Word) (rest : List Event), s.run = none → IllegalWord w s.arg →
    step { s with inbox := .run w :: rest } = .next (abortedKeepingPos w .invalidCommand { s with inbox := rest })

/-! ### The register space (R13 to R21, R42, R49 to R55) -/

/-- Every register stands at its offset (R13, R22 to R41). -/
def Obligations.RegistersStandAtTheirOffsets : Prop :=
  ∀ s : State,
    readSlot 0x000 s = s.cmd ∧ readSlot 0x004 s = s.arg ∧ readSlot 0x008 s = s.pos
    ∧ readSlot 0x010 s = s.results.value ∧ readSlot 0x014 s = s.results.totalcoeff
    ∧ readSlot 0x018 s = s.results.trailingones ∧ readSlot 0x01C s = s.results.totalzeros
    ∧ readSlot 0x020 s = s.results.cbf ∧ readSlot 0x024 s = s.results.lastpos
    ∧ readSlot 0x028 s = s.results.t1signs ∧ readSlot 0x02C s = s.results.bits
    ∧ readSlot 0x030 s = s.results.reqs ∧ readSlot 0x034 s = s.results.rbmask
    ∧ (∀ i : Fin 16,
        readSlot (0x040 + 4 * i.val) s = s.results.level[i] ∧ readSlot (0x080 + 4 * i.val) s = s.results.run[i]
        ∧ readSlot (0x0C0 + 4 * i.val) s = s.results.levelprefix[i]
        ∧ readSlot (0x100 + 4 * i.val) s = s.results.levelsuffix[i]
        ∧ readSlot (0x140 + 4 * i.val) s = s.results.runbefore[i])
    ∧ readSlot 0x184 s ++ readSlot 0x180 s = s.results.sigmap
    ∧ readSlot 0x18C s ++ readSlot 0x188 s = s.results.lastmap
    ∧ readSlot 0x194 s ++ readSlot 0x190 s = s.results.signmap
    ∧ ∀ j : Fin 64,
        readSlot (0x200 + 4 * j.val) s = s.results.abslm1[j] ∧ readSlot (0x300 + 4 * j.val) s = s.results.coef[j]

/-- STATUS has BUSY at bit 0, VALID at bit 1, ERR at bits 6:4 and DROPPED at bit 8, and every other bit reads 0 (R17). -/
def Obligations.StatusFieldsStandAtTheirBits : Prop :=
  ∀ s : State,
    (readSlot 0x00C s).getLsbD 0 = s.busy ∧ (readSlot 0x00C s).getLsbD 1 = s.status.valid
    ∧ (readSlot 0x00C s).extractLsb' 4 3 = s.status.err ∧ (readSlot 0x00C s).getLsbD 8 = s.status.dropped
    ∧ ∀ k, k = 2 ∨ k = 3 ∨ k = 7 ∨ 9 ≤ k → (readSlot 0x00C s).getLsbD k = false

/-- The reserved offsets 0x038, 0x03C and 0x198 to 0x1FC and the reserved bits of STATUS read as 0, and writes to them change
nothing (R42). -/
def Obligations.ReservedSlotsReadZero : Prop :=
  ∀ (s : State) (rest : List Event) (v : Word),
    (∀ off, off = 0x038 ∨ off = 0x03C ∨ (0x198 ≤ off ∧ off ≤ 0x1FC) → off % 4 = 0 →
      step { s with inbox := .read off 32 :: rest } = .next { s with inbox := rest, reads := s.reads ++ [0] }
      ∧ step { s with inbox := .write off 32 v :: rest } = .next { s with inbox := rest })
    ∧ (∀ k, k = 2 ∨ k = 3 ∨ k = 7 ∨ 9 ≤ k → (readSlot 0x00C s).getLsbD k = false)
    ∧ step { s with inbox := .write 0x00C 32 v :: rest } = .next { s with inbox := rest }

/-- A Host read returns the slot and has no side effect; a write to a slot other than CMD, ARG and POS is ignored at any time and
never sets DROPPED (R54, R55). -/
def Obligations.HostAccessSideEffects : Prop :=
  ∀ (s : State) (rest : List Event) (off : Nat) (v : Word), off < 0x400 → off % 4 = 0 →
    step { s with inbox := .read off 32 :: rest }
      = .next { s with inbox := rest, reads := s.reads ++ [readSlot off s] }
    ∧ (off ≠ 0x000 → off ≠ 0x004 → off ≠ 0x008 →
        step { s with inbox := .write off 32 v :: rest } = .next { s with inbox := rest })
    ∧ (s.run = none →
        step { s with inbox := .write 0x004 32 v :: rest } = .next { s with inbox := rest, arg := v }
        ∧ step { s with inbox := .write 0x008 32 v :: rest } = .next { s with inbox := rest, pos := v })

/-- An access outside the window, not word-aligned or not 32 bits wide has no step (R50). -/
def Obligations.UnsupportedAccessesAreRefused : Prop :=
  ∀ (s : State) (rest : List Event) (off width : Nat) (v : Word), 0x400 ≤ off ∨ off % 4 ≠ 0 ∨ width ≠ 32 →
    step { s with inbox := .read off width :: rest } = .refused (.unsupportedAccess off width)
    ∧ step { s with inbox := .write off width v :: rest } = .refused (.unsupportedAccess off width)

/-- A write to CMD, ARG or POS while BUSY = 1 sets DROPPED and has no other effect (R21). That a whole command offered while another
runs is such a dropped write, the second clause, is the model's reading (log entry 12). -/
def Obligations.WritesWhileBusyAreDropped : Prop :=
  ∀ (s : State) (rest : List Event) (off : Nat) (v : Word) (i : Instr), s.run ≠ none →
    off = 0x000 ∨ off = 0x004 ∨ off = 0x008 →
    step { s with inbox := .write off 32 v :: rest }
      = .next { s with inbox := rest, status := { s.status with dropped := true } }
    ∧ exec i s = .next { s with status := { s.status with dropped := true } }

/-- A dropped write does not disturb the running command: the Core steps the same with and without it (R21). -/
def Obligations.DroppedWritesDoNotDisturbTheCommand : Prop :=
  ∀ s : State, s.run ≠ none → coreStep (dropWrite s) = dropWrite (coreStep s)

/-! ### Lifecycle (R12, R43, R59, R60, R130 to R136, R143 to R146) -/

/-- A write to CMD while idle starts a command in one step: CMD is latched, ARG and POS are snapshotted, and STATUS reads
BUSY = 1 with all else 0 (R130). -/
def Obligations.CmdWriteStartsACommand : Prop :=
  ∀ (s : State) (rest : List Event) (w : Word), s.run = none →
    ∃ (t : State) (r : Run), step { s with inbox := .write 0x000 32 w :: rest } = .next t
      ∧ t.run = some r ∧ t.cmd = w ∧ r.cmd = w ∧ r.arg = s.arg ∧ r.posStart = s.pos ∧ r.pos = s.pos.toNat
      ∧ readSlot 0x00C t = 1
      ∧ t = { s with inbox := rest, cmd := w, status := ⟨false, 0, false⟩, run := t.run }

/-- Commit and abort are each a single Core step (R12, R132). Commit publishes the staged results and the working position and
sets STATUS to VALID = 1; abort changes no result register, sets ERR and gives POS the value or the range the rule gives
it; DROPPED is kept by both, and a MODEL counter of draws may advance. -/
def Obligations.CommitAndAbortAreSingleSteps : Prop :=
  ∀ (s : State) (r : Run), s.run = some r →
    (r.phase = .commit →
      coreStep s = { s with
        pos := BitVec.ofNat 32 r.pos, results := r.staged, status := ⟨true, 0, s.status.dropped⟩, run := none })
    ∧ ∀ e, r.phase = .abort e → s.streamFits →
        ∃ (p : Word) (n : Nat),
          coreStep s = { s with
            pos := p, status := ⟨false, errorCode e, s.status.dropped⟩, run := none, draws := n }
          ∧ (e = .invalidCommand ∨ r.cmd.toNat % 16 = 6 → p = r.posStart)
          ∧ r.posStart.toNat ≤ p.toNat ∧ p.toNat ≤ max r.posStart.toNat s.bits.length

/-- While a command runs, a Core step that does not end it changes nothing a Host read returns (R12, R60). -/
def Obligations.NoIntermediateStateIsVisible : Prop :=
  ∀ s : State, s.run ≠ none → (coreStep s).run ≠ none → ∀ off, readSlot off (coreStep s) = readSlot off s

/-- A Core step changes a result register only by committing: where it changes one, VALID = 1, ERR = 0 and BUSY = 0 after it. So
an aborted command leaves every result register as it was (R43, R133). -/
def Obligations.ResultsChangeOnlyAtCommit : Prop :=
  ∀ s : State, (coreStep s).results ≠ s.results →
    (coreStep s).status.valid = true ∧ (coreStep s).status.err = 0 ∧ (coreStep s).run = none

/-- An idle Core does nothing (R143, R146). That an idle machine whose `inbox` lists nothing does not change, the second clause, is the
model's choice of who moves then (log entry 4). -/
def Obligations.IdleCoreStaysIdle : Prop :=
  ∀ s : State, s.run = none → coreStep s = s ∧ (s.inbox = [] → step s = .next s)

/-- Reset takes one step: CMD, ARG, POS and STATUS become 0, the running command is discarded, and BitSource is not touched, nor is
the Engine of an idle machine (R46, R145). The result registers take some value, and nothing is claimed of it; nothing is
claimed either of the Engine after a reset under a running command, where I16 of 93_implementation_defined.md allows any
state (the model's choice there is log entry 13). -/
def Obligations.ResetTakesOneStep : Prop :=
  ∀ (s : State) (rest : List Event),
    ∃ t : State, step { s with inbox := .reset :: rest } = .next t
      ∧ readSlot 0x000 t = 0 ∧ readSlot 0x004 t = 0 ∧ readSlot 0x008 t = 0 ∧ readSlot 0x00C t = 0
      ∧ t.run = none ∧ t.bits = s.bits ∧ (s.run = none → t.engine = s.engine) ∧ t.cbfRule = s.cbfRule
      ∧ t.reads = s.reads ∧ t.inbox = rest

/-- Right after reset CMD, ARG, POS and STATUS read 0 and no command runs, so the machine idles (R46, R146). -/
def Obligations.ResetStateIsIdle : Prop :=
  readSlot 0x000 State.reset = 0 ∧ readSlot 0x004 State.reset = 0 ∧ readSlot 0x008 State.reset = 0
    ∧ readSlot 0x00C State.reset = 0 ∧ step State.reset = .next State.reset

/-- The invariant holds right after reset. -/
def Obligations.ResetMeetsTheInvariant : Prop := Inv State.reset

/-- Every step, of whichever agent, keeps the invariant (R16, R19, R20, R21, R48, R128, R132). The invariant's clauses on the record of
changed positions (R58), and on the working position after BSLEN changed, are the model's bookkeeping (log entries 3 and
14). -/
def Obligations.EveryStepKeepsTheInvariant : Prop := ∀ s t : State, Inv s → step s = .next t → Inv t

/-- A step runs the decoded command: a word the Host writes to CMD, with the Core's steps of its command (the event `run`, log entry
4), runs the meaning of the command it decodes to (R14, R64). That the opcode-table word which `withFetchWord` places runs
so as the very next step, on an idle Core, is the model's choice of how a program comes to run (log entry 6). -/
def Obligations.StepRunsTheDecodedCommand : Prop :=
  ∀ (s : State) (w : Word) (i : Instr) (rest : List Event), decode w = .ok i →
    step { s with inbox := .run w :: rest } = exec i { s with inbox := rest }
    ∧ step (s.withFetchWord 32 w.toNat) = exec i { s with run := none }

/-- The atomic run of a command is the write of its word to CMD followed by single Core steps (R59, R130, R131): for every word
there is a number of Core steps after which the machine stands where the one `run` step leaves it. The event `run` is the
model's choice (log entry 4), and so is the bound on the number of steps (log entry 15). -/
def Obligations.RunEqualsWriteThenCoreSteps : Prop :=
  ∀ (s : State) (w : Word) (rest : List Event), s.run = none →
    ∃ n, n ≤ Config.coreBudget
      ∧ Sys2Proof.core.run (n + 1) { s with inbox := .write 0x000 32 w :: (List.replicate n .core ++ rest) }
        = step { s with inbox := .run w :: rest }

/-- Every command ends (R131, R155): started while idle, READ_UE, READ_SE, READ_TE, READ_CE and CAVLC_BLOCK leave the Core idle,
and CABAC_BLOCK leaves it idle or waiting for an answer the Engine has not given (R153). So the model's bound on Core steps
cuts no command off (log entry 15). -/
def Obligations.EveryCommandEnds : Prop :=
  ∀ (s : State) (i : Instr), s.run = none →
    ∃ t, exec i s = .next t
      ∧ (t.run = none ∨ ((∃ start stop maxc btype cat, i = .cabacBlock start stop maxc btype cat) ∧ waiting t = true))

/-! ### Host programs (R71) -/

/-- `wait` (R71): the Host reads STATUS, and goes on when bit 0 of what it read is 0. While it is 1 the Host reads again: between two
polls the Core takes a step, or, where the Core waits for the Engine, the first listed step of another agent than the Host
falls (the model's choice, log entry 18). Where no other agent has a step, an Engine that does not answer keeps the Host
polling for ever, and nothing but the list of what it read changes (R153). -/
def Obligations.WaitPollsUntilIdle : Prop :=
  ∀ (s : State) (rest : List Event),
    (s.run = none →
      step { s with inbox := .wait :: rest }
        = .next { s with inbox := rest, reads := s.reads ++ [readSlot 0x00C s] })
    ∧ (s.run ≠ none → waiting s = false →
        step { s with inbox := .wait :: rest }
          = .next { s with inbox := .core :: .wait :: rest, reads := s.reads ++ [readSlot 0x00C s] })
    ∧ (waiting s = true → ∀ (own others : List Event) (e : Event), (∀ h ∈ own, isHostStep h = true) →
        isHostStep e = false → rest = own ++ e :: others →
        step { s with inbox := .wait :: rest }
          = .next { s with inbox := e :: .wait :: (own ++ others), reads := s.reads ++ [readSlot 0x00C s] })
    ∧ (waiting s = true → (∀ h ∈ rest, isHostStep h = true) → ∀ n : Nat,
        Sys2Proof.core.run (2 * n) { s with inbox := .wait :: rest }
          = .next { s with
              inbox := .wait :: rest
              reads := s.reads ++ List.replicate n (readSlot 0x00C s) })

/-- `run c` (R71), on an idle machine, writes ARG where it has one, writes CMD and waits: where the command `c` ends, the program ends
where the meaning of `c` does, and every poll of its wait but the last has read STATUS = 1. -/
def Obligations.RunProgramEndsWithItsCommand : Prop :=
  ∀ (s t : State) (c : Instr) (arg : Option Word) (rest : List Event), s.run = none →
    exec c { s with arg := arg.getD s.arg } = .next t → t.run = none →
    ∃ n k, Sys2Proof.core.run n { s with inbox := runProgram c arg ++ rest }
      = .next { t with inbox := rest, reads := s.reads ++ List.replicate k 1 ++ [readSlot 0x00C t] }

/-! ### Bounds and inputs (R45, R56, R155) -/

/-- A committed command read at most 63 bits (the four reads) or 1153 bits (CAVLC_BLOCK), and issued at most 4863 requests
(CABAC_BLOCK) (R94, R114, R126, R155). -/
def Obligations.CommandsAreBounded : Prop :=
  ∀ (s t : State) (i : Instr), s.run = none → s.streamFits → exec i s = .next t → t.status.valid = true →
    ((i = .readUe ∨ i = .readSe ∨ i = .readTe ∨ i = .readCe) → t.results.bits.toNat ≤ 63)
    ∧ ((∃ start stop maxc btype, i = .cavlcBlock start stop maxc btype) → t.results.bits.toNat ≤ 1153)
    ∧ ((∃ start stop maxc btype cat, i = .cabacBlock start stop maxc btype cat) → t.results.reqs.toNat ≤ 4863)

/-- A committed result depends only on ARG, POS, the bitstream, the Engine's answers and the strap (R45). Two idle machines that
agree on these commit together, with the same results, POS and requests, whatever their other registers hold. -/
def Obligations.ResultsDependOnlyOnTheInputs : Prop :=
  ∀ (s s' t t' : State) (i : Instr), s.run = none → s'.run = none →
    s.arg = s'.arg → s.pos = s'.pos → s.bits = s'.bits → s.engine.answers = s'.engine.answers →
    s.cbfRule = s'.cbfRule → exec i s = .next t → exec i s' = .next t' →
    t.status = t'.status
    ∧ (t.status.valid = true → t.results = t'.results ∧ t.pos = t'.pos)
    ∧ t.engine.answers = t'.engine.answers
    ∧ ∃ q, t.engine.requests = s.engine.requests ++ q ∧ t'.engine.requests = s'.engine.requests ++ q

/-- Save and restore (R56): after a read command has committed and the Host has written back the POS it saved, the same command
reads the same bits again and commits the same results and POS. -/
def Obligations.RestoringPosReadsTheSameBits : Prop :=
  ∀ (s t : State) (i : Instr), s.run = none →
    (i = .readUe ∨ i = .readSe ∨ i = .readTe ∨ i = .readCe ∨ ∃ start stop maxc btype, i = .cavlcBlock start stop maxc btype) →
    exec i s = .next t → t.status.valid = true →
    exec i { t with pos := s.pos } = .next t

/-! ### The Exp-Golomb reads (R73 to R76, R89 to R94) -/

/-- READ_UE (R73, R90): at a code with an `L`-bit suffix, L at most 31, it commits the value `2^L - 1 + suffix` after `2L + 1` bits.
Every other result register is 0 (R89). -/
def Obligations.ReadUeReturnsTheCodeNumber : Prop :=
  ∀ (s : State) (suffix : List Bool), s.run = none → s.streamFits → suffix.length ≤ 31 → s.streamHas (egCode suffix) →
    exec .readUe s
      = .next (committed 0x00000001
          { Results.zero with
            value := BitVec.ofNat 32 (egNumber suffix), bits := BitVec.ofNat 32 (2 * suffix.length + 1) }
          (2 * suffix.length + 1) s)

/-- READ_SE (R74, R91): the code number `k` is mapped to `(-1)^(k+1) * ceil(k/2)`. -/
def Obligations.ReadSeReturnsTheSignedNumber : Prop :=
  ∀ (s : State) (suffix : List Bool), s.run = none → s.streamFits → suffix.length ≤ 31 → s.streamHas (egCode suffix) →
    exec .readSe s
      = .next (committed 0x00000002
          { Results.zero with
            value := BitVec.ofInt 32 ((-1) ^ (egNumber suffix + 1) * (((egNumber suffix + 1) / 2 : Nat) : Int))
            bits := BitVec.ofNat 32 (2 * suffix.length + 1) }
          (2 * suffix.length + 1) s)

/-- READ_TE (R75, R92): with range 1 one inverted bit, with a larger range a UE code whose value is returned as read. -/
def Obligations.ReadTeFollowsItsRange : Prop :=
  (∀ (s : State) (b : Bool), s.run = none → s.streamFits → s.arg = 1 → s.streamHas [b] →
    exec .readTe s
      = .next (committed 0x00000003 { Results.zero with value := if b then 0 else 1, bits := 1 } 1 s))
  ∧ ∀ (s : State) (suffix : List Bool), s.run = none → s.streamFits → 1 < s.arg.toNat → suffix.length ≤ 31 →
      s.streamHas (egCode suffix) →
      exec .readTe s
        = .next (committed 0x00000003
            { Results.zero with
              value := BitVec.ofNat 32 (egNumber suffix), bits := BitVec.ofNat 32 (2 * suffix.length + 1) }
            (2 * suffix.length + 1) s)

/-- READ_CE (R76, R93): a CE code has the bit pattern of a UE code and the UE value. -/
def Obligations.ReadCeReturnsTheUeValue : Prop :=
  ∀ (s : State) (suffix : List Bool), s.run = none → s.streamFits → suffix.length ≤ 31 → s.streamHas (egCode suffix) →
    exec .readCe s
      = .next (committed 0x00000004
          { Results.zero with
            value := BitVec.ofNat 32 (egNumber suffix), bits := BitVec.ofNat 32 (2 * suffix.length + 1) }
          (2 * suffix.length + 1) s)

/-- 32 zero bits abort an Exp-Golomb read with UnboundedLoop (R94, R132), whatever follows them; a run of 32 zeros is no code. So do
32 zero bits where CAVLC_BLOCK reads a level_prefix, after any token, signs and level codes of a block (R101). -/
def Obligations.ThirtyTwoZerosAbort : Prop :=
  (∀ (s : State) (i : Instr), s.run = none → s.streamFits →
    (i = .readUe ∨ i = .readSe ∨ i = .readCe ∨ (i = .readTe ∧ 1 < s.arg.toNat)) →
    s.streamHas (List.replicate 32 false) →
    ∃ t, exec i s = .next t ∧ AbortedRead (encode i) .unboundedLoop s t)
  ∧ ∀ (s : State) (start stop : BitVec 6) (maxc : BitVec 3) (btype : BitVec 5) (f : CavlcFields), s.run = none →
      s.streamFits → legal (.cavlcBlock start stop maxc btype) s.arg = true →
      f.headOk s.arg.toInt (stop.toNat + 1 - start.toNat) = true → f.levels.length < f.tc - f.t1 →
      s.streamHas (f.headBits ++ List.replicate 32 false) →
      ∃ t, exec (.cavlcBlock start stop maxc btype) s = .next t
        ∧ AbortedRead (encode (.cavlcBlock start stop maxc btype)) .unboundedLoop s t

/-- A stream that ends before the code does aborts the read with StreamExhausted (R9, R90, R134): it ends in the zeros or the 1 bit,
in the suffix, or before the one bit of TE with range 1. A POS above BSLEN is such a stream (R16). So does a stream that
ends inside a CAVLC block, in whichever field (R95). -/
def Obligations.EndOfStreamAborts : Prop :=
  (∀ (s : State) (i : Instr), s.run = none → s.streamFits →
    ((i = .readUe ∨ i = .readSe ∨ i = .readCe ∨ (i = .readTe ∧ 1 < s.arg.toNat))
        ∧ ((∃ n, n ≤ 31 ∧ s.bits.drop s.pos.toNat = List.replicate n false)
          ∨ ∃ n suffix, n ≤ 31 ∧ suffix.length < n
              ∧ s.bits.drop s.pos.toNat = List.replicate n false ++ true :: suffix))
      ∨ (i = .readTe ∧ s.arg = 1 ∧ s.bits.length ≤ s.pos.toNat) →
    ∃ t, exec i s = .next t ∧ AbortedRead (encode i) .streamExhausted s t)
  ∧ ∀ (s : State) (start stop : BitVec 6) (maxc : BitVec 3) (btype : BitVec 5) (m : Nat) (f : CavlcFields), s.run = none →
      s.streamFits → legal (.cavlcBlock start stop maxc btype) s.arg = true → Tables.maxCoefficients maxc = some m →
      f.ok s.arg.toInt m (stop.toNat + 1 - start.toNat) = true →
      s.bits.drop s.pos.toNat <+: f.bits → s.bits.drop s.pos.toNat ≠ f.bits →
      ∃ t, exec (.cavlcBlock start stop maxc btype) s = .next t
        ∧ AbortedRead (encode (.cavlcBlock start stop maxc btype)) .streamExhausted s t

/-- Any ReadBit past the end aborts the running command with StreamExhausted (R9, R128, R132), in every phase that reads a bit,
those of a block that no stream could complete among them: the read is one Core step and the abort the next. -/
def Obligations.ReadBitPastTheEndAborts : Prop :=
  ∀ (s : State) (r : Run) (p : BitPhase), Inv s → s.run = some r → r.phase = .bit p → r.lenChanged = false →
    s.bits.length ≤ r.pos →
    ∃ (q : Word) (n : Nat),
      coreStep (coreStep s)
        = { s with pos := q, status := ⟨false, 1, s.status.dropped⟩, run := none, draws := n }
      ∧ s.pos.toNat ≤ q.toNat ∧ q.toNat ≤ max s.pos.toNat s.bits.length

/-- What the four reads leave unchanged, in every case (R16, R21, R43, R89, R132): ARG, the bitstream, the Engine and its requests,
the strap, the inbox. After a commit POS has advanced by BITS and every result register but VALUE and BITS is 0; after an
abort every result register is as before. -/
def Obligations.ReadFrame : Prop :=
  ∀ (s t : State) (i : Instr), s.run = none → s.streamFits → (i = .readUe ∨ i = .readSe ∨ i = .readTe ∨ i = .readCe) →
    exec i s = .next t →
    t.cmd = encode i ∧ t.arg = s.arg ∧ t.status.dropped = false ∧ (∀ p : Nat, t.bits[p]? = s.bits[p]?)
    ∧ t.bits.length = s.bits.length ∧ t.engine = s.engine ∧ t.cbfRule = s.cbfRule ∧ t.reads = s.reads
    ∧ t.inbox = s.inbox ∧ t.run = none
    ∧ (t.status.valid = true →
        t.results = { Results.zero with value := t.results.value, bits := t.results.bits }
        ∧ t.pos.toNat = s.pos.toNat + t.results.bits.toNat ∧ t.draws = s.draws)
    ∧ (t.status.valid = false → t.results = s.results)

/-! ### CAVLC_BLOCK (R95 to R114) -/

/-- CAVLC_BLOCK decodes every block (R95 to R112): where the command is legal and the bitstream at POS holds the fields of a block,
it commits the results those fields give, after exactly their bits. -/
def Obligations.CavlcDecodesEveryBlock : Prop :=
  ∀ (s : State) (start stop : BitVec 6) (maxc : BitVec 3) (btype : BitVec 5) (m : Nat) (f : CavlcFields),
    s.run = none → s.streamFits → legal (.cavlcBlock start stop maxc btype) s.arg = true →
    Tables.maxCoefficients maxc = some m → f.ok s.arg.toInt m (stop.toNat + 1 - start.toNat) = true →
    s.streamHas f.bits →
    exec (.cavlcBlock start stop maxc btype) s
      = .next (committed (encode (.cavlcBlock start stop maxc btype)) (f.results start.toNat) f.bits.length s)

/-- CAVLC_BLOCK commits only blocks: what it commits are the results of fields that stand at POS, so that encoding the fields again
gives back exactly the bits it consumed (R95 to R112; 95_test_vectors.md P-1). -/
def Obligations.CavlcCommitsOnlyBlocks : Prop :=
  ∀ (s t : State) (start stop : BitVec 6) (maxc : BitVec 3) (btype : BitVec 5), s.run = none → s.streamFits →
    exec (.cavlcBlock start stop maxc btype) s = .next t → t.status.valid = true →
    ∃ (m : Nat) (f : CavlcFields), Tables.maxCoefficients maxc = some m
      ∧ f.ok s.arg.toInt m (stop.toNat + 1 - start.toNat) = true ∧ s.streamHas f.bits
      ∧ t = committed (encode (.cavlcBlock start stop maxc btype)) (f.results start.toNat) f.bits.length s

/-- TC = 0 reads nothing more (R98): at a coeff_token of (0, 0), CAVLC_BLOCK commits with every result register and COEF entry 0 but
BITS, which is the length of the token. -/
def Obligations.CavlcZeroTokenGivesAZeroBlock : Prop :=
  ∀ (s : State) (start stop : BitVec 6) (maxc : BitVec 3) (btype : BitVec 5) (c : Tables.CtColumn) (token : List Bool),
    s.run = none → s.streamFits → legal (.cavlcBlock start stop maxc btype) s.arg = true →
    Tables.tableSelect s.arg.toInt = some c → (token, (0, 0)) ∈ Tables.coeffToken c → s.streamHas token →
    exec (.cavlcBlock start stop maxc btype) s
      = .next (committed (encode (.cavlcBlock start stop maxc btype))
          { Results.zero with bits := BitVec.ofNat 32 token.length } token.length s)

/-- A coeff_token pattern absent from the active table aborts with MalformedSyntax (R11, R97, R128): the pattern begins no code, and
no code ends inside it. -/
def Obligations.AbsentTokenIsMalformed : Prop :=
  ∀ (s : State) (start stop : BitVec 6) (maxc : BitVec 3) (btype : BitVec 5) (c : Tables.CtColumn) (p : List Bool),
    s.run = none → s.streamFits → legal (.cavlcBlock start stop maxc btype) s.arg = true →
    Tables.tableSelect s.arg.toInt = some c → s.streamHas p →
    absentFrom p (Tables.coeffToken c) →
    ∃ t, exec (.cavlcBlock start stop maxc btype) s = .next t
      ∧ AbortedRead (encode (.cavlcBlock start stop maxc btype)) .malformedSyntax s t

/-- A field of a CAVLC block that is a code but does not fit the block, or is no code of its table, aborts with MalformedSyntax: a
TotalCoeff above the span count (R97); a total_zeros above `count - TC` (R108) or absent from its table (R107); a run_before
above zerosLeft or absent from its table (R110). An absent coeff_token is AbsentTokenIsMalformed's. -/
def Obligations.UnfittingFieldsAreMalformed : Prop :=
  ∀ (s : State) (start stop : BitVec 6) (maxc : BitVec 3) (btype : BitVec 5) (m count : Nat), s.run = none →
    s.streamFits → legal (.cavlcBlock start stop maxc btype) s.arg = true → Tables.maxCoefficients maxc = some m →
    count = stop.toNat + 1 - start.toNat →
    (∃ (c : Tables.CtColumn) (token : List Bool) (tc t1 : Nat), Tables.tableSelect s.arg.toInt = some c
        ∧ (token, (tc, t1)) ∈ Tables.coeffToken c ∧ s.streamHas token ∧ count < tc)
      ∨ (∃ f : CavlcFields, f.headOk s.arg.toInt count = true ∧ f.levels.length = f.tc - f.t1 ∧ 0 < f.tc ∧ f.tc < count
          ∧ (((f.tzCode, f.tz) ∈ Tables.totalZeros m f.tc ∧ count - f.tc < f.tz
                ∧ s.streamHas (f.headBits ++ f.tzCode))
              ∨ ∃ p, absentFrom p (Tables.totalZeros m f.tc) ∧ s.streamHas (f.headBits ++ p)))
      ∨ (∃ f : CavlcFields, f.headOk s.arg.toInt count = true ∧ f.levels.length = f.tc - f.t1
          ∧ f.zerosOk m count = true ∧ f.runs.length < f.tc - 1 ∧ runsOk f.tz f.runs = true ∧ f.runSum < f.tz
          ∧ ((∃ code rb, (code, rb) ∈ Tables.runBefore (f.tz - f.runSum) ∧ f.tz - f.runSum < rb
                ∧ s.streamHas (f.bits ++ code))
              ∨ ∃ p, absentFrom p (Tables.runBefore (f.tz - f.runSum)) ∧ s.streamHas (f.bits ++ p))) →
    ∃ t, exec (.cavlcBlock start stop maxc btype) s = .next t
      ∧ AbortedRead (encode (.cavlcBlock start stop maxc btype)) .malformedSyntax s t

/-- What a committed CAVLC block guarantees (R113): T1 is at most min(TC, 3); exactly TC entries of COEF are non-zero, all inside
`[start, end]`; TZ + TC is at most the span count; the runs sum to TZ; LASTPOS is the highest index placed (R27): LEVEL[0]
stands there, and no entry above it is non-zero. -/
def Obligations.CavlcGuarantees : Prop :=
  ∀ (s t : State) (start stop : BitVec 6) (maxc : BitVec 3) (btype : BitVec 5), s.run = none → s.streamFits →
    exec (.cavlcBlock start stop maxc btype) s = .next t → t.status.valid = true →
    t.results.trailingones.toNat ≤ min t.results.totalcoeff.toNat 3
    ∧ (t.results.coef.toList.filter fun c => c ≠ 0).length = t.results.totalcoeff.toNat
    ∧ (∀ j : Fin 64, t.results.coef[j] ≠ 0 →
        start.toNat ≤ j.val ∧ j.val ≤ t.results.lastpos.toNat ∧ t.results.lastpos.toNat ≤ stop.toNat)
    ∧ t.results.totalzeros.toNat + t.results.totalcoeff.toNat ≤ stop.toNat + 1 - start.toNat
    ∧ (t.results.run.toList.map BitVec.toNat).sum = t.results.totalzeros.toNat
    ∧ (0 < t.results.totalcoeff.toNat →
        t.results.lastpos.toNat = start.toNat + t.results.totalzeros.toNat + t.results.totalcoeff.toNat - 1
        ∧ t.results.coef.toList.getD t.results.lastpos.toNat 0 = t.results.level[0])

/-- What CAVLC_BLOCK leaves unchanged, in every case (R16, R43, R112, R132). After a commit POS has advanced by BITS, and CBF, REQS,
SIGMAP, LASTMAP, SIGNMAP and every ABSLM1 are 0; after an abort every result register is as before. -/
def Obligations.CavlcFrame : Prop :=
  ∀ (s t : State) (start stop : BitVec 6) (maxc : BitVec 3) (btype : BitVec 5), s.run = none → s.streamFits →
    exec (.cavlcBlock start stop maxc btype) s = .next t →
    t.cmd = encode (.cavlcBlock start stop maxc btype) ∧ t.arg = s.arg ∧ t.status.dropped = false
    ∧ (∀ p : Nat, t.bits[p]? = s.bits[p]?) ∧ t.bits.length = s.bits.length ∧ t.engine = s.engine
    ∧ t.cbfRule = s.cbfRule ∧ t.reads = s.reads ∧ t.inbox = s.inbox ∧ t.run = none
    ∧ (t.status.valid = true →
        t.results.cbf = 0 ∧ t.results.reqs = 0 ∧ t.results.sigmap = 0 ∧ t.results.lastmap = 0 ∧ t.results.signmap = 0
        ∧ (∀ j : Fin 64, t.results.abslm1[j] = 0)
        ∧ t.pos.toNat = s.pos.toNat + t.results.bits.toNat ∧ t.draws = s.draws)
    ∧ (t.status.valid = false → t.results = s.results)

/-- Levels (R102, R103, R104, R106). With level_prefix at most 31, suffixLength at most 6 and a level_suffix of the size R102 gives,
where the "+2" of R103 applies only while suffixLength is 0 or 1, levelCode is at most 536,867,775, reached at prefix 31
with suffixLength 6 and an all-ones suffix; every level lies within 268,433,888 of 0, and none is 0. An even levelCode `2m`
is the level `m + 1`, an odd one `2m + 1` the level `-(m + 1)`. The prefixes up to 13 and the escapes at 14, 15 and 16 have
the suffix sizes of R102 and the sums of R103. -/
def Obligations.LevelsStayInRange : Prop :=
  (∀ (p sl suf : Nat) (first : Bool), p ≤ 31 → sl ≤ 6 → suf < 2 ^ levelSuffixSize p sl → (first = true → sl ≤ 1) →
    levelCode p sl suf first ≤ 536867775
    ∧ -268433888 ≤ levelOf (levelCode p sl suf first) ∧ levelOf (levelCode p sl suf first) ≤ 268433888
    ∧ levelOf (levelCode p sl suf first) ≠ 0)
  ∧ levelCode 31 6 (2 ^ levelSuffixSize 31 6 - 1) false = 536867775
  ∧ (∀ m : Int, levelOf (2 * m) = m + 1 ∧ levelOf (2 * m + 1) = -(m + 1))
  ∧ (∀ p sl suf : Nat, levelCode p sl suf true = levelCode p sl suf false + 2)
  ∧ (∀ p sl suf : Nat, p ≤ 13 → levelSuffixSize p sl = sl ∧ levelCode p sl suf false = p * 2 ^ sl + suf)
  ∧ (∀ suf : Nat,
      levelSuffixSize 14 0 = 4 ∧ levelCode 14 0 suf false = 14 + suf
      ∧ levelSuffixSize 15 0 = 12 ∧ levelCode 15 0 suf false = 30 + suf
      ∧ levelSuffixSize 16 0 = 13 ∧ levelCode 16 0 suf false = 4126 + suf)
  ∧ ∀ sl suf : Nat, 0 < sl →
      levelSuffixSize 14 sl = sl ∧ levelCode 14 sl suf false = 14 * 2 ^ sl + suf
      ∧ levelSuffixSize 15 sl = 12 ∧ levelCode 15 sl suf false = 15 * 2 ^ sl + suf
      ∧ levelSuffixSize 16 sl = 13 ∧ levelCode 16 sl suf false = 15 * 2 ^ sl + 4096 + suf

/-- suffixLength (R99, R105): it starts at 0 or 1, is at least 1 after a level, and never exceeds 6. It grows past a threshold
exactly: from 0 it becomes 1 at a magnitude up to 3 and 2 above; from 1 to 5 it stays at a magnitude up to `3 * 2^(sl-1)` and
grows by one above; 6 stays. -/
def Obligations.SuffixLengthStaysInRange : Prop :=
  (∀ tc t1, initialSuffixLength tc t1 ≤ 1) ∧ (∀ tc t1, initialSuffixLength tc t1 = 1 ↔ tc > 10 ∧ t1 < 3)
  ∧ (∀ (sl : Nat) (level : Int), sl ≤ 6 →
      1 ≤ nextSuffixLength sl level ∧ nextSuffixLength sl level ≤ 6
      ∧ sl ≤ nextSuffixLength sl level ∧ nextSuffixLength sl level ≤ sl + 2)
  ∧ (∀ level : Int, nextSuffixLength 0 level = if level.natAbs ≤ 3 then 1 else 2)
  ∧ (∀ (sl : Nat) (level : Int), 1 ≤ sl → sl ≤ 5 →
      nextSuffixLength sl level = if level.natAbs ≤ 3 * 2 ^ (sl - 1) then sl else sl + 1)
  ∧ ∀ level : Int, nextSuffixLength 6 level = 6

/-! ### The tables (R78, R87, R88) -/

/-- Every column of every table is prefix-free (R87): no code is a prefix of another code of its column. -/
def Obligations.TablesArePrefixFree : Prop :=
  (∀ c : Tables.CtColumn, (Tables.coeffToken c).Pairwise fun a b => ¬ a.1 <+: b.1 ∧ ¬ b.1 <+: a.1)
  ∧ (∀ tc : Fin 16, (Tables.tz4 tc).Pairwise fun a b => ¬ a.1 <+: b.1 ∧ ¬ b.1 <+: a.1)
  ∧ (∀ tc : Fin 4, (Tables.tz420 tc).Pairwise fun a b => ¬ a.1 <+: b.1 ∧ ¬ b.1 <+: a.1)
  ∧ (∀ tc : Fin 8, (Tables.tz422 tc).Pairwise fun a b => ¬ a.1 <+: b.1 ∧ ¬ b.1 <+: a.1)
  ∧ ∀ zl : Nat, (Tables.runBefore zl).Pairwise fun a b => ¬ a.1 <+: b.1 ∧ ¬ b.1 <+: a.1

/-- Every pair with T1 at most min(TC, 3) and TC at most 16 has exactly one code in each column of T-CT, and no other pair has one
(R78); the chroma columns code TotalCoeff 0 to 4 and 0 to 8 so (R79). -/
def Obligations.EveryTokenPairHasOneCode : Prop :=
  ∀ (c : Tables.CtColumn) (tc t1 : Nat),
    ((Tables.coeffToken c).filter fun e => e.2 = (tc, t1)).length
      = if t1 ≤ min tc 3 ∧ tc ≤ (match c with
          | .chroma420 => 4
          | .chroma422 => 8
          | _ => 16) then 1 else 0

/-- The unused patterns of R87: a stream is refused in a column exactly when it begins with a listed pattern, and else, when it is
long enough, it begins with a code of the column (R88). Stated for the coeff_token columns, whose codes have 16 bits at
most. -/
def Obligations.UnusedTokenPatterns : Prop :=
  ∀ (c : Tables.CtColumn) (l : List Bool), 16 ≤ l.length →
    ((∃ e ∈ Tables.coeffToken c, e.1 <+: l)
      ↔ ¬ ∃ p ∈ (match c with
          | .nc0 => [List.replicate 15 false]
          | .nc2 => [List.replicate 13 false]
          | .nc4 => [List.replicate 10 false]
          | .nc8 => [[false, false, false, false, true, false], [false, false, false, true, true, true]]
          | .chroma420 => []
          | .chroma422 =>
            [List.replicate 11 false, List.replicate 10 false ++ [true, false],
              List.replicate 10 false ++ [true, true, false]]), p <+: l)

/-! ### CABAC_BLOCK (R115 to R127) -/

/-- CABAC_BLOCK decodes every coded block (R115 to R125): where the command is legal and the Engine answers a CBF bin of 1 (none when
the request is skipped) and the bins of the coefficients, it issues exactly the requests of R116 to R124 and commits the
coefficients' results. POS and the bitstream are untouched. -/
def Obligations.CabacDecodesEveryBlock : Prop :=
  ∀ (s : State) (start stop : BitVec 6) (maxc : BitVec 3) (btype : BitVec 5) (cat : BitVec 2) (cs : CabacCoefs)
    (rest : List Answer),
    s.run = none → legal (.cabacBlock start stop maxc btype cat) s.arg = true →
    cabacOk (blockOf (encode (.cabacBlock start stop maxc btype cat))) cs = true →
    s.engine.answers
      = (List.replicate (cbfRequests s.cbfRule (blockOf (encode (.cabacBlock start stop maxc btype cat)))).length true
          ++ cabacBins (blockOf (encode (.cabacBlock start stop maxc btype cat))) cs).map .bin ++ rest →
    exec (.cabacBlock start stop maxc btype cat) s
      = .next { committed (encode (.cabacBlock start stop maxc btype cat))
          (cabacResults (blockOf (encode (.cabacBlock start stop maxc btype cat)))
            (cbfRequests s.cbfRule (blockOf (encode (.cabacBlock start stop maxc btype cat)))
              ++ cabacRequests (blockOf (encode (.cabacBlock start stop maxc btype cat))) cs).length cs) 0 s with
        engine := ⟨rest, s.engine.requests
          ++ (cbfRequests s.cbfRule (blockOf (encode (.cabacBlock start stop maxc btype cat)))
            ++ cabacRequests (blockOf (encode (.cabacBlock start stop maxc btype cat))) cs)⟩ }

/-- CBF = 0 ends the block (R118): one request, and every result register and COEF entry is 0 but REQS, which is 1. -/
def Obligations.CabacZeroFlagGivesAZeroBlock : Prop :=
  ∀ (s : State) (start stop : BitVec 6) (maxc : BitVec 3) (btype : BitVec 5) (cat : BitVec 2) (rest : List Answer),
    s.run = none → legal (.cabacBlock start stop maxc btype cat) s.arg = true →
    cbfSkipped s.cbfRule (blockOf (encode (.cabacBlock start stop maxc btype cat))) = false →
    s.engine.answers = .bin false :: rest →
    exec (.cabacBlock start stop maxc btype cat) s
      = .next { committed (encode (.cabacBlock start stop maxc btype cat)) { Results.zero with reqs := 1 } 0 s with
        engine := ⟨rest, s.engine.requests
          ++ [.decision ⟨.cbf, btype.toNat, (Tables.maxCoefficients maxc).getD 0, cat.toNat, 0, 0, 0, 0⟩]⟩ }

/-- The block operands a command word carries (R66): every field zero-extended, and `maxCoefficients` from its code (R65). -/
def Obligations.BlockAddressFromTheWord : Prop :=
  ∀ (start stop : BitVec 6) (maxc : BitVec 3) (btype : BitVec 5) (cat : BitVec 2) (m : Nat),
    [4, 8, 15, 16, 64][maxc.toNat]? = some m →
    blockOf (encode (.cabacBlock start stop maxc btype cat)) = ⟨btype.toNat, start.toNat, stop.toNat, m, cat.toNat⟩
    ∧ blockOf (encode (.cavlcBlock start stop maxc btype)) = ⟨btype.toNat, start.toNat, stop.toNat, m, 0⟩

/-- Which block skips the CBF request (R117): under DOC the 64-coefficient block of CAT 3 and no other, under H264 the 64-coefficient
block of every CAT but 3. A block that does not skip issues the CBF request first, with the descriptor of R116. -/
def Obligations.CbfRequestFollowsTheRule : Prop :=
  ∀ (s : State) (start stop : BitVec 6) (maxc : BitVec 3) (btype : BitVec 5) (cat : BitVec 2) (t : State),
    s.run = none → legal (.cabacBlock start stop maxc btype cat) s.arg = true → s.engine.answers ≠ [] →
    exec (.cabacBlock start stop maxc btype cat) s = .next t →
    (t.engine.requests.drop s.engine.requests.length).head?
        = some (.decision ⟨.cbf, btype.toNat, (Tables.maxCoefficients maxc).getD 0, cat.toNat, 0, 0, 0, 0⟩)
      ↔ ¬ (maxc = 4 ∧ ((s.cbfRule = .doc ∧ cat = 3) ∨ (s.cbfRule = .h264 ∧ cat ≠ 3)))

/-- An EXHAUSTED answer aborts the block with StreamExhausted (R10, R128, R132): the request it answers is the last one, POS keeps its
value and no result register changes. -/
def Obligations.EngineExhaustionAbortsTheBlock : Prop :=
  ∀ (s : State) (r : Run) (p : BinPhase) (rest : List Answer), s.run = some r → r.phase = .bin p → r.isCabac = true →
    r.posStart = s.pos → s.engine.answers = .exhausted :: rest →
    coreStep (coreStep s)
      = { s with
          status := ⟨false, 1, s.status.dropped⟩
          run := none
          engine := ⟨rest, s.engine.requests ++ [requestOf p r]⟩ }

/-- An Engine that never answers leaves the Core waiting with BUSY = 1, which is no error (R131, R153, I6): no number of Core steps
changes the machine. -/
def Obligations.UnansweredRequestsHang : Prop :=
  ∀ (s : State) (r : Run) (p : BinPhase) (n : Nat), s.run = some r → r.phase = .bin p → s.engine.answers = [] →
    s.inbox = [] → Sys2Proof.core.run n s = .next s

/-- What a committed CABAC block guarantees (R126): with CBF = 1 every significant position lies in `[start, LASTPOS]`, within
`[start, end]`; COEF is non-zero exactly at the significant positions; TOTALCOEFF counts them and is at least 1; LASTMAP has
exactly the bit LASTPOS. -/
def Obligations.CabacGuarantees : Prop :=
  ∀ (s t : State) (start stop : BitVec 6) (maxc : BitVec 3) (btype : BitVec 5) (cat : BitVec 2), s.run = none →
    exec (.cabacBlock start stop maxc btype cat) s = .next t → t.status.valid = true → t.results.cbf = 1 →
    (∀ j, t.results.sigmap.getLsbD j = true →
      start.toNat ≤ j ∧ j ≤ t.results.lastpos.toNat ∧ t.results.lastpos.toNat ≤ stop.toNat)
    ∧ (∀ j : Fin 64, t.results.coef[j] ≠ 0 ↔ t.results.sigmap.getLsbD j = true)
    ∧ (t.results.coef.toList.filter fun c => c ≠ 0).length = t.results.totalcoeff.toNat
    ∧ 1 ≤ t.results.totalcoeff.toNat
    ∧ ∀ j, t.results.lastmap.getLsbD j = true ↔ j = t.results.lastpos.toNat

/-- The 30th consecutive 1 bin of a level suffix aborts with UnboundedLoop before another bin is requested (R122, R134). -/
def Obligations.ThirtySuffixOnesAbortTheBlock : Prop :=
  ∀ (s : State) (r : Run) (i g e : Nat) (rest : List Answer), s.run = some r → r.phase = .bin (.sufUnary i 0 0 g e) →
    r.isCabac = true → r.posStart = s.pos → s.engine.answers = List.replicate 30 (.bin true) ++ rest →
    coreStep^[31] s
      = { s with
          status := ⟨false, 3, s.status.dropped⟩
          run := none
          engine := ⟨rest, s.engine.requests ++ List.replicate 30 .bypass⟩ }

/-- What CABAC_BLOCK leaves unchanged, in every case (R16, R43, R125, R132): ARG, POS, the bitstream, the strap. After a commit VALUE,
TRAILINGONES, TOTALZEROS, T1SIGNS, BITS, RBMASK and the CAVLC arrays are 0; otherwise every result register is as before. The
Engine's answers are consumed in order, one for each request. -/
def Obligations.CabacFrame : Prop :=
  ∀ (s t : State) (start stop : BitVec 6) (maxc : BitVec 3) (btype : BitVec 5) (cat : BitVec 2), s.run = none →
    exec (.cabacBlock start stop maxc btype cat) s = .next t →
    t.cmd = encode (.cabacBlock start stop maxc btype cat) ∧ t.arg = s.arg ∧ t.pos = s.pos ∧ t.status.dropped = false
    ∧ (∀ p : Nat, t.bits[p]? = s.bits[p]?) ∧ t.bits.length = s.bits.length ∧ t.draws = s.draws
    ∧ t.cbfRule = s.cbfRule ∧ t.reads = s.reads ∧ t.inbox = s.inbox
    ∧ (∃ a q, s.engine.answers = a ++ t.engine.answers ∧ t.engine.requests = s.engine.requests ++ q
        ∧ a.length = q.length ∧ (t.status.valid = true → t.results.reqs = BitVec.ofNat 32 q.length))
    ∧ (t.status.valid = true →
        t.results.value = 0 ∧ t.results.trailingones = 0 ∧ t.results.totalzeros = 0 ∧ t.results.t1signs = 0
        ∧ t.results.bits = 0 ∧ t.results.rbmask = 0
        ∧ ∀ i : Fin 16, t.results.level[i] = 0 ∧ t.results.run[i] = 0 ∧ t.results.levelprefix[i] = 0
            ∧ t.results.levelsuffix[i] = 0 ∧ t.results.runbefore[i] = 0)
    ∧ (t.status.valid = false → t.results = s.results)

/-! ### A changing bitstream (R58) -/

/-- A bitstream that changes between commands is the one the next command reads, and a change under a running command that changes
neither BSLEN nor a position from POS_start on leaves the running command as it was (R58, R152). -/
def Obligations.BitstreamChangesAreSeen : Prop :=
  ∀ (s : State) (bs : List Bool) (rest : List Event), bs.length ≤ Config.maxBsLen →
    (s.run = none → step { s with inbox := .bitstream bs :: rest } = .next { s with inbox := rest, bits := bs })
    ∧ ∀ r, s.run = some r → bs.length = s.bits.length →
        (∀ p : Nat, r.posStart.toNat ≤ p → bs[p]? = s.bits[p]?) →
        step { s with inbox := .bitstream bs :: rest } = .next { s with inbox := rest, bits := bs }
end

