-- ==== Sys2Proof/Laws/State.lean ====
section
/-! SUPPORT. Laws/State.lean: what each named update of a running command and of the machine leaves as it was, field by field, so that
no later proof unfolds an update. -/

namespace Sys2Proof.Machine

/-! ### `Run.goto`, `Run.raise`, `Run.stage`, `Run.finishBits` -/

@[simp] theorem Run.goto_cmd (p : Phase) (r : Run) : (r.goto p).cmd = r.cmd := rfl
@[simp] theorem Run.goto_arg (p : Phase) (r : Run) : (r.goto p).arg = r.arg := rfl
@[simp] theorem Run.goto_posStart (p : Phase) (r : Run) : (r.goto p).posStart = r.posStart := rfl
@[simp] theorem Run.goto_pos (p : Phase) (r : Run) : (r.goto p).pos = r.pos := rfl
@[simp] theorem Run.goto_staged (p : Phase) (r : Run) : (r.goto p).staged = r.staged := rfl
@[simp] theorem Run.goto_reqs (p : Phase) (r : Run) : (r.goto p).reqs = r.reqs := rfl
@[simp] theorem Run.goto_phase (p : Phase) (r : Run) : (r.goto p).phase = p := rfl
@[simp] theorem Run.goto_changed (p : Phase) (r : Run) : (r.goto p).changed = r.changed := rfl
@[simp] theorem Run.goto_lenChanged (p : Phase) (r : Run) : (r.goto p).lenChanged = r.lenChanged := rfl

@[simp] theorem Run.raise_cmd (e : ErrorKind) (r : Run) : (r.raise e).cmd = r.cmd := rfl
@[simp] theorem Run.raise_arg (e : ErrorKind) (r : Run) : (r.raise e).arg = r.arg := rfl
@[simp] theorem Run.raise_posStart (e : ErrorKind) (r : Run) : (r.raise e).posStart = r.posStart := rfl
@[simp] theorem Run.raise_pos (e : ErrorKind) (r : Run) : (r.raise e).pos = r.pos := rfl
@[simp] theorem Run.raise_staged (e : ErrorKind) (r : Run) : (r.raise e).staged = r.staged := rfl
@[simp] theorem Run.raise_reqs (e : ErrorKind) (r : Run) : (r.raise e).reqs = r.reqs := rfl
@[simp] theorem Run.raise_phase (e : ErrorKind) (r : Run) : (r.raise e).phase = .abort e := rfl
@[simp] theorem Run.raise_changed (e : ErrorKind) (r : Run) : (r.raise e).changed = r.changed := rfl
@[simp] theorem Run.raise_lenChanged (e : ErrorKind) (r : Run) : (r.raise e).lenChanged = r.lenChanged := rfl

@[simp] theorem Run.stage_cmd (f : Results → Results) (r : Run) : (r.stage f).cmd = r.cmd := rfl
@[simp] theorem Run.stage_arg (f : Results → Results) (r : Run) : (r.stage f).arg = r.arg := rfl
@[simp] theorem Run.stage_posStart (f : Results → Results) (r : Run) : (r.stage f).posStart = r.posStart := rfl
@[simp] theorem Run.stage_pos (f : Results → Results) (r : Run) : (r.stage f).pos = r.pos := rfl
@[simp] theorem Run.stage_staged (f : Results → Results) (r : Run) : (r.stage f).staged = f r.staged := rfl
@[simp] theorem Run.stage_reqs (f : Results → Results) (r : Run) : (r.stage f).reqs = r.reqs := rfl
@[simp] theorem Run.stage_phase (f : Results → Results) (r : Run) : (r.stage f).phase = r.phase := rfl
@[simp] theorem Run.stage_changed (f : Results → Results) (r : Run) : (r.stage f).changed = r.changed := rfl
@[simp] theorem Run.stage_lenChanged (f : Results → Results) (r : Run) : (r.stage f).lenChanged = r.lenChanged := rfl

@[simp] theorem Run.finishBits_cmd (r : Run) : r.finishBits.cmd = r.cmd := rfl
@[simp] theorem Run.finishBits_arg (r : Run) : r.finishBits.arg = r.arg := rfl
@[simp] theorem Run.finishBits_posStart (r : Run) : r.finishBits.posStart = r.posStart := rfl
@[simp] theorem Run.finishBits_pos (r : Run) : r.finishBits.pos = r.pos := rfl
@[simp] theorem Run.finishBits_staged (r : Run) :
    r.finishBits.staged = { r.staged with bits := BitVec.ofNat 32 (r.pos - r.posStart.toNat) } := rfl
@[simp] theorem Run.finishBits_reqs (r : Run) : r.finishBits.reqs = r.reqs := rfl
@[simp] theorem Run.finishBits_phase (r : Run) : r.finishBits.phase = .commit := rfl
@[simp] theorem Run.finishBits_changed (r : Run) : r.finishBits.changed = r.changed := rfl
@[simp] theorem Run.finishBits_lenChanged (r : Run) : r.finishBits.lenChanged = r.lenChanged := rfl

/-! ### Operands depend on the snapshots alone -/

@[simp] theorem Run.goto_block (p : Phase) (r : Run) : (r.goto p).block = r.block := rfl
@[simp] theorem Run.stage_block (f : Results → Results) (r : Run) : (r.stage f).block = r.block := rfl
@[simp] theorem Run.goto_count (p : Phase) (r : Run) : (r.goto p).count = r.count := rfl
@[simp] theorem Run.stage_count (f : Results → Results) (r : Run) : (r.stage f).count = r.count := rfl
@[simp] theorem Run.goto_isCabac (p : Phase) (r : Run) : (r.goto p).isCabac = r.isCabac := rfl
@[simp] theorem Run.stage_isCabac (f : Results → Results) (r : Run) : (r.stage f).isCabac = r.isCabac := rfl
@[simp] theorem Run.goto_tc (p : Phase) (r : Run) : (r.goto p).tc = r.tc := rfl
@[simp] theorem Run.goto_t1 (p : Phase) (r : Run) : (r.goto p).t1 = r.t1 := rfl
@[simp] theorem Run.goto_tokenTable (p : Phase) (r : Run) : (r.goto p).tokenTable = r.tokenTable := rfl
@[simp] theorem Run.stage_tokenTable (f : Results → Results) (r : Run) : (r.stage f).tokenTable = r.tokenTable := rfl

/-! ### Updates of the machine -/

@[simp] theorem startCommand_cmd (w : Word) (c : Option Instr) (s : State) : (startCommand w c s).cmd = w := rfl
@[simp] theorem startCommand_arg (w : Word) (c : Option Instr) (s : State) : (startCommand w c s).arg = s.arg := rfl
@[simp] theorem startCommand_pos (w : Word) (c : Option Instr) (s : State) : (startCommand w c s).pos = s.pos := rfl
@[simp] theorem startCommand_status (w : Word) (c : Option Instr) (s : State) :
    (startCommand w c s).status = ⟨false, 0, false⟩ := rfl
@[simp] theorem startCommand_results (w : Word) (c : Option Instr) (s : State) :
    (startCommand w c s).results = s.results := rfl
@[simp] theorem startCommand_bits (w : Word) (c : Option Instr) (s : State) : (startCommand w c s).bits = s.bits := rfl
@[simp] theorem startCommand_engine (w : Word) (c : Option Instr) (s : State) :
    (startCommand w c s).engine = s.engine := rfl
@[simp] theorem startCommand_cbfRule (w : Word) (c : Option Instr) (s : State) :
    (startCommand w c s).cbfRule = s.cbfRule := rfl
@[simp] theorem startCommand_reads (w : Word) (c : Option Instr) (s : State) : (startCommand w c s).reads = s.reads := rfl
@[simp] theorem startCommand_inbox (w : Word) (c : Option Instr) (s : State) : (startCommand w c s).inbox = s.inbox := rfl
@[simp] theorem startCommand_draws (w : Word) (c : Option Instr) (s : State) : (startCommand w c s).draws = s.draws := rfl

/-- The internal state of a command that has just started (R44, R130). -/
def freshRun (w : Word) (c : Option Instr) (s : State) : Run where
  cmd := w
  arg := s.arg
  posStart := s.pos
  pos := s.pos.toNat
  staged := Results.zero
  reqs := 0
  phase := .check c
  changed := []
  lenChanged := false

@[simp] theorem startCommand_run (w : Word) (c : Option Instr) (s : State) :
    (startCommand w c s).run = some (freshRun w c s) := rfl

@[simp] theorem commitRun_cmd (s : State) (r : Run) : (commitRun s r).cmd = s.cmd := rfl
@[simp] theorem commitRun_arg (s : State) (r : Run) : (commitRun s r).arg = s.arg := rfl
@[simp] theorem commitRun_pos (s : State) (r : Run) : (commitRun s r).pos = BitVec.ofNat 32 r.pos := rfl
@[simp] theorem commitRun_status (s : State) (r : Run) :
    (commitRun s r).status = ⟨true, 0, s.status.dropped⟩ := rfl
@[simp] theorem commitRun_results (s : State) (r : Run) : (commitRun s r).results = r.staged := rfl
@[simp] theorem commitRun_run (s : State) (r : Run) : (commitRun s r).run = none := rfl
@[simp] theorem commitRun_bits (s : State) (r : Run) : (commitRun s r).bits = s.bits := rfl
@[simp] theorem commitRun_engine (s : State) (r : Run) : (commitRun s r).engine = s.engine := rfl
@[simp] theorem commitRun_cbfRule (s : State) (r : Run) : (commitRun s r).cbfRule = s.cbfRule := rfl
@[simp] theorem commitRun_reads (s : State) (r : Run) : (commitRun s r).reads = s.reads := rfl
@[simp] theorem commitRun_inbox (s : State) (r : Run) : (commitRun s r).inbox = s.inbox := rfl
@[simp] theorem commitRun_draws (s : State) (r : Run) : (commitRun s r).draws = s.draws := rfl

@[simp] theorem dropWrite_cmd (s : State) : (dropWrite s).cmd = s.cmd := rfl
@[simp] theorem dropWrite_arg (s : State) : (dropWrite s).arg = s.arg := rfl
@[simp] theorem dropWrite_pos (s : State) : (dropWrite s).pos = s.pos := rfl
@[simp] theorem dropWrite_status (s : State) : (dropWrite s).status = ⟨s.status.valid, s.status.err, true⟩ := rfl
@[simp] theorem dropWrite_results (s : State) : (dropWrite s).results = s.results := rfl
@[simp] theorem dropWrite_run (s : State) : (dropWrite s).run = s.run := rfl
@[simp] theorem dropWrite_bits (s : State) : (dropWrite s).bits = s.bits := rfl
@[simp] theorem dropWrite_engine (s : State) : (dropWrite s).engine = s.engine := rfl
@[simp] theorem dropWrite_cbfRule (s : State) : (dropWrite s).cbfRule = s.cbfRule := rfl
@[simp] theorem dropWrite_reads (s : State) : (dropWrite s).reads = s.reads := rfl
@[simp] theorem dropWrite_inbox (s : State) : (dropWrite s).inbox = s.inbox := rfl
@[simp] theorem dropWrite_draws (s : State) : (dropWrite s).draws = s.draws := rfl

@[simp] theorem resetCore_cmd (s : State) : (resetCore s).cmd = 0 := rfl
@[simp] theorem resetCore_arg (s : State) : (resetCore s).arg = 0 := rfl
@[simp] theorem resetCore_pos (s : State) : (resetCore s).pos = 0 := rfl
@[simp] theorem resetCore_status (s : State) : (resetCore s).status = ⟨false, 0, false⟩ := rfl
@[simp] theorem resetCore_run (s : State) : (resetCore s).run = none := rfl
@[simp] theorem resetCore_bits (s : State) : (resetCore s).bits = s.bits := rfl
@[simp] theorem resetCore_engine (s : State) : (resetCore s).engine = s.engine := rfl
@[simp] theorem resetCore_cbfRule (s : State) : (resetCore s).cbfRule = s.cbfRule := rfl
@[simp] theorem resetCore_reads (s : State) : (resetCore s).reads = s.reads := rfl
@[simp] theorem resetCore_inbox (s : State) : (resetCore s).inbox = s.inbox := rfl

@[simp] theorem changeBits_bits (bs : List Bool) (s : State) : (changeBits bs s).bits = bs := rfl
@[simp] theorem changeBits_cmd (bs : List Bool) (s : State) : (changeBits bs s).cmd = s.cmd := rfl
@[simp] theorem changeBits_arg (bs : List Bool) (s : State) : (changeBits bs s).arg = s.arg := rfl
@[simp] theorem changeBits_pos (bs : List Bool) (s : State) : (changeBits bs s).pos = s.pos := rfl
@[simp] theorem changeBits_status (bs : List Bool) (s : State) : (changeBits bs s).status = s.status := rfl
@[simp] theorem changeBits_results (bs : List Bool) (s : State) : (changeBits bs s).results = s.results := rfl
@[simp] theorem changeBits_engine (bs : List Bool) (s : State) : (changeBits bs s).engine = s.engine := rfl

end Sys2Proof.Machine
end

