-- ==== Sys2Proof/Laws/Arrays.lean ====
section
/-! SUPPORT. Laws/Arrays.lean: register arrays filled from index 0 on (`wordsOf`) and masks filled from bit 0 on (`maskOf`). -/

namespace Sys2Proof.Machine

theorem wordsOf_get {n : Nat} (l : List Word) (i : Nat) (h : i < n) : (wordsOf l : Vector Word n)[i] = l.getD i 0 := by
  simp [wordsOf]

/-- Arrays are equal when their lists agree everywhere. -/
theorem wordsOf_congr {n : Nat} {l l' : List Word} (h : ∀ i, i < n → l.getD i 0 = l'.getD i 0) :
    (wordsOf l : Vector Word n) = wordsOf l' := by
  ext i hi
  rw [wordsOf_get _ _ hi, wordsOf_get _ _ hi, h i hi]

theorem wordsOf_nil {n : Nat} : (wordsOf [] : Vector Word n) = Vector.replicate n 0 := by
  ext i hi
  simp [wordsOf_get _ _ hi]

/-- A 0 at the end changes nothing. -/
theorem wordsOf_append_zero {n : Nat} (l : List Word) : (wordsOf (l ++ [0]) : Vector Word n) = wordsOf l := by
  apply wordsOf_congr
  intro i _
  simp only [List.getD_eq_getElem?_getD, List.getElem?_append]
  split
  · rfl
  · rename_i h
    rw [List.getElem?_eq_none (l := l) (by omega)]
    cases h2 : i - l.length <;> simp

theorem wordsOf_append_zeros {n : Nat} (l : List Word) (k : Nat) :
    (wordsOf (l ++ List.replicate k 0) : Vector Word n) = wordsOf l := by
  induction k with
  | zero => simp
  | succ k ih => rw [List.replicate_succ', ← List.append_assoc, wordsOf_append_zero, ih]

/-- Writing the next entry. -/
theorem wordsOf_set {n : Nat} (l : List Word) (w : Word) :
    (wordsOf l : Vector Word n).setIfInBounds l.length w = wordsOf (l ++ [w]) := by
  apply Vector.ext
  intro i hi
  rw [Vector.getElem_setIfInBounds hi, wordsOf_get _ _ hi, wordsOf_get _ _ hi]
  simp only [List.getD_eq_getElem?_getD, List.getElem?_append]
  by_cases h : l.length = i
  · subst h; simp
  · rw [if_neg h]
    by_cases h2 : i < l.length
    · rw [if_pos h2]
    · rw [if_neg h2, List.getElem?_eq_none (l := l) (by omega), List.getElem?_eq_none (by simp; omega)]

/-- Writing an entry past the end, with 0s between. -/
theorem wordsOf_set_later {n : Nat} (l : List Word) (w : Word) {i : Nat} (h : l.length ≤ i) :
    (wordsOf l : Vector Word n).setIfInBounds i w = wordsOf (l ++ List.replicate (i - l.length) 0 ++ [w]) := by
  have := wordsOf_set (n := n) (l ++ List.replicate (i - l.length) 0) w
  rw [wordsOf_append_zeros] at this
  rw [← this]
  congr 1
  simp; omega

/-- The number of a list of bits, the first the least significant. -/
theorem testBit_foldr (l : List Bool) (i : Nat) :
    (l.foldr (fun (b : Bool) a => b.toNat + 2 * a) 0).testBit i = l.getD i false := by
  induction l generalizing i with
  | nil => simp
  | cons b l ih =>
    cases i with
    | zero =>
      cases b <;> simp [Nat.testBit_zero, Nat.add_mod]
    | succ i =>
      rw [Nat.testBit_succ]
      have : (List.foldr (fun (b : Bool) a => b.toNat + 2 * a) 0 (b :: l)) / 2
          = l.foldr (fun (b : Bool) a => b.toNat + 2 * a) 0 := by
        cases b <;> simp <;> omega
      rw [this, ih]
      simp

theorem maskOf_getLsbD {n : Nat} (l : List Bool) {i : Nat} (h : i < n) : (maskOf n l).getLsbD i = l.getD i false := by
  rw [maskOf, BitVec.getLsbD_ofNat, testBit_foldr]
  simp [h]

theorem maskOf_nil {n : Nat} : maskOf n [] = 0 := rfl

theorem putBit_getLsbD {n : Nat} (m : BitVec n) (i : Nat) (b : Bool) (j : Nat) :
    (putBit m i b).getLsbD j = (m.getLsbD j || (b && decide (j = i) && decide (j < n))) := by
  unfold putBit
  split
  · rename_i h
    subst h
    rw [BitVec.getLsbD_or, BitVec.getLsbD_twoPow]
    by_cases h1 : j = i <;> by_cases h2 : j < n <;> simp [h1, h2] <;> omega
  · rename_i h
    simp [h]

/-- Writing the next bit. -/
theorem maskOf_putBit {n : Nat} (l : List Bool) (b : Bool) : putBit (maskOf n l) l.length b = maskOf n (l ++ [b]) := by
  apply BitVec.eq_of_getLsbD_eq
  intro i hi
  rw [putBit_getLsbD, maskOf_getLsbD _ hi, maskOf_getLsbD _ hi]
  simp only [List.getD_eq_getElem?_getD, List.getElem?_append]
  by_cases h : i < l.length
  · rw [if_pos h]
    have : i ≠ l.length := by omega
    simp [this]
  · rw [if_neg h, List.getElem?_eq_none (l := l) (by omega)]
    by_cases h2 : i = l.length
    · subst h2; simp [hi]
    · rw [List.getElem?_eq_none (by simp; omega)]
      simp [h2]

/-- A 0 bit at the end changes nothing. -/
theorem maskOf_append_false {n : Nat} (l : List Bool) : maskOf n (l ++ [false]) = maskOf n l := by
  rw [← maskOf_putBit]
  simp [putBit]

theorem maskOf_append_falses {n : Nat} (l : List Bool) (k : Nat) : maskOf n (l ++ List.replicate k false) = maskOf n l := by
  induction k with
  | zero => simp
  | succ k ih => rw [List.replicate_succ', ← List.append_assoc, maskOf_append_false, ih]

end Sys2Proof.Machine
end

