-- ==== Sys2Proof/Laws/Run.lean ====
section
/-! SUPPORT. Laws/Run.lean: what the computations of the phases can do to a running command. Each of them changes the staging copy and
the phase only, and none raises UnsupportedPath. -/

namespace Sys2Proof.Machine

/-- `r'` is `r` with another staging copy and another phase. -/
def Keeps (r r' : Run) : Prop := ∃ S p, r' = { r with staged := S, phase := p }

theorem Keeps.refl (r : Run) : Keeps r r := ⟨r.staged, r.phase, rfl⟩

theorem Keeps.trans {r r' r'' : Run} (h : Keeps r r') (h' : Keeps r' r'') : Keeps r r'' := by
  obtain ⟨S, p, rfl⟩ := h
  obtain ⟨S', p', rfl⟩ := h'
  exact ⟨S', p', rfl⟩

theorem Keeps.cmd {r r' : Run} (h : Keeps r r') : r'.cmd = r.cmd := by obtain ⟨S, p, rfl⟩ := h; rfl
theorem Keeps.arg {r r' : Run} (h : Keeps r r') : r'.arg = r.arg := by obtain ⟨S, p, rfl⟩ := h; rfl
theorem Keeps.posStart {r r' : Run} (h : Keeps r r') : r'.posStart = r.posStart := by obtain ⟨S, p, rfl⟩ := h; rfl
theorem Keeps.pos {r r' : Run} (h : Keeps r r') : r'.pos = r.pos := by obtain ⟨S, p, rfl⟩ := h; rfl
theorem Keeps.reqs {r r' : Run} (h : Keeps r r') : r'.reqs = r.reqs := by obtain ⟨S, p, rfl⟩ := h; rfl
theorem Keeps.changed {r r' : Run} (h : Keeps r r') : r'.changed = r.changed := by obtain ⟨S, p, rfl⟩ := h; rfl
theorem Keeps.lenChanged {r r' : Run} (h : Keeps r r') : r'.lenChanged = r.lenChanged := by
  obtain ⟨S, p, rfl⟩ := h; rfl
theorem Keeps.block {r r' : Run} (h : Keeps r r') : r'.block = r.block := by obtain ⟨S, p, rfl⟩ := h; rfl
theorem Keeps.count {r r' : Run} (h : Keeps r r') : r'.count = r.count := by obtain ⟨S, p, rfl⟩ := h; rfl
theorem Keeps.isCabac {r r' : Run} (h : Keeps r r') : r'.isCabac = r.isCabac := by obtain ⟨S, p, rfl⟩ := h; rfl

theorem keeps_goto (p : Phase) (r : Run) : Keeps r (r.goto p) := ⟨r.staged, p, rfl⟩
theorem keeps_raise (e : ErrorKind) (r : Run) : Keeps r (r.raise e) := ⟨r.staged, .abort e, rfl⟩
theorem keeps_stage (f : Results → Results) (r : Run) : Keeps r (r.stage f) := ⟨f r.staged, r.phase, rfl⟩
theorem keeps_finishBits (r : Run) : Keeps r r.finishBits := ⟨_, _, rfl⟩

/-- The phases a computation can lead to: never an abort with UnsupportedPath (R128), and never back to the legality check
(R130). -/
def Phase.legal : Phase → Prop
  | .abort e => e ≠ .unsupportedPath
  | .check _ => False
  | .bit _ => True
  | .bin _ => True
  | .place _ _ => True
  | .commit => True

/-- What a phase's computation answers. -/
def Goes (r r' : Run) : Prop := Keeps r r' ∧ r'.phase.legal

theorem goes_goto {p : Phase} (r : Run) (h : p.legal) : Goes r (r.goto p) := ⟨keeps_goto p r, h⟩

theorem goes_raise {e : ErrorKind} (r : Run) (h : e ≠ .unsupportedPath) : Goes r (r.raise e) := ⟨keeps_raise e r, h⟩

theorem goes_finishBits (r : Run) : Goes r r.finishBits := ⟨keeps_finishBits r, trivial⟩

theorem Goes.of_stage {f : Results → Results} {r r' : Run} (h : Goes (r.stage f) r') : Goes r r' :=
  ⟨(keeps_stage f r).trans h.1, h.2⟩

theorem goes_egDone (kind : EgKind) (zeros suffix : Nat) (r : Run) : Goes r (egDone kind zeros suffix r) :=
  (goes_finishBits _).of_stage

theorem goes_afterEgZeros (kind : EgKind) (zeros : Nat) (b : Bool) (r : Run) :
    Goes r (afterEgZeros kind zeros b r) := by
  unfold afterEgZeros
  split
  · split
    · exact goes_egDone _ _ _ _
    · exact goes_goto _ trivial
  · split
    · exact goes_raise _ (by decide)
    · exact goes_goto _ trivial

theorem goes_afterEgSuffix (kind : EgKind) (zeros left acc : Nat) (b : Bool) (r : Run) :
    Goes r (afterEgSuffix kind zeros left acc b r) := by
  unfold afterEgSuffix
  split
  · exact goes_egDone _ _ _ _
  · exact goes_goto _ trivial

theorem goes_afterTeBit (b : Bool) (r : Run) : Goes r (afterTeBit b r) := (goes_finishBits _).of_stage

theorem goes_nextRun (i zl : Nat) (r : Run) : Goes r (nextRun i zl r) := by
  unfold nextRun
  split
  · exact goes_goto _ trivial
  · exact (goes_goto (p := .place r.tc (-1)) _ trivial).of_stage

theorem goes_withTotalZeros (tz : Nat) (r : Run) : Goes r (withTotalZeros tz r) := by
  unfold withTotalZeros
  split
  · exact goes_raise _ (by decide)
  · exact (goes_nextRun _ _ _).of_stage

theorem goes_afterRunBefore (i zl : Nat) (code : List Bool) (b : Bool) (r : Run) :
    Goes r (afterRunBefore i zl code b r) := by
  unfold afterRunBefore
  split
  · exact goes_goto _ trivial
  · exact goes_raise _ (by decide)
  · dsimp only
    split
    · exact (goes_raise _ (by decide)).of_stage
    · exact (goes_nextRun _ _ _).of_stage.of_stage

theorem goes_placeStep (left : Nat) (c : Int) (r : Run) : Goes r (placeStep left c r) := by
  unfold placeStep
  split
  · exact (goes_finishBits _).of_stage
  · exact Goes.of_stage (goes_goto _ (by trivial))

theorem goes_afterTotalZeros (code : List Bool) (b : Bool) (r : Run) : Goes r (afterTotalZeros code b r) := by
  unfold afterTotalZeros
  split
  · exact goes_goto _ trivial
  · exact goes_raise _ (by decide)
  · exact goes_withTotalZeros _ _

theorem goes_nextLevel (i sl : Nat) (r : Run) : Goes r (nextLevel i sl r) := by
  unfold nextLevel
  split
  · split
    · exact goes_goto _ trivial
    · exact goes_goto _ trivial
  · split
    · exact goes_goto _ trivial
    · exact goes_withTotalZeros _ _

theorem goes_afterTrailingOne (i sl : Nat) (b : Bool) (r : Run) : Goes r (afterTrailingOne i sl b r) :=
  (goes_nextLevel _ _ _).of_stage

theorem goes_levelDone (i sl p suf : Nat) (r : Run) : Goes r (levelDone i sl p suf r) :=
  (goes_nextLevel _ _ _).of_stage

theorem goes_afterLevelZeros (i sl zeros : Nat) (b : Bool) (r : Run) : Goes r (afterLevelZeros i sl zeros b r) := by
  unfold afterLevelZeros
  split
  · dsimp only
    split
    · exact (goes_levelDone _ _ _ _ _).of_stage
    · exact Goes.of_stage (goes_goto _ (by trivial))
  · split
    · exact goes_raise _ (by decide)
    · exact goes_goto _ trivial

theorem goes_afterLevelSuffix (i sl zeros left acc : Nat) (b : Bool) (r : Run) :
    Goes r (afterLevelSuffix i sl zeros left acc b r) := by
  unfold afterLevelSuffix
  split
  · exact goes_levelDone _ _ _ _ _
  · exact goes_goto _ trivial

theorem goes_withToken (tc t1 : Nat) (r : Run) : Goes r (withToken tc t1 r) := by
  unfold withToken
  split
  · exact goes_raise _ (by decide)
  · dsimp only
    split
    · exact (goes_finishBits _).of_stage
    · exact (goes_nextLevel _ _ _).of_stage

theorem goes_afterCoeffToken (code : List Bool) (b : Bool) (r : Run) : Goes r (afterCoeffToken code b r) := by
  unfold afterCoeffToken
  split
  · exact goes_goto _ trivial
  · exact goes_raise _ (by decide)
  · exact goes_withToken _ _ _

theorem goes_finishCabac (r : Run) : Goes r (finishCabac r) := (goes_goto (p := .commit) _ trivial).of_stage

theorem goes_nextCoef (n g e : Nat) (r : Run) : Goes r (nextCoef n g e r) := by
  unfold nextCoef
  split
  · exact goes_goto _ trivial
  · exact goes_finishCabac _

theorem goes_afterSign (i v g e : Nat) (b : Bool) (r : Run) : Goes r (afterSign i v g e b r) :=
  (goes_nextCoef _ _ _ _).of_stage

theorem goes_afterAbsUnary (i bin g e : Nat) (b : Bool) (r : Run) : Goes r (afterAbsUnary i bin g e b r) := by
  unfold afterAbsUnary
  split
  · split <;> exact goes_goto _ trivial
  · exact goes_goto _ trivial

theorem goes_afterSufUnary (i k suf g e : Nat) (b : Bool) (r : Run) : Goes r (afterSufUnary i k suf g e b r) := by
  unfold afterSufUnary
  split
  · split
    · exact goes_raise _ (by decide)
    · exact goes_goto _ trivial
  · split <;> exact goes_goto _ trivial

theorem goes_afterSufBits (i k suf g e : Nat) (b : Bool) (r : Run) : Goes r (afterSufBits i k suf g e b r) := by
  unfold afterSufBits
  dsimp only
  split <;> exact goes_goto _ trivial

theorem goes_finalPosition (fin : Nat) (r : Run) : Goes r (finalPosition fin r) := (goes_nextCoef _ _ _ _).of_stage

theorem goes_scanFrom (i n : Nat) (r : Run) : Goes r (scanFrom i n r) := by
  unfold scanFrom
  split
  · exact goes_goto _ trivial
  · exact goes_finalPosition _ _

theorem goes_afterSignificant (i n : Nat) (b : Bool) (r : Run) : Goes r (afterSignificant i n b r) := by
  unfold afterSignificant
  split
  · exact (goes_goto (p := .bin (.last i n)) _ trivial).of_stage
  · exact goes_scanFrom _ _ _

theorem goes_afterLast (i n : Nat) (b : Bool) (r : Run) : Goes r (afterLast i n b r) := by
  unfold afterLast
  split
  · exact (goes_scanFrom _ _ _).of_stage
  · exact goes_scanFrom _ _ _

theorem goes_withCbf (b : Bool) (r : Run) : Goes r (withCbf b r) := by
  unfold withCbf
  dsimp only
  split
  · exact (goes_scanFrom _ _ _).of_stage
  · exact (goes_finishCabac _).of_stage

theorem goes_beginCabac (rule : CbfRule) (r : Run) : Goes r (beginCabac rule r) := by
  unfold beginCabac
  split
  · exact goes_withCbf _ _
  · exact goes_goto _ trivial

theorem goes_beginCommand (rule : CbfRule) (i : Instr) (r : Run) : Goes r (beginCommand rule i r) := by
  cases i with
  | readUe => exact goes_goto _ trivial
  | readSe => exact goes_goto _ trivial
  | readTe =>
    show Goes r (beginReadTe r)
    unfold beginReadTe
    split <;> exact goes_goto _ trivial
  | readCe => exact goes_goto _ trivial
  | cavlcBlock _ _ _ _ => exact goes_goto _ trivial
  | cabacBlock _ _ _ _ _ => exact goes_beginCabac _ _

theorem goes_checkCommand (rule : CbfRule) (c : Option Instr) (r : Run) : Goes r (checkCommand rule c r) := by
  unfold checkCommand
  split
  · exact goes_raise _ (by decide)
  · split
    · exact goes_beginCommand _ _ _
    · exact goes_raise _ (by decide)

theorem goes_afterBit (p : BitPhase) (b : Bool) (r : Run) : Goes r (afterBit p b r) := by
  cases p with
  | egZeros kind zeros => exact goes_afterEgZeros _ _ _ _
  | egSuffix kind zeros left acc => exact goes_afterEgSuffix _ _ _ _ _ _
  | teBit => exact goes_afterTeBit _ _
  | coeffToken code => exact goes_afterCoeffToken _ _ _
  | trailingOne i sl => exact goes_afterTrailingOne _ _ _ _
  | levelZeros i sl zeros => exact goes_afterLevelZeros _ _ _ _ _
  | levelSuffix i sl zeros left acc => exact goes_afterLevelSuffix _ _ _ _ _ _ _
  | totalZeros code => exact goes_afterTotalZeros _ _ _
  | runBefore i zl code => exact goes_afterRunBefore _ _ _ _ _

theorem goes_afterBin (p : BinPhase) (b : Bool) (r : Run) : Goes r (afterBin p b r) := by
  cases p with
  | codedBlockFlag => exact goes_withCbf _ _
  | significant i n => exact goes_afterSignificant _ _ _ _
  | last i n => exact goes_afterLast _ _ _ _
  | absUnary i bin g e => exact goes_afterAbsUnary _ _ _ _ _ _
  | sufUnary i k suf g e => exact goes_afterSufUnary _ _ _ _ _ _ _
  | sufBits i k suf g e => exact goes_afterSufBits _ _ _ _ _ _ _
  | sign i v g e => exact goes_afterSign _ _ _ _ _ _

end Sys2Proof.Machine
end

