-- ==== Sys2Proof/Laws/CoreStep.lean ====
section
/-! SUPPORT. Laws/CoreStep.lean: everything one Core step can do (`coreStep_cases`), and `runCore` as an iteration of it. -/

namespace Sys2Proof.Machine

/-- A Core step, once and for all. Idle: nothing. Else one of: a computation that changes the staging copy and the phase; the end of
the stream; a bit read; a request answered EXHAUSTED; a bin answered; a wait for the Engine; a commit; an abort. -/
theorem coreStep_cases (s : State) :
    (s.run = none ∧ coreStep s = s)
    ∨ ∃ r, s.run = some r ∧
      ((∃ r', Goes r r' ∧ coreStep s = { s with run := some r' })
      ∨ (∃ p, r.phase = .bit p ∧ (bitAt s r).1 = none
          ∧ coreStep s = { s with draws := s.draws + (bitAt s r).2, run := some (r.raise .streamExhausted) })
      ∨ (∃ p b, r.phase = .bit p ∧ (bitAt s r).1 = some b
          ∧ coreStep s = { s with
              draws := s.draws + (bitAt s r).2, run := some (afterBit p b { r with pos := r.pos + 1 }) })
      ∨ (∃ p, r.phase = .bin p ∧ s.engine.answers = [] ∧ coreStep s = s)
      ∨ (∃ p rest, r.phase = .bin p ∧ s.engine.answers = .exhausted :: rest
          ∧ coreStep s = { s with
              engine := ⟨rest, s.engine.requests ++ [requestOf p r]⟩
              run := some (Run.raise .streamExhausted { r with reqs := r.reqs + 1 }) })
      ∨ (∃ p b rest, r.phase = .bin p ∧ s.engine.answers = .bin b :: rest
          ∧ coreStep s = { s with
              engine := ⟨rest, s.engine.requests ++ [requestOf p r]⟩
              run := some (afterBin p b { r with reqs := r.reqs + 1 }) })
      ∨ (r.phase = .commit ∧ coreStep s = commitRun s r)
      ∨ ∃ e, r.phase = .abort e ∧ coreStep s = abortRun e s r) := by
  cases h : s.run with
  | none => exact .inl ⟨rfl, by simp [coreStep, h]⟩
  | some r =>
    refine .inr ⟨r, rfl, ?_⟩
    have hs : coreStep s = runStep s r := by simp [coreStep, h]
    rw [hs]
    cases hp : r.phase with
    | check c => exact .inl ⟨_, goes_checkCommand s.cbfRule c r, by simp [runStep, hp]⟩
    | bit p =>
      refine .inr ?_
      have hb : runStep s r = bitStep p s r := by simp [runStep, hp]
      rw [hb, bitStep]
      cases ha : bitAt s r with
      | mk b d =>
        cases b with
        | none => exact .inl ⟨p, rfl, rfl, rfl⟩
        | some b => exact .inr (.inl ⟨p, b, rfl, rfl, rfl⟩)
    | bin p =>
      refine .inr (.inr (.inr ?_))
      have hb : runStep s r = binStep p s r := by simp [runStep, hp]
      rw [hb, binStep]
      cases ha : s.engine.answers with
      | nil => exact .inl ⟨p, rfl, rfl, rfl⟩
      | cons a rest =>
        cases a with
        | exhausted => exact .inr (.inl ⟨p, rest, rfl, rfl, rfl⟩)
        | bin b => exact .inr (.inr (.inl ⟨p, b, rest, rfl, rfl, rfl⟩))
    | place n c => exact .inl ⟨_, goes_placeStep n c r, by simp [runStep, hp]⟩
    | commit =>
      exact .inr (.inr (.inr (.inr (.inr (.inr (.inl ⟨rfl, by simp [runStep, hp]⟩))))))
    | abort e =>
      exact .inr (.inr (.inr (.inr (.inr (.inr (.inr ⟨e, rfl, by simp [runStep, hp]⟩))))))

/-! ### Steps by phase -/

theorem coreStep_idle {s : State} (h : s.run = none) : coreStep s = s := by simp [coreStep, h]

theorem coreStep_check {s : State} {r : Run} {c : Option Instr} (h : s.run = some r) (hp : r.phase = .check c) :
    coreStep s = { s with run := some (checkCommand s.cbfRule c r) } := by
  simp [coreStep, h, runStep, hp]

theorem coreStep_place {s : State} {r : Run} {n : Nat} {c : Int} (h : s.run = some r) (hp : r.phase = .place n c) :
    coreStep s = { s with run := some (placeStep n c r) } := by
  simp [coreStep, h, runStep, hp]

theorem coreStep_commit {s : State} {r : Run} (h : s.run = some r) (hp : r.phase = .commit) :
    coreStep s = commitRun s r := by
  simp [coreStep, h, runStep, hp]

theorem coreStep_abort {s : State} {r : Run} {e : ErrorKind} (h : s.run = some r) (hp : r.phase = .abort e) :
    coreStep s = abortRun e s r := by
  simp [coreStep, h, runStep, hp]

theorem coreStep_bin {s : State} {r : Run} {p : BinPhase} {b : Bool} {rest : List Answer} (h : s.run = some r)
    (hp : r.phase = .bin p) (ha : s.engine.answers = .bin b :: rest) :
    coreStep s = { s with
      engine := ⟨rest, s.engine.requests ++ [requestOf p r]⟩
      run := some (afterBin p b { r with reqs := r.reqs + 1 }) } := by
  simp [coreStep, h, runStep, hp, binStep, ha]

theorem coreStep_exhausted {s : State} {r : Run} {p : BinPhase} {rest : List Answer} (h : s.run = some r)
    (hp : r.phase = .bin p) (ha : s.engine.answers = .exhausted :: rest) :
    coreStep s = { s with
      engine := ⟨rest, s.engine.requests ++ [requestOf p r]⟩
      run := some (Run.raise .streamExhausted { r with reqs := r.reqs + 1 }) } := by
  simp [coreStep, h, runStep, hp, binStep, ha]

theorem coreStep_waits {s : State} {r : Run} {p : BinPhase} (h : s.run = some r) (hp : r.phase = .bin p)
    (ha : s.engine.answers = []) : coreStep s = s := by
  simp [coreStep, h, runStep, hp, binStep, ha]

/-- A bit read where nothing has changed since the command started is the stream's (R9, R48). -/
theorem bitAt_stable {s : State} {r : Run} (hs : s.bits.length ≤ Config.maxBsLen) (hc : r.changed = [])
    (hl : r.lenChanged = false) : bitAt s r = (s.bits[r.pos]?, 0) := by
  unfold bitAt
  split
  · rw [List.getElem?_eq_none (by omega)]
  · simp [hc, hl]

theorem coreStep_bit {s : State} {r : Run} {p : BitPhase} {b : Bool} (h : s.run = some r) (hp : r.phase = .bit p)
    (hs : s.bits.length ≤ Config.maxBsLen) (hc : r.changed = []) (hl : r.lenChanged = false)
    (hb : s.bits[r.pos]? = some b) :
    coreStep s = { s with run := some (afterBit p b { r with pos := r.pos + 1 }) } := by
  have := bitAt_stable hs hc hl
  simp [coreStep, h, runStep, hp, bitStep, this, hb]

theorem coreStep_endOfStream {s : State} {r : Run} {p : BitPhase} (h : s.run = some r) (hp : r.phase = .bit p)
    (hs : s.bits.length ≤ Config.maxBsLen) (hc : r.changed = []) (hl : r.lenChanged = false)
    (hb : s.bits[r.pos]? = none) :
    coreStep s = { s with run := some (r.raise .streamExhausted) } := by
  have := bitAt_stable hs hc hl
  simp [coreStep, h, runStep, hp, bitStep, this, hb]

/-! ### `runCore` -/

theorem stalled_iff (s : State) :
    stalled s = true ↔ s.run = none ∨ ∃ r p, s.run = some r ∧ r.phase = .bin p ∧ s.engine.answers = [] := by
  unfold stalled waiting State.busy
  cases h : s.run with
  | none => simp
  | some r => cases hp : r.phase <;> simp [hp]

/-- No Core step is enabled in a stalled machine. -/
theorem coreStep_stalled {s : State} (h : stalled s = true) : coreStep s = s := by
  rcases (stalled_iff s).1 h with h | ⟨r, p, h, hp, ha⟩
  · exact coreStep_idle h
  · exact coreStep_waits h hp ha

theorem runCore_stalled {s : State} (h : stalled s = true) (n : Nat) : runCore n s = s := by
  cases n <;> simp [runCore, h]

theorem iterate_stalled {s : State} (h : stalled s = true) (n : Nat) : coreStep^[n] s = s := by
  induction n with
  | zero => rfl
  | succ n ih => rw [Function.iterate_succ_apply, coreStep_stalled h, ih]

/-- Stopping early makes no difference: `runCore` iterates the Core step. -/
theorem runCore_eq_iterate (n : Nat) (s : State) : runCore n s = coreStep^[n] s := by
  induction n generalizing s with
  | zero => rfl
  | succ n ih =>
    rw [runCore]
    split
    · rename_i h
      rw [iterate_stalled h]
    · rw [ih, Function.iterate_succ_apply]

/-- A run that stalls after `k` of its `n` steps stands where those `k` steps leave it. -/
theorem runCore_of_stall {s : State} {k n : Nat} (hk : k ≤ n) (h : stalled (coreStep^[k] s) = true) :
    runCore n s = coreStep^[k] s := by
  obtain ⟨m, rfl⟩ := Nat.exists_eq_add_of_le hk
  rw [runCore_eq_iterate, Nat.add_comm, Function.iterate_add_apply, iterate_stalled h]

/-- Whatever a predicate of states says at the start and every Core step keeps, it says of the end of a run. -/
theorem runCore_induction {P : State → Prop} (hstep : ∀ s, P s → P (coreStep s)) {s : State} (h : P s) (n : Nat) :
    P (runCore n s) := by
  induction n generalizing s with
  | zero => exact h
  | succ n ih =>
    rw [runCore]
    split
    · exact h
    · exact ih (hstep _ h)

/-- A command started while idle. -/
theorem runCommand_idle {s : State} (h : s.run = none) (w : Word) (c : Option Instr) :
    runCommand w c s = runCore Config.coreBudget (startCommand w c s) := by
  simp [runCommand, State.busy, h]

/-- A command written while another runs is dropped (R21). -/
theorem runCommand_busy {s : State} (h : s.run ≠ none) (w : Word) (c : Option Instr) :
    runCommand w c s = dropWrite s := by
  simp [runCommand, State.busy, Option.isSome_iff_ne_none.2 h]

end Sys2Proof.Machine
end

