-- ==== Sys2Proof/Laws/Reads.lean ====
section
/-! SUPPORT. Laws/Reads.lean: a running command fed with bits (`Reads`) or with bins (`Asks`), apart from the machine, and the Core
steps that correspond to it. A statement about what a command decodes is proved on `Reads` or `Asks` and carried to the
machine by `Reads.iterate` or `Asks.iterate`. -/

namespace Sys2Proof.Machine

/-- The command `r` reads the bits `l`, one a step, and stands at `r'` after them (R9, R59). -/
inductive Reads : Run → List Bool → Run → Prop where
  | nil (r : Run) : Reads r [] r
  | cons {r r' : Run} {p : BitPhase} {b : Bool} {l : List Bool} (hp : r.phase = .bit p)
      (h : Reads (afterBit p b { r with pos := r.pos + 1 }) l r') : Reads r (b :: l) r'

theorem Reads.append {r r' r'' : Run} {l l' : List Bool} (h : Reads r l r') (h' : Reads r' l' r'') :
    Reads r (l ++ l') r'' := by
  induction h with
  | nil r => exact h'
  | cons hp _ ih => exact .cons hp (ih h')

theorem Reads.one {r : Run} {p : BitPhase} (hp : r.phase = .bit p) (b : Bool) :
    Reads r [b] (afterBit p b { r with pos := r.pos + 1 }) := .cons hp (.nil _)

/-- Reading changes the working position, the staging copy and the phase only. -/
theorem Reads.keeps {r r' : Run} {l : List Bool} (h : Reads r l r') :
    ∃ S p, r' = { r with pos := r.pos + l.length, staged := S, phase := p } := by
  induction h with
  | nil r => exact ⟨r.staged, r.phase, rfl⟩
  | @cons r r' p b l hp _ ih =>
    obtain ⟨S, q, h⟩ := ih
    obtain ⟨S1, p1, h1⟩ := (goes_afterBit p b { r with pos := r.pos + 1 }).1
    rw [h1] at h
    refine ⟨S, q, ?_⟩
    rw [h, List.length_cons]
    congr 1
    show r.pos + 1 + l.length = r.pos + (l.length + 1)
    omega

theorem Reads.pos {r r' : Run} {l : List Bool} (h : Reads r l r') : r'.pos = r.pos + l.length := by
  obtain ⟨S, p, rfl⟩ := h.keeps; rfl
theorem Reads.posStart {r r' : Run} {l : List Bool} (h : Reads r l r') : r'.posStart = r.posStart := by
  obtain ⟨S, p, rfl⟩ := h.keeps; rfl
theorem Reads.cmd {r r' : Run} {l : List Bool} (h : Reads r l r') : r'.cmd = r.cmd := by
  obtain ⟨S, p, rfl⟩ := h.keeps; rfl
theorem Reads.arg {r r' : Run} {l : List Bool} (h : Reads r l r') : r'.arg = r.arg := by
  obtain ⟨S, p, rfl⟩ := h.keeps; rfl
theorem Reads.changed {r r' : Run} {l : List Bool} (h : Reads r l r') : r'.changed = r.changed := by
  obtain ⟨S, p, rfl⟩ := h.keeps; rfl
theorem Reads.lenChanged {r r' : Run} {l : List Bool} (h : Reads r l r') : r'.lenChanged = r.lenChanged := by
  obtain ⟨S, p, rfl⟩ := h.keeps; rfl

/-- A reading cut short stands in a phase that reads a bit. -/
theorem Reads.cut {r r' : Run} {l : List Bool} {b : Bool} {l' : List Bool} (h : Reads r (l ++ b :: l') r') :
    ∃ r1 p, Reads r l r1 ∧ r1.phase = .bit p := by
  induction l generalizing r with
  | nil =>
    cases h with
    | cons hp _ => exact ⟨r, _, .nil r, hp⟩
  | cons c l ih =>
    cases h with
    | cons hp h =>
      obtain ⟨r1, p, h1, hp1⟩ := ih h
      exact ⟨r1, p, .cons hp h1, hp1⟩

/-- What the stream holds at the working position, where it begins with these bits. -/
theorem getElem_of_prefix {bits l : List Bool} {b : Bool} {p : Nat} (h : (b :: l) <+: bits.drop p) :
    bits[p]? = some b ∧ l <+: bits.drop (p + 1) := by
  obtain ⟨t, ht⟩ := h
  have h0 : (bits.drop p)[0]? = some b := by rw [← ht]; rfl
  refine ⟨by simpa using h0, t, ?_⟩
  have h1 : (bits.drop p).drop 1 = l ++ t := by rw [← ht]; rfl
  rw [← h1, List.drop_drop]

/-- Reading bits that stand in a stable stream is as many Core steps. -/
theorem Reads.iterate {r r' : Run} {l : List Bool} (h : Reads r l r') (s : State)
    (hs : s.bits.length ≤ Config.maxBsLen) (hc : r.changed = []) (hl : r.lenChanged = false)
    (hb : l <+: s.bits.drop r.pos) :
    coreStep^[l.length] { s with run := some r } = { s with run := some r' } := by
  induction h generalizing s with
  | nil r => rfl
  | @cons r r' p b l hp h ih =>
    obtain ⟨h0, h1⟩ := getElem_of_prefix hb
    have hk := (goes_afterBit p b { r with pos := r.pos + 1 }).1
    rw [List.length_cons, Function.iterate_succ_apply,
      coreStep_bit (s := { s with run := some r }) rfl hp hs hc hl h0]
    exact ih s hs (hk.changed.trans hc) (hk.lenChanged.trans hl) (by rw [hk.pos]; exact h1)

/-- The command `r` issues the requests `qs`, answered by the bins `bs`, one a step, and stands at `r'` after them (R10, R59). -/
inductive Asks : Run → List Bool → List Request → Run → Prop where
  | nil (r : Run) : Asks r [] [] r
  | cons {r r' : Run} {p : BinPhase} {b : Bool} {bs : List Bool} {qs : List Request} (hp : r.phase = .bin p)
      (h : Asks (afterBin p b { r with reqs := r.reqs + 1 }) bs qs r') : Asks r (b :: bs) (requestOf p r :: qs) r'

theorem Asks.append {r r' r'' : Run} {bs bs' : List Bool} {qs qs' : List Request} (h : Asks r bs qs r')
    (h' : Asks r' bs' qs' r'') : Asks r (bs ++ bs') (qs ++ qs') r'' := by
  induction h with
  | nil r => exact h'
  | cons hp _ ih => exact .cons hp (ih h')

theorem Asks.one {r : Run} {p : BinPhase} (hp : r.phase = .bin p) (b : Bool) :
    Asks r [b] [requestOf p r] (afterBin p b { r with reqs := r.reqs + 1 }) := .cons hp (.nil _)

theorem Asks.length {r r' : Run} {bs : List Bool} {qs : List Request} (h : Asks r bs qs r') :
    bs.length = qs.length := by
  induction h with
  | nil r => rfl
  | cons _ _ ih => simp [ih]

/-- Asking changes the request count, the staging copy and the phase only. -/
theorem Asks.keeps {r r' : Run} {bs : List Bool} {qs : List Request} (h : Asks r bs qs r') :
    ∃ S p, r' = { r with reqs := r.reqs + qs.length, staged := S, phase := p } := by
  induction h with
  | nil r => exact ⟨r.staged, r.phase, rfl⟩
  | @cons r r' p b bs qs hp _ ih =>
    obtain ⟨S, q, h⟩ := ih
    obtain ⟨S1, p1, h1⟩ := (goes_afterBin p b { r with reqs := r.reqs + 1 }).1
    rw [h1] at h
    refine ⟨S, q, ?_⟩
    rw [h, List.length_cons]
    congr 1
    show r.reqs + 1 + qs.length = r.reqs + (qs.length + 1)
    omega

theorem Asks.reqs {r r' : Run} {bs : List Bool} {qs : List Request} (h : Asks r bs qs r') :
    r'.reqs = r.reqs + qs.length := by
  obtain ⟨S, p, rfl⟩ := h.keeps; rfl
theorem Asks.pos {r r' : Run} {bs : List Bool} {qs : List Request} (h : Asks r bs qs r') : r'.pos = r.pos := by
  obtain ⟨S, p, rfl⟩ := h.keeps; rfl
theorem Asks.cmd {r r' : Run} {bs : List Bool} {qs : List Request} (h : Asks r bs qs r') : r'.cmd = r.cmd := by
  obtain ⟨S, p, rfl⟩ := h.keeps; rfl

/-- A request is the same whatever the staging copy, the phase and the request count hold. -/
theorem requestOf_keeps (p : BinPhase) {r r' : Run} (h : r'.cmd = r.cmd) : requestOf p r' = requestOf p r := by
  have hb : r'.block = r.block := by simp [Run.block, h]
  cases p <;> simp [requestOf, hb]

/-- Asking an Engine that gives these bins is as many Core steps. -/
theorem Asks.iterate {r r' : Run} {bs : List Bool} {qs : List Request} (h : Asks r bs qs r') (s : State)
    (rest : List Answer) (ha : s.engine.answers = bs.map .bin ++ rest) :
    coreStep^[bs.length] { s with run := some r }
      = { s with run := some r', engine := ⟨rest, s.engine.requests ++ qs⟩ } := by
  induction h generalizing s with
  | nil r =>
    simp only [List.map_nil, List.nil_append] at ha
    simp [← ha]
  | @cons r r' p b bs qs hp h ih =>
    rw [List.length_cons, Function.iterate_succ_apply,
      coreStep_bin (s := { s with run := some r }) rfl hp (by simpa using ha)]
    have := ih { s with engine := ⟨bs.map .bin ++ rest, s.engine.requests ++ [requestOf p r]⟩ } rfl
    simpa using this

end Sys2Proof.Machine
end

