-- ==== Sys2Proof/Laws/Commands.lean ====
section
/-! SUPPORT. Laws/Commands.lean: a whole command from its start: what it leaves once its bits or bins are known. -/

namespace Sys2Proof.Machine

/-- A command that stalls after `k` Core steps from its start leaves what they leave. -/
theorem runCommand_of_iterate {s : State} (h : s.run = none) {w : Word} {c : Option Instr} {k : Nat} {t : State}
    (hk : k ≤ Config.coreBudget) (ht : coreStep^[k] (startCommand w c s) = t) (hst : stalled t = true) :
    runCommand w c s = t := by
  rw [runCommand_idle h, runCore_of_stall hk (by rw [ht]; exact hst), ht]

theorem stalled_of_idle {s : State} (h : s.run = none) : stalled s = true := (stalled_iff s).2 (.inl h)

/-- The internal state of a command whose legality check has passed. -/
def begunRun (w : Word) (i : Instr) (s : State) : Run :=
  beginCommand s.cbfRule i (freshRun w (some i) s)

theorem keeps_begunRun (w : Word) (i : Instr) (s : State) : Keeps (freshRun w (some i) s) (begunRun w i s) :=
  (goes_beginCommand _ _ _).1

/-- The first Core step of a legal command. -/
theorem coreStep_start_legal {s : State} {w : Word} {i : Instr} (hl : legal i s.arg = true) :
    coreStep (startCommand w (some i) s) = { startCommand w (some i) s with run := some (begunRun w i s) } := by
  rw [coreStep_check (startCommand_run w (some i) s) rfl]
  have : checkCommand s.cbfRule (some i) (freshRun w (some i) s) = begunRun w i s := by
    simp [checkCommand, freshRun, hl, begunRun]
  simp [this]

/-- An illegal word or command ends with InvalidCommand after its check (R68, R69, R132): only CMD and STATUS change. -/
theorem runCommand_illegal {s : State} (h : s.run = none) {w : Word} {c : Option Instr}
    (hc : ∀ i, c = some i → legal i s.arg = false) :
    runCommand w c s = abortedKeepingPos w .invalidCommand s := by
  refine runCommand_of_iterate h (k := 2) (by decide) ?_ (stalled_of_idle rfl)
  have h1 : coreStep (startCommand w c s)
      = { startCommand w c s with run := some ((freshRun w c s).raise .invalidCommand) } := by
    rw [coreStep_check (startCommand_run w c s) rfl]
    have : checkCommand s.cbfRule c (freshRun w c s) = (freshRun w c s).raise .invalidCommand := by
      cases c with
      | none => rfl
      | some i => simp [checkCommand, freshRun, hc i rfl]
    simp [this]
  rw [Function.iterate_succ_apply, h1, Function.iterate_one,
    coreStep_abort (r := (freshRun w c s).raise .invalidCommand) rfl rfl]
  simp [abortRun, keepsPos, abortedKeepingPos, statusAbort, startCommand, freshRun, statusStart]

/-- A legal command that reads `l` from its first phase and then commits (after `m` placement steps, which take no bit) leaves the
committed state (R12, R132). -/
theorem runCommand_reads {s : State} (h : s.run = none) (hs : s.streamFits) {w : Word} {i : Instr} {l : List Bool}
    {r r' : Run} {m : Nat} (hl : legal i s.arg = true) (hr : Reads (begunRun w i s) l r) (hb : s.streamHas l)
    (hm : ∀ u : State, coreStep^[m] { u with run := some r } = { u with run := some r' })
    (hk : r'.pos = r.pos) (hp : r'.phase = .commit) (hn : l.length + m + 2 ≤ Config.coreBudget) :
    runCommand w (some i) s = committed w r'.staged l.length s := by
  have hkeep := keeps_begunRun w i s
  have hpos : r'.pos = s.pos.toNat + l.length := by rw [hk, hr.pos, hkeep.pos]; rfl
  refine runCommand_of_iterate h (k := 1 + (m + (l.length + 1))) (by omega) ?_ (stalled_of_idle rfl)
  rw [Function.iterate_add_apply, Function.iterate_add_apply, Function.iterate_add_apply, Function.iterate_one,
    coreStep_start_legal hl]
  rw [hr.iterate (startCommand w (some i) s) hs hkeep.changed hkeep.lenChanged
      (by rw [hkeep.pos]; exact hb), hm, coreStep_commit (r := r') rfl hp]
  simp [commitRun, committed, statusCommit, startCommand, statusStart, hpos]

/-- The range of an abort's draw (R132). -/
theorem drawPos_range (n lo len : Nat) : lo ≤ drawPos n lo len ∧ drawPos n lo len ≤ max lo len := by
  unfold drawPos
  have h : 0 < max lo len + 1 - lo := by omega
  have := Nat.mod_lt (Config.freePos n) h
  omega

/-- An abort of a command that started at `s` is an aborted read: POS keeps POS_start or lies in its range (R132). -/
theorem abortRun_abortedRead {s : State} (hs : s.streamFits) {w : Word} {c : Option Instr} {r : Run} (e : ErrorKind)
    (hstart : r.posStart = s.pos) :
    AbortedRead w e s (abortRun e { startCommand w c s with run := some r } r) := by
  unfold abortRun AbortedRead
  split
  · refine ⟨by simp [abortedKeepingPos, startCommand, statusAbort, statusStart], ?_, ?_⟩
    · show s.pos.toNat ≤ r.posStart.toNat; rw [hstart]
    · show r.posStart.toNat ≤ _; rw [hstart]; exact le_max_left _ _
  · have hr := drawPos_range s.draws s.pos.toNat s.bits.length
    have hlt : drawPos s.draws s.pos.toNat s.bits.length < 2 ^ 32 := by
      have h1 := s.pos.isLt
      have h2 : s.bits.length ≤ 2 ^ 32 - 1 := hs
      omega
    refine ⟨by simp [abortedKeepingPos, startCommand, statusAbort, statusStart], ?_, ?_⟩
    · show s.pos.toNat ≤ (BitVec.ofNat 32 (drawPos s.draws r.posStart.toNat s.bits.length)).toNat
      rw [hstart, BitVec.toNat_ofNat, Nat.mod_eq_of_lt hlt]; exact hr.1
    · show (BitVec.ofNat 32 (drawPos s.draws r.posStart.toNat s.bits.length)).toNat ≤ _
      rw [hstart, BitVec.toNat_ofNat, Nat.mod_eq_of_lt hlt]; exact hr.2

/-- A legal command that reads `l` and then raises an error aborts with it (R132). -/
theorem runCommand_raises {s : State} (h : s.run = none) (hs : s.streamFits) {w : Word} {i : Instr} {l : List Bool}
    {r : Run} {e : ErrorKind} (hl : legal i s.arg = true) (hr : Reads (begunRun w i s) l r) (hb : s.streamHas l)
    (hp : r.phase = .abort e) (hn : l.length + 2 ≤ Config.coreBudget) :
    AbortedRead w e s (runCommand w (some i) s) := by
  have hkeep := keeps_begunRun w i s
  have hstart : r.posStart = s.pos := by rw [hr.posStart, hkeep.posStart]; rfl
  have hrun : runCommand w (some i) s
      = abortRun e { startCommand w (some i) s with run := some r } r := by
    refine runCommand_of_iterate h (k := 1 + (l.length + 1)) (by omega) ?_ (stalled_of_idle ?_)
    · rw [Function.iterate_add_apply, Function.iterate_add_apply, Function.iterate_one, coreStep_start_legal hl]
      rw [hr.iterate (startCommand w (some i) s) hs hkeep.changed hkeep.lenChanged
          (by rw [hkeep.pos]; exact hb), coreStep_abort (r := r) rfl hp]
    · unfold abortRun; split <;> rfl
  rw [hrun]
  exact abortRun_abortedRead hs _ hstart

/-- A legal command that reads `l`, the rest of the stream, and is still reading aborts with StreamExhausted (R9, R132). -/
theorem runCommand_exhausts {s : State} (h : s.run = none) (hs : s.streamFits) {w : Word} {i : Instr} {l : List Bool}
    {r : Run} {p : BitPhase} (hl : legal i s.arg = true) (hr : Reads (begunRun w i s) l r)
    (hb : s.bits.drop s.pos.toNat = l) (hp : r.phase = .bit p) (hn : l.length + 3 ≤ Config.coreBudget) :
    AbortedRead w .streamExhausted s (runCommand w (some i) s) := by
  have hkeep := keeps_begunRun w i s
  have hstart : r.posStart = s.pos := by rw [hr.posStart, hkeep.posStart]; rfl
  have hpos : r.pos = s.pos.toNat + l.length := by rw [hr.pos, hkeep.pos]; rfl
  have hend : s.bits[r.pos]? = none := by
    rw [hpos, List.getElem?_eq_none]
    have := congrArg List.length hb
    rw [List.length_drop] at this
    omega
  have hrun : runCommand w (some i) s
      = abortRun .streamExhausted { startCommand w (some i) s with run := some (r.raise .streamExhausted) }
          (r.raise .streamExhausted) := by
    refine runCommand_of_iterate h (k := 1 + (1 + (l.length + 1))) (by omega) ?_ (stalled_of_idle ?_)
    · rw [Function.iterate_add_apply, Function.iterate_add_apply, Function.iterate_add_apply, Function.iterate_one,
        coreStep_start_legal hl]
      rw [hr.iterate (startCommand w (some i) s) hs hkeep.changed hkeep.lenChanged
          (by rw [hkeep.pos]; exact hb ▸ List.prefix_refl _),
        coreStep_endOfStream (s := { startCommand w (some i) s with run := some r }) rfl hp hs
          (hr.changed.trans hkeep.changed) (hr.lenChanged.trans hkeep.lenChanged) hend,
        coreStep_abort (r := r.raise .streamExhausted) rfl rfl]
    · unfold abortRun; split <;> rfl
  rw [hrun]
  exact abortRun_abortedRead hs _ hstart

end Sys2Proof.Machine
end

