-- ==== Sys2Proof/Laws/ExpGolomb.lean ====
section
/-! SUPPORT. Laws/ExpGolomb.lean: what the phases of an Exp-Golomb read do with the bits of a code (R73, R94), with the zeros of an
unbounded one, and with the bits of a stream that ends too early. -/

namespace Sys2Proof.Machine

/-- `r` with `n` more bits read and in the phase `p`. -/
def Run.after (n : Nat) (p : Phase) (r : Run) : Run := { r with pos := r.pos + n, phase := p }

theorem Run.after_zero (r : Run) : r.after 0 r.phase = r := rfl

theorem countZero_some {z : Nat} (h : z + 1 ≤ 31) : countZero z = some (z + 1) := by
  simp [countZero, Config.lzMax]; omega

theorem countZero_none {z : Nat} (h : 31 ≤ z) : countZero z = none := by
  simp [countZero, Config.lzMax]; omega

/-- Leading zeros, while their count stays at most LZ_MAX (R9). -/
theorem reads_egZeros (kind : EgKind) (n : Nat) : ∀ (z : Nat) (r : Run), z + n ≤ 31 →
    r.phase = .bit (.egZeros kind z) →
    Reads r (List.replicate n false) (r.after n (.bit (.egZeros kind (z + n)))) := by
  induction n with
  | zero =>
    intro z r _ hp
    have : r.after 0 (.bit (.egZeros kind (z + 0))) = r := by rw [Nat.add_zero, ← hp]; rfl
    rw [this]; exact .nil r
  | succ n ih =>
    intro z r hz hp
    refine .cons hp ?_
    have h1 : afterBit (.egZeros kind z) false { r with pos := r.pos + 1 } = r.after 1 (.bit (.egZeros kind (z + 1))) := by
      simp [afterBit, afterEgZeros, countZero_some (show z + 1 ≤ 31 by omega), Run.goto, Run.after]
    rw [h1]
    have := ih (z + 1) (r.after 1 (.bit (.egZeros kind (z + 1)))) (by omega) rfl
    convert this using 1
    simp [Run.after]; omega

/-- The value of the bits after `acc` (R9). -/
def bitsFrom (acc : Nat) (l : List Bool) : Nat := l.foldl (fun a b => 2 * a + b.toNat) acc

theorem bitsFrom_zero (l : List Bool) : bitsFrom 0 l = bitsValue l := rfl

/-- The suffix of a code, up to but not past its last bit (R9). -/
theorem reads_egSuffix_part (kind : EgKind) (zeros : Nat) (l : List Bool) : ∀ (left acc : Nat) (r : Run),
    l.length < left → r.phase = .bit (.egSuffix kind zeros left acc) →
    Reads r l (r.after l.length (.bit (.egSuffix kind zeros (left - l.length) (bitsFrom acc l)))) := by
  induction l with
  | nil =>
    intro left acc r _ hp
    have : r.after 0 (.bit (.egSuffix kind zeros (left - 0) acc)) = r := by rw [Nat.sub_zero, ← hp]; rfl
    have h : Reads r [] (r.after 0 (.bit (.egSuffix kind zeros (left - 0) acc))) := by rw [this]; exact .nil r
    exact h
  | cons b l ih =>
    intro left acc r hlen hp
    rw [List.length_cons] at hlen
    refine .cons hp ?_
    have h1 : afterBit (.egSuffix kind zeros left acc) b { r with pos := r.pos + 1 }
        = r.after 1 (.bit (.egSuffix kind zeros (left - 1) (shiftIn acc b))) := by
      simp [afterBit, afterEgSuffix, show ¬ left ≤ 1 by omega, Run.goto, Run.after]
    rw [h1]
    have := ih (left - 1) (shiftIn acc b) (r.after 1 _) (by omega) rfl
    convert this using 1
    simp [Run.after, bitsFrom, shiftIn]; omega

/-- The whole suffix (R9, R73). -/
theorem reads_egSuffix (kind : EgKind) (zeros : Nat) (l : List Bool) (acc : Nat) (r : Run) (hl : l ≠ [])
    (hp : r.phase = .bit (.egSuffix kind zeros l.length acc)) :
    Reads r l (egDone kind zeros (bitsFrom acc l) (r.after l.length .commit)) := by
  obtain ⟨l', b, rfl⟩ : ∃ l' b, l = l' ++ [b] := ⟨l.dropLast, l.getLast hl, (List.dropLast_append_getLast hl).symm⟩
  have h := reads_egSuffix_part kind zeros l' (l' ++ [b]).length acc r (by simp) hp
  refine h.append ?_
  have hleft : (l' ++ [b]).length - l'.length = 1 := by simp
  rw [hleft]
  refine .cons rfl ?_
  have h2 : afterBit (.egSuffix kind zeros 1 (bitsFrom acc l')) b
      { r.after l'.length (.bit (.egSuffix kind zeros 1 (bitsFrom acc l'))) with
        pos := (r.after l'.length (.bit (.egSuffix kind zeros 1 (bitsFrom acc l')))).pos + 1 }
      = egDone kind zeros (bitsFrom acc (l' ++ [b])) (r.after (l' ++ [b]).length .commit) := by
    have hv : bitsFrom acc (l' ++ [b]) = shiftIn (bitsFrom acc l') b := by
      simp [bitsFrom, shiftIn, List.foldl_append]
    rw [hv, List.length_append]
    rfl
  rw [h2]
  exact .nil _

/-- A whole code (R73): after it the command commits, with the value of the code number staged. -/
theorem reads_egCode (kind : EgKind) (suffix : List Bool) (r : Run) (hs : suffix.length ≤ 31)
    (hp : r.phase = .bit (.egZeros kind 0)) :
    Reads r (egCode suffix)
      (egDone kind suffix.length (bitsValue suffix) (r.after (2 * suffix.length + 1) .commit)) := by
  have h0 := reads_egZeros kind suffix.length 0 r (by omega) hp
  rw [Nat.zero_add] at h0
  refine h0.append (.cons rfl ?_)
  by_cases hn : suffix = []
  · subst hn
    exact .nil _
  · have hlen : suffix.length ≠ 0 := by simpa using hn
    have h1 : afterBit (.egZeros kind suffix.length) true
        { r.after suffix.length (.bit (.egZeros kind suffix.length)) with
          pos := (r.after suffix.length (.bit (.egZeros kind suffix.length))).pos + 1 }
        = r.after (suffix.length + 1) (.bit (.egSuffix kind suffix.length suffix.length 0)) := by
      simp only [afterBit, afterEgZeros, if_true, if_neg hlen]
      rfl
    rw [h1]
    have h2 := reads_egSuffix kind suffix.length suffix 0
      (r.after (suffix.length + 1) (.bit (.egSuffix kind suffix.length suffix.length 0))) hn rfl
    have hpos : (r.after (suffix.length + 1) (.bit (.egSuffix kind suffix.length suffix.length 0))).after suffix.length .commit
        = r.after (2 * suffix.length + 1) .commit := by
      simp only [Run.after, Run.mk.injEq, and_true, true_and]
      omega
    rw [hpos] at h2
    exact h2

theorem egDone_phase (kind : EgKind) (zeros suffix : Nat) (r : Run) : (egDone kind zeros suffix r).phase = .commit := rfl
theorem egDone_pos (kind : EgKind) (zeros suffix : Nat) (r : Run) : (egDone kind zeros suffix r).pos = r.pos := rfl

/-- 32 zeros raise UnboundedLoop (R94). -/
theorem reads_thirtyTwoZeros (kind : EgKind) (r : Run) (hp : r.phase = .bit (.egZeros kind 0)) :
    ∃ r', Reads r (List.replicate 32 false) r' ∧ r'.phase = .abort .unboundedLoop := by
  have h0 := reads_egZeros kind 31 0 r (by omega) hp
  have h1 := Reads.one (r := r.after 31 (.bit (.egZeros kind (0 + 31)))) rfl false
  refine ⟨_, (h0.append h1 : Reads r (List.replicate 31 false ++ [false]) _), ?_⟩
  simp [afterBit, afterEgZeros, countZero_none]

end Sys2Proof.Machine
end

