-- ==== Sys2Proof/Laws/Vlc.lean ====
section
/-! SUPPORT. Laws/Vlc.lean: `ReadVLC` over a prefix-free table (R11): it finds each code of the table after exactly the code's bits, and
it refuses a pattern that begins no code. -/

namespace Sys2Proof.Machine

/-- No code of the table begins another. -/
def PrefixFree {α : Type} (t : Tables.Vlc α) : Prop := t.Pairwise fun a b => ¬ a.1 <+: b.1 ∧ ¬ b.1 <+: a.1

theorem PrefixFree.eq {α : Type} {t : Tables.Vlc α} (h : PrefixFree t) {a b : List Bool × α} (ha : a ∈ t) (hb : b ∈ t)
    (hab : a.1 <+: b.1) : a = b := by
  induction h with
  | nil => cases ha
  | cons hx _ ih =>
    rcases List.mem_cons.1 ha with rfl | ha'
    · rcases List.mem_cons.1 hb with rfl | hb'
      · rfl
      · exact absurd hab (hx _ hb').1
    · rcases List.mem_cons.1 hb with rfl | hb'
      · exact absurd hab (hx _ ha').2
      · exact ih ha' hb'

/-- The bits of a code are found (R11). -/
theorem readVlc_code {α : Type} {t : Tables.Vlc α} (h : PrefixFree t) {code : List Bool} {v : α} (hm : (code, v) ∈ t) :
    readVlc t code = .found v := by
  unfold readVlc
  cases hf : t.find? fun e => e.1 == code with
  | none =>
    have := List.find?_eq_none.1 hf _ hm
    simp at this
  | some e =>
    have h1 : e.1 = code := by simpa using List.find?_some hf
    have := h.eq (List.mem_of_find?_eq_some hf) hm (by rw [h1])
    rw [this]

/-- Bits that begin a code and are none ask for more (R11). -/
theorem readVlc_more {α : Type} {t : Tables.Vlc α} (h : PrefixFree t) {acc l : List Bool} {v : α}
    (hm : (acc ++ l, v) ∈ t) (hl : l ≠ []) : readVlc t acc = .more := by
  unfold readVlc
  cases hf : t.find? fun e => e.1 == acc with
  | some e =>
    have h1 : e.1 = acc := by simpa using List.find?_some hf
    have := h.eq (List.mem_of_find?_eq_some hf) hm (by rw [h1]; exact List.prefix_append _ _)
    rw [this] at h1
    exact absurd (by simpa using h1) hl
  | none =>
    have : (t.any fun e => acc.isPrefixOf e.1) = true :=
      List.any_eq_true.2 ⟨_, hm, List.isPrefixOf_iff_prefix.2 (List.prefix_append _ _)⟩
    simp [this]

/-- What a table answers, in terms of its codes (R11). -/
theorem readVlc_found {α : Type} {t : Tables.Vlc α} {acc : List Bool} {v : α} (h : readVlc t acc = .found v) :
    (acc, v) ∈ t := by
  unfold readVlc at h
  split at h
  · rename_i e hf
    injection h with h
    have h1 : e.1 = acc := by simpa using List.find?_some hf
    have := List.mem_of_find?_eq_some hf
    rw [← h, ← h1]
    exact this
  · split at h <;> cases h

theorem readVlc_more_iff {α : Type} {t : Tables.Vlc α} {acc : List Bool} (h : readVlc t acc = .more) :
    ∃ e ∈ t, acc <+: e.1 ∧ e.1 ≠ acc := by
  unfold readVlc at h
  split at h
  · cases h
  · rename_i hf
    split at h
    · rename_i ha
      obtain ⟨e, he, hp⟩ := List.any_eq_true.1 ha
      refine ⟨e, he, List.isPrefixOf_iff_prefix.1 hp, ?_⟩
      have := List.find?_eq_none.1 hf e he
      simpa using this
    · cases h

/-- The step of a phase that reads a code of `t`: `P` is the phase after some bits of it, `k` what follows the code. -/
def VlcPhase {α : Type} (t : Tables.Vlc α) (P : List Bool → BitPhase) (k : α → Run → Run) (r : Run) : Prop :=
  ∀ (acc : List Bool) (b : Bool) (n : Nat) (ph : Phase),
    afterBit (P acc) b { r with pos := n, phase := ph }
      = match readVlc t (acc ++ [b]) with
        | .more => { r with pos := n, phase := .bit (P (acc ++ [b])) }
        | .bad => { r with pos := n, phase := .abort .malformedSyntax }
        | .found v => k v { r with pos := n, phase := ph }

/-- A code is read, bit by bit, and `k` follows it. -/
theorem reads_vlc {α : Type} {t : Tables.Vlc α} (h : PrefixFree t) {P : List Bool → BitPhase} {k : α → Run → Run} {r : Run}
    (hP : VlcPhase t P k r) {v : α} (l : List Bool) : ∀ (acc : List Bool) (n : Nat), (acc ++ l, v) ∈ t → l ≠ [] →
    ∃ ph, Reads { r with pos := n, phase := .bit (P acc) } l (k v { r with pos := n + l.length, phase := ph }) := by
  induction l with
  | nil => intro _ _ _ hl; exact absurd rfl hl
  | cons b l ih =>
    intro acc n hm _
    have hm' : ((acc ++ [b]) ++ l, v) ∈ t := by simpa using hm
    by_cases hl : l = []
    · subst hl
      refine ⟨.bit (P acc), .cons rfl ?_⟩
      show Reads (afterBit (P acc) b { r with pos := n + 1, phase := .bit (P acc) }) [] _
      rw [hP, readVlc_code h (by simpa using hm')]
      exact .nil _
    · obtain ⟨ph, hr⟩ := ih (acc ++ [b]) (n + 1) hm' hl
      refine ⟨ph, .cons rfl ?_⟩
      show Reads (afterBit (P acc) b { r with pos := n + 1, phase := .bit (P acc) }) l _
      rw [hP, readVlc_more h hm' hl]
      rw [List.length_cons, show n + (l.length + 1) = n + 1 + l.length by omega]
      exact hr

/-- A pattern that begins no code, and has no code inside it, raises MalformedSyntax before its bits are all read (R11, R134). -/
theorem reads_vlc_absent {α : Type} {t : Tables.Vlc α} {P : List Bool → BitPhase} {k : α → Run → Run} {r : Run}
    (hP : VlcPhase t P k r) (l : List Bool) : ∀ (acc : List Bool) (n : Nat), l ≠ [] →
    (∀ e ∈ t, ¬ acc ++ l <+: e.1 ∧ ¬ e.1 <+: acc ++ l) →
    ∃ l' r', l' <+: l ∧ Reads { r with pos := n, phase := .bit (P acc) } l' r' ∧ r'.phase = .abort .malformedSyntax := by
  induction l with
  | nil => intro _ _ hl; exact absurd rfl hl
  | cons b l ih =>
    intro acc n _ hno
    have hno' : ∀ e ∈ t, ¬ (acc ++ [b]) ++ l <+: e.1 ∧ ¬ e.1 <+: (acc ++ [b]) ++ l := by simpa using hno
    cases hv : readVlc t (acc ++ [b]) with
    | found v => exact absurd (List.prefix_append _ _) (hno' _ (readVlc_found hv)).2
    | bad =>
      refine ⟨[b], _, ⟨l, rfl⟩, .cons rfl (.nil _), ?_⟩
      show (afterBit (P acc) b { r with pos := n + 1, phase := .bit (P acc) }).phase = _
      rw [hP, hv]
    | more =>
      by_cases hl : l = []
      · subst hl
        obtain ⟨e, he, hp, _⟩ := readVlc_more_iff hv
        exact absurd (by simpa using hp) (hno' e he).1
      · obtain ⟨l', r', hpre, hr, hph⟩ := ih (acc ++ [b]) (n + 1) hl hno'
        refine ⟨b :: l', r', (List.cons_prefix_cons).2 ⟨rfl, hpre⟩, .cons rfl ?_, hph⟩
        show Reads (afterBit (P acc) b { r with pos := n + 1, phase := .bit (P acc) }) l' r'
        rw [hP, hv]
        exact hr

end Sys2Proof.Machine
end

