-- ==== Sys2Proof/Laws/Cavlc.lean ====
section
/-! SUPPORT. Laws/Cavlc.lean: what the phases of CAVLC_BLOCK do with the bits of each field up to the runs (R97 to R110): one
lemma per field. -/

namespace Sys2Proof.Machine

/-- `r` at another position, with another staging copy, in another phase. -/
def Run.at (r : Run) (n : Nat) (S : Results) (p : Phase) : Run := { r with pos := n, staged := S, phase := p }

theorem Run.at_tc (r : Run) (n : Nat) (S : Results) (p : Phase) : (r.at n S p).tc = S.totalcoeff.toNat := rfl
theorem Run.at_count (r : Run) (n : Nat) (S : Results) (p : Phase) : (r.at n S p).count = r.count := rfl
theorem Run.at_block (r : Run) (n : Nat) (S : Results) (p : Phase) : (r.at n S p).block = r.block := rfl

/-! ### What follows a field does not depend on the phase it was read in -/

theorem withTotalZeros_phase (tz : Nat) (r : Run) (p : Phase) :
    withTotalZeros tz { r with phase := p } = withTotalZeros tz r := by
  unfold withTotalZeros nextRun
  split
  · rename_i h
    rw [if_pos (show tz > r.count - r.tc from h)]; rfl
  · rename_i h
    rw [if_neg (show ¬ tz > r.count - r.tc from h)]
    rfl

theorem nextLevel_phase (i sl : Nat) (r : Run) (p : Phase) : nextLevel i sl { r with phase := p } = nextLevel i sl r := by
  unfold nextLevel
  rw [show Run.tc { r with phase := p } = r.tc from rfl, show Run.t1 { r with phase := p } = r.t1 from rfl,
    show Run.count { r with phase := p } = r.count from rfl, withTotalZeros_phase]
  rfl

theorem withToken_phase (tc t1 : Nat) (r : Run) (p : Phase) : withToken tc t1 { r with phase := p } = withToken tc t1 r := by
  unfold withToken
  rw [show Run.count { r with phase := p } = r.count from rfl]
  split
  · rfl
  · split
    · rfl
    · exact nextLevel_phase 0 (initialSuffixLength tc t1) (Run.stage (fun S => { S with
        value := BitVec.ofNat 32 (tc * 4 + t1), totalcoeff := BitVec.ofNat 32 tc, trailingones := BitVec.ofNat 32 t1 }) r) p

/-! ### Level codes (R101 to R105) -/

/-- The zeros of a level_prefix. -/
theorem reads_levelZeros (i sl : Nat) (k : Nat) : ∀ (z n : Nat) (r : Run), z + k ≤ 31 →
    Reads (r.at n r.staged (.bit (.levelZeros i sl z))) (List.replicate k false)
      (r.at (n + k) r.staged (.bit (.levelZeros i sl (z + k)))) := by
  induction k with
  | zero => intro z n r _; exact .nil _
  | succ k ih =>
    intro z n r hz
    refine .cons rfl ?_
    have h1 : afterBit (.levelZeros i sl z) false (r.at (n + 1) r.staged (.bit (.levelZeros i sl z)))
        = r.at (n + 1) r.staged (.bit (.levelZeros i sl (z + 1))) := by
      simp [afterBit, afterLevelZeros, countZero_some (show z + 1 ≤ 31 by omega), Run.goto, Run.at]
    show Reads (afterBit (.levelZeros i sl z) false (r.at (n + 1) r.staged (.bit (.levelZeros i sl z)))) _ _
    rw [h1]
    have := ih (z + 1) (n + 1) r (by omega)
    rwa [show n + 1 + k = n + (k + 1) by omega, show z + 1 + k = z + (k + 1) by omega] at this

/-- The bits of a level_suffix, with what follows it. -/
theorem reads_levelSuffix (i sl p : Nat) (l : List Bool) : ∀ (acc n : Nat) (r : Run), l ≠ [] →
    ∃ ph, Reads (r.at n r.staged (.bit (.levelSuffix i sl p l.length acc))) l
      (levelDone i sl p (bitsFrom acc l) (r.at (n + l.length) r.staged ph)) := by
  induction l with
  | nil => intro _ _ _ h; exact absurd rfl h
  | cons b l ih =>
    intro acc n r _
    by_cases hl : l = []
    · subst hl
      exact ⟨.bit (.levelSuffix i sl p 1 acc), .cons rfl (.nil _)⟩
    · obtain ⟨ph, h⟩ := ih (shiftIn acc b) (n + 1) r hl
      refine ⟨ph, .cons rfl ?_⟩
      have hlen : ¬ (b :: l).length ≤ 1 := by
        have := List.length_pos_of_ne_nil hl
        simp only [List.length_cons]; omega
      have h1 : afterBit (.levelSuffix i sl p (b :: l).length acc) b
          (r.at (n + 1) r.staged (.bit (.levelSuffix i sl p (b :: l).length acc)))
          = r.at (n + 1) r.staged (.bit (.levelSuffix i sl p l.length (shiftIn acc b))) := by
        simp only [afterBit, afterLevelSuffix, if_neg hlen]
        rfl
      show Reads (afterBit (.levelSuffix i sl p (b :: l).length acc) b
          (r.at (n + 1) r.staged (.bit (.levelSuffix i sl p (b :: l).length acc)))) l _
      rw [h1]
      rw [List.length_cons, show n + (l.length + 1) = n + 1 + l.length by omega]
      exact h

theorem levelDone_phase (i sl p suf : Nat) (r : Run) (ph : Phase) :
    levelDone i sl p suf { r with phase := ph } = levelDone i sl p suf r := by
  exact nextLevel_phase (i + 1) (nextSuffixLength sl (levelOf (levelCode p sl suf (decide (i = r.t1 ∧ r.t1 < 3)))))
    (Run.stage (fun S => { S with
      level := S.level.setIfInBounds i (BitVec.ofInt 32 (levelOf (levelCode p sl suf (decide (i = r.t1 ∧ r.t1 < 3)))))
      levelsuffix := S.levelsuffix.setIfInBounds i (BitVec.ofNat 32 suf) }) r) ph

/-- A level code (R81, R101, R102), with what follows it. -/
theorem reads_levelCode (i sl p : Nat) (suf : List Bool) (n : Nat) (r : Run) (hp : p ≤ 31)
    (hs : suf.length = levelSuffixSize p sl) :
    Reads (r.at n r.staged (.bit (.levelZeros i sl 0))) (List.replicate p false ++ true :: suf)
      (levelDone i sl p (bitsValue suf)
        (r.at (n + (p + 1 + suf.length))
          { r.staged with levelprefix := r.staged.levelprefix.setIfInBounds i (BitVec.ofNat 32 p) } .commit)) := by
  have h0 := reads_levelZeros i sl p 0 n r (by omega)
  rw [Nat.zero_add] at h0
  refine h0.append (.cons rfl ?_)
  show Reads (afterBit (.levelZeros i sl p) true (r.at (n + p + 1) r.staged (.bit (.levelZeros i sl p)))) suf _
  simp only [afterBit, afterLevelZeros, if_true]
  by_cases hn : suf = []
  · subst hn
    rw [if_pos (by simpa using hs.symm)]
    have : levelDone i sl p (bitsValue []) (r.at (n + (p + 1 + ([] : List Bool).length))
        { r.staged with levelprefix := r.staged.levelprefix.setIfInBounds i (BitVec.ofNat 32 p) } .commit)
        = levelDone i sl p 0 (Run.stage (fun S => { S with levelprefix := S.levelprefix.setIfInBounds i (BitVec.ofNat 32 p) })
          (r.at (n + p + 1) r.staged (.bit (.levelZeros i sl p)))) := by
      rw [← levelDone_phase _ _ _ _ _ (.bit (.levelZeros i sl p))]
      rfl
    rw [this]
    exact .nil _
  · have hlen : levelSuffixSize p sl ≠ 0 := by
      rw [← hs]; simpa using hn
    rw [if_neg hlen, ← hs]
    obtain ⟨ph, h⟩ := reads_levelSuffix i sl p suf 0 (n + p + 1)
      (Run.stage (fun S => { S with levelprefix := S.levelprefix.setIfInBounds i (BitVec.ofNat 32 p) }) r) hn
    rw [← levelDone_phase _ _ _ _ _ ph]
    rw [show n + (p + 1 + suf.length) = n + p + 1 + suf.length by omega]
    exact h

/-- 32 zeros of a level_prefix raise UnboundedLoop (R101). -/
theorem reads_levelPrefix_unbounded (i sl n : Nat) (r : Run) :
    ∃ r', Reads (r.at n r.staged (.bit (.levelZeros i sl 0))) (List.replicate 32 false) r'
      ∧ r'.phase = .abort .unboundedLoop := by
  have h0 := reads_levelZeros i sl 31 0 n r (by omega)
  have h1 := Reads.one (r := r.at (n + 31) r.staged (.bit (.levelZeros i sl (0 + 31)))) rfl false
  refine ⟨_, (h0.append h1 : Reads _ (List.replicate 31 false ++ [false]) _), ?_⟩
  simp [afterBit, afterLevelZeros, countZero_none]

/-! ### The staging copy after the levels so far -/

/-- The staging copy when these signs, levels, prefixes and suffixes have been read. -/
def levelsStaged (tc t1 : Nat) (signs : List Bool) (level pre suf : List Word) : Results :=
  { Results.zero with
    value := BitVec.ofNat 32 (tc * 4 + t1)
    totalcoeff := BitVec.ofNat 32 tc
    trailingones := BitVec.ofNat 32 t1
    t1signs := maskOf 32 signs
    level := wordsOf level
    levelprefix := wordsOf pre
    levelsuffix := wordsOf suf }

/-- TC and T1 of that copy. -/
theorem levelsStaged_tc {tc : Nat} (h : tc ≤ 16) (t1 : Nat) (signs : List Bool) (level pre suf : List Word) (r : Run)
    (n : Nat) (p : Phase) : (r.at n (levelsStaged tc t1 signs level pre suf) p).tc = tc := by
  show (BitVec.ofNat 32 tc).toNat = tc
  simp; omega

theorem levelsStaged_t1 {t1 : Nat} (h : t1 ≤ 3) (tc : Nat) (signs : List Bool) (level pre suf : List Word) (r : Run)
    (n : Nat) (p : Phase) : (r.at n (levelsStaged tc t1 signs level pre suf) p).t1 = t1 := by
  show (BitVec.ofNat 32 t1).toNat = t1
  simp; omega

/-- The trailing-ones signs (R100). -/
theorem reads_signs {tc t1 : Nat} (htc : tc ≤ 16) (ht1 : t1 ≤ 3) (hle : t1 ≤ tc) (sl : Nat) (r : Run) (bs : List Bool) :
    ∀ (n : Nat) (signs : List Bool) (level pre suf : List Word) (p : Phase), signs.length + bs.length = t1 →
    level.length = signs.length → pre.length = signs.length → suf.length = signs.length →
    ∃ q, Reads (nextLevel signs.length sl (r.at n (levelsStaged tc t1 signs level pre suf) p)) bs
      (nextLevel t1 sl (r.at (n + bs.length)
        (levelsStaged tc t1 (signs ++ bs) (level ++ bs.map fun b => BitVec.ofInt 32 (if b then -1 else 1))
          (pre ++ List.replicate bs.length 0) (suf ++ List.replicate bs.length 0)) q)) := by
  induction bs with
  | nil =>
    intro n signs level pre suf p h _ _ _
    refine ⟨p, ?_⟩
    have : signs.length = t1 := by simpa using h
    simp only [List.length_nil, Nat.add_zero, List.append_nil, List.map_nil, List.replicate_zero]
    rw [this]
    exact .nil _
  | cons b bs ih =>
    intro n signs level pre suf p h hl hp hs
    rw [List.length_cons] at h
    have hn : nextLevel signs.length sl (r.at n (levelsStaged tc t1 signs level pre suf) p)
        = r.at n (levelsStaged tc t1 signs level pre suf) (.bit (.trailingOne signs.length sl)) := by
      unfold nextLevel
      rw [levelsStaged_tc htc, levelsStaged_t1 ht1, if_pos (by omega), if_pos (by omega)]
      rfl
    obtain ⟨q, hq⟩ := ih (n + 1) (signs ++ [b]) (level ++ [BitVec.ofInt 32 (if b then -1 else 1)]) (pre ++ [0]) (suf ++ [0])
      (.bit (.trailingOne signs.length sl)) (by simp; omega) (by simp [hl]) (by simp [hp]) (by simp [hs])
    refine ⟨q, ?_⟩
    rw [hn]
    refine .cons rfl ?_
    have h1 : afterBit (.trailingOne signs.length sl) b
        (r.at (n + 1) (levelsStaged tc t1 signs level pre suf) (.bit (.trailingOne signs.length sl)))
        = nextLevel (signs ++ [b]).length sl (r.at (n + 1)
          (levelsStaged tc t1 (signs ++ [b]) (level ++ [BitVec.ofInt 32 (if b then -1 else 1)]) (pre ++ [0]) (suf ++ [0]))
          (.bit (.trailingOne signs.length sl))) := by
      simp only [afterBit, afterTrailingOne]
      congr 1
      · simp
      · simp only [Run.stage, Run.at, levelsStaged, maskOf_putBit, wordsOf_append_zero]
        rw [← hl, wordsOf_set]
        cases b <;> rfl
    show Reads (afterBit (.trailingOne signs.length sl) b
        (r.at (n + 1) (levelsStaged tc t1 signs level pre suf) (.bit (.trailingOne signs.length sl)))) bs _
    rw [h1]
    simpa [Nat.add_assoc, Nat.add_comm, Nat.add_left_comm, List.replicate_succ] using hq

/-- One more level (R102 to R105) in that copy. -/
theorem levelDone_staged {tc t1 : Nat} (_htc : tc ≤ 16) (ht1 : t1 ≤ 3) (signs : List Bool) (level pre suf : List Word)
    (hp : pre.length = level.length) (hs : suf.length = level.length) (sl px sx : Nat) (v : Int)
    (hv : v = levelOf (levelCode px sl sx (decide (level.length = t1 ∧ t1 < 3)))) (n : Nat) (r : Run) :
    levelDone level.length sl px sx
      (r.at n { levelsStaged tc t1 signs level pre suf with
        levelprefix := (levelsStaged tc t1 signs level pre suf).levelprefix.setIfInBounds level.length (BitVec.ofNat 32 px) }
        .commit)
      = nextLevel (level ++ [BitVec.ofInt 32 v]).length (nextSuffixLength sl v)
        (r.at n (levelsStaged tc t1 signs (level ++ [BitVec.ofInt 32 v]) (pre ++ [BitVec.ofNat 32 px])
          (suf ++ [BitVec.ofNat 32 sx])) .commit) := by
  have ht : (r.at n { levelsStaged tc t1 signs level pre suf with
        levelprefix := (levelsStaged tc t1 signs level pre suf).levelprefix.setIfInBounds level.length (BitVec.ofNat 32 px) }
        .commit).t1 = t1 := by
    simp only [Run.t1, Run.at, levelsStaged, BitVec.toNat_ofNat]
    omega
  unfold levelDone
  rw [ht, ← hv]
  have hS : levelsStaged tc t1 signs (level ++ [BitVec.ofInt 32 v]) (pre ++ [BitVec.ofNat 32 px]) (suf ++ [BitVec.ofNat 32 sx])
      = { levelsStaged tc t1 signs level pre suf with
          level := (wordsOf level).setIfInBounds level.length (BitVec.ofInt 32 v)
          levelprefix := (wordsOf pre).setIfInBounds level.length (BitVec.ofNat 32 px)
          levelsuffix := (wordsOf suf).setIfInBounds level.length (BitVec.ofNat 32 sx) } := by
    rw [wordsOf_set, ← hp, wordsOf_set, show pre.length = suf.length by omega, wordsOf_set]
    rfl
  simp only [hS, List.length_append, List.length_singleton, Run.stage, Run.at]
  simp only [levelsStaged]

/-- The level codes (R101 to R105). -/
theorem reads_levels {tc t1 : Nat} (htc : tc ≤ 16) (ht1 : t1 ≤ 3) (r : Run) (signs : List Bool) (lv : List (Nat × List Bool)) :
    ∀ (sl n : Nat) (level pre suf : List Word) (p : Phase), level.length + lv.length ≤ tc → t1 ≤ level.length →
    pre.length = level.length → suf.length = level.length →
    levelsOk sl (decide (level.length = t1 ∧ t1 < 3)) lv = true →
    ∃ q sl', Reads (nextLevel level.length sl (r.at n (levelsStaged tc t1 signs level pre suf) p)) (levelBits lv)
      (nextLevel (level.length + lv.length) sl' (r.at (n + (levelBits lv).length)
        (levelsStaged tc t1 signs
          (level ++ (levelValues sl (decide (level.length = t1 ∧ t1 < 3)) lv).map (BitVec.ofInt 32))
          (pre ++ lv.map fun l => BitVec.ofNat 32 l.1) (suf ++ lv.map fun l => BitVec.ofNat 32 (bitsValue l.2))) q)) := by
  induction lv with
  | nil =>
    intro sl n level pre suf p h _ _ _ _
    refine ⟨p, sl, ?_⟩
    simp only [levelBits, levelValues, List.length_nil, Nat.add_zero, List.append_nil, List.map_nil]
    exact .nil _
  | cons c lv ih =>
    obtain ⟨px, sx⟩ := c
    intro sl n level pre suf p h hge hp hs hok
    rw [List.length_cons] at h
    simp only [levelsOk, Bool.and_eq_true, decide_eq_true_eq] at hok
    obtain ⟨⟨hpx, hsx⟩, hok⟩ := hok
    have hn : nextLevel level.length sl (r.at n (levelsStaged tc t1 signs level pre suf) p)
        = r.at n (levelsStaged tc t1 signs level pre suf) (.bit (.levelZeros level.length sl 0)) := by
      unfold nextLevel
      rw [levelsStaged_tc htc, levelsStaged_t1 ht1, if_pos (by omega), if_neg (by omega)]
      rfl
    obtain ⟨first, hfirst⟩ : ∃ f, f = decide (level.length = t1 ∧ t1 < 3) := ⟨_, rfl⟩
    rw [← hfirst] at hok ⊢
    obtain ⟨v, hv⟩ : ∃ v, v = levelOf (levelCode px sl (bitsValue sx) first) := ⟨_, rfl⟩
    rw [← hv] at hok
    have hc := reads_levelCode level.length sl px sx n (r.at n (levelsStaged tc t1 signs level pre suf) p) hpx hsx
    have hd := levelDone_staged htc ht1 signs level pre suf hp hs sl px (bitsValue sx) v
      (by rw [hv, hfirst]) (n + (px + 1 + sx.length)) r
    have hfalse : decide ((level ++ [BitVec.ofInt 32 v]).length = t1 ∧ t1 < 3) = false := by
      simp; omega
    obtain ⟨q, sl', hq⟩ := ih (nextSuffixLength sl v) (n + (px + 1 + sx.length)) (level ++ [BitVec.ofInt 32 v])
      (pre ++ [BitVec.ofNat 32 px]) (suf ++ [BitVec.ofNat 32 (bitsValue sx)]) .commit (by simp; omega) (by simp; omega)
      (by simp [hp]) (by simp [hs]) (by rw [hfalse]; exact hok)
    refine ⟨q, sl', ?_⟩
    rw [hn]
    rw [hfalse] at hq
    have hall := Reads.append hc (hd ▸ hq)
    rw [show (level ++ [BitVec.ofInt 32 v]).length + lv.length = level.length + ((px, sx) :: lv).length by
      simp only [List.length_append, List.length_cons, List.length_nil]; omega] at hall
    rw [show n + (px + 1 + sx.length) + (levelBits lv).length = n + (levelBits ((px, sx) :: lv)).length by
      simp only [levelBits, List.length_append, List.length_replicate, List.length_cons]; omega] at hall
    simp only [levelBits, levelValues, List.map_cons, List.append_assoc, List.cons_append, List.nil_append, ← hv] at hall ⊢
    exact hall

/-! ### coeff_token, total_zeros and run_before (R97, R107, R109) -/

/-- The run_before of coefficient `i` is known (R109); one above zerosLeft is refused (R110). -/
def withRunBefore (i zerosLeft rb : Nat) (r : Run) : Run :=
  let r1 := r.stage fun S =>
    { S with
      rbmask := putBit S.rbmask i true
      runbefore := S.runbefore.setIfInBounds i (BitVec.ofNat 32 rb) }
  if rb > zerosLeft then r1.raise .malformedSyntax
  else
    nextRun (i + 1) (zerosLeft - rb) (r1.stage fun S => { S with run := S.run.setIfInBounds i (BitVec.ofNat 32 rb) })

theorem vlcPhase_coeffToken (r : Run) :
    VlcPhase r.tokenTable .coeffToken (fun v => withToken v.1 v.2) r := by
  intro acc b n ph
  show afterCoeffToken acc b _ = _
  unfold afterCoeffToken
  rw [show Run.tokenTable { r with pos := n, phase := ph } = r.tokenTable from rfl]
  cases readVlc r.tokenTable (acc ++ [b]) <;> rfl

theorem vlcPhase_totalZeros (r : Run) :
    VlcPhase (Tables.totalZeros r.block.maxc r.tc) .totalZeros withTotalZeros r := by
  intro acc b n ph
  show afterTotalZeros acc b _ = _
  unfold afterTotalZeros
  rw [show Run.block { r with pos := n, phase := ph } = r.block from rfl,
    show Run.tc { r with pos := n, phase := ph } = r.tc from rfl]
  cases readVlc (Tables.totalZeros r.block.maxc r.tc) (acc ++ [b]) <;> rfl

theorem vlcPhase_runBefore (i zerosLeft : Nat) (r : Run) :
    VlcPhase (Tables.runBefore zerosLeft) (.runBefore i zerosLeft) (withRunBefore i zerosLeft) r := by
  intro acc b n ph
  show afterRunBefore i zerosLeft acc b _ = _
  unfold afterRunBefore
  cases readVlc (Tables.runBefore zerosLeft) (acc ++ [b]) <;> rfl

/-! ### The token, the signs and the levels together (R97 to R105) -/

/-- A coeff_token's pair (R78, R79). -/
theorem token_bounds {c : Tables.CtColumn} {token : List Bool} {tc t1 : Nat}
    (h : (token, (tc, t1)) ∈ Tables.coeffToken c) : token ≠ [] ∧ t1 ≤ tc ∧ t1 ≤ 3 ∧ tc ≤ 16 := by
  have key : ∀ c : Tables.CtColumn, ∀ e ∈ Tables.coeffToken c, e.1 ≠ [] ∧ e.2.2 ≤ e.2.1 ∧ e.2.2 ≤ 3 ∧ e.2.1 ≤ 16 := by
    intro c
    cases c <;> decide
  exact key c _ h

/-- The staging copy after the token, the signs and the levels listed. -/
def CavlcFields.headStaged (f : CavlcFields) : Results :=
  levelsStaged f.tc f.t1 f.signs (f.allLevels.map (BitVec.ofInt 32))
    (List.replicate f.t1 0 ++ f.levels.map fun l => BitVec.ofNat 32 l.1)
    (List.replicate f.t1 0 ++ f.levels.map fun l => BitVec.ofNat 32 (bitsValue l.2))

/-- What `headOk` says. -/
theorem headOk_iff {f : CavlcFields} {nC : Int} {count : Nat} :
    f.headOk nC count = true ↔
      (∃ c, Tables.tableSelect nC = some c ∧ (f.token, (f.tc, f.t1)) ∈ Tables.coeffToken c) ∧ f.tc ≤ count
        ∧ f.signs.length = f.t1 ∧ levelsOk (initialSuffixLength f.tc f.t1) (decide (f.t1 < 3)) f.levels = true := by
  unfold CavlcFields.headOk
  cases Tables.tableSelect nC with
  | none => simp
  | some c => simp [and_assoc]

/-- From the token on, the fields of the head are read (R97 to R105). -/
theorem reads_head {f : CavlcFields} {r : Run} (hf : f.headOk r.nC r.count = true) (htc : 0 < f.tc)
    (hlv : f.levels.length ≤ f.tc - f.t1) (hp : r.phase = .bit (.coeffToken [])) (hS : r.staged = Results.zero)
    (hfree : PrefixFree r.tokenTable) :
    ∃ q sl, Reads r f.headBits
      (nextLevel (f.t1 + f.levels.length) sl (r.at (r.pos + f.headBits.length) f.headStaged q)) := by
  obtain ⟨⟨c, hc, hm⟩, hcount, hsigns, hlevels⟩ := headOk_iff.1 hf
  obtain ⟨hne, hle, h3, h16⟩ := token_bounds hm
  have ht : r.tokenTable = Tables.coeffToken c := by simp [Run.tokenTable, hc]
  obtain ⟨q0, h0⟩ := reads_vlc hfree (vlcPhase_coeffToken r) f.token [] r.pos (by rw [ht]; exact hm) hne
  have hr : { r with pos := r.pos, phase := .bit (.coeffToken []) } = r := by rw [← hp]
  rw [hr] at h0
  obtain ⟨q1, h1⟩ := reads_signs h16 h3 hle (initialSuffixLength f.tc f.t1) r f.signs (r.pos + f.token.length) [] [] [] [] q0
    (by simpa using hsigns) rfl rfl rfl
  have hlen : (([] : List Word) ++ f.signs.map fun b => BitVec.ofInt 32 (if b then -1 else 1)).length = f.t1 := by
    simpa using hsigns
  obtain ⟨q2, sl, h2⟩ := reads_levels h16 h3 r ([] ++ f.signs) f.levels (initialSuffixLength f.tc f.t1)
    (r.pos + f.token.length + f.signs.length) ([] ++ f.signs.map fun b => BitVec.ofInt 32 (if b then -1 else 1))
    ([] ++ List.replicate f.signs.length 0) ([] ++ List.replicate f.signs.length 0) q1
    (by rw [hlen]; omega) (by rw [hlen]) (by simp) (by simp)
    (by rw [hlen]; simpa using hlevels)
  rw [hlen] at h2
  have hk : withToken f.tc f.t1 { r with pos := r.pos + f.token.length, phase := q0 }
      = nextLevel 0 (initialSuffixLength f.tc f.t1)
        (r.at (r.pos + f.token.length) (levelsStaged f.tc f.t1 [] [] [] []) q0) := by
    unfold withToken
    rw [if_neg (show ¬ f.tc > Run.count { r with pos := r.pos + f.token.length, phase := q0 } from Nat.not_lt.2 hcount)]
    rw [if_neg (by omega)]
    have : levelsStaged f.tc f.t1 [] [] [] []
        = { r.staged with
            value := BitVec.ofNat 32 (f.tc * 4 + f.t1)
            totalcoeff := BitVec.ofNat 32 f.tc
            trailingones := BitVec.ofNat 32 f.t1 } := by
      rw [hS]
      unfold levelsStaged
      rw [wordsOf_nil, maskOf_nil]
      rfl
    rw [this]
    rfl
  rw [hk] at h0
  refine ⟨q2, sl, ?_⟩
  have hall := (h0.append (h1.append h2) : Reads r (f.token ++ (f.signs ++ levelBits f.levels)) _)
  unfold CavlcFields.headBits CavlcFields.headStaged CavlcFields.allLevels
  have hd : decide (f.t1 = f.t1 ∧ f.t1 < 3) = decide (f.t1 < 3) := by simp
  rw [hd] at hall
  have hmap : (f.signs.map fun b => if b then (-1 : Int) else 1).map (BitVec.ofInt 32)
      = f.signs.map fun b => BitVec.ofInt 32 (if b then -1 else 1) := by
    rw [List.map_map]; rfl
  simp only [List.nil_append, hsigns] at hall
  rw [List.map_append, hmap, List.append_assoc]
  simpa [Nat.add_assoc, hsigns] using hall

/-! ### The runs (R109, R110) -/

/-- The staging copy after these runs. -/
def runsStaged (S : Results) (rs : List (List Bool × Nat)) : Results :=
  { S with
    rbmask := maskOf 32 (rs.map fun c => !c.1.isEmpty)
    runbefore := wordsOf (rs.map fun c => BitVec.ofNat 32 c.2)
    run := wordsOf (rs.map fun c => BitVec.ofNat 32 c.2) }

/-- With no zeros left the runs end, whichever coefficient is next (R109). -/
theorem nextRun_zero (i j : Nat) (r : Run) : nextRun i 0 r = nextRun j 0 r := by simp [nextRun]

theorem nextRun_phase (i zl : Nat) (r : Run) (p : Phase) : nextRun i zl { r with phase := p } = nextRun i zl r := by
  unfold nextRun
  rw [show Run.tc { r with phase := p } = r.tc from rfl]
  split <;> rfl

/-- A run with no code: nothing changes (R109). -/
theorem runsStaged_nil_code (S : Results) (rs : List (List Bool × Nat)) : runsStaged S (rs ++ [([], 0)]) = runsStaged S rs := by
  unfold runsStaged
  simp only [List.map_append, List.map_cons, List.map_nil, List.isEmpty_nil, Bool.not_true]
  rw [maskOf_append_false, show BitVec.ofNat 32 0 = (0 : Word) from rfl, wordsOf_append_zero]

/-- One more coded run in that copy. -/
theorem withRunBefore_staged (S : Results) (rs : List (List Bool × Nat)) (zl rb : Nat) (code : List Bool) (hc : code ≠ [])
    (h : rb ≤ zl) (n : Nat) (q : Phase) (r : Run) :
    withRunBefore rs.length zl rb (r.at n (runsStaged S rs) q)
      = nextRun (rs.length + 1) (zl - rb) (r.at n (runsStaged S (rs ++ [(code, rb)])) q) := by
  unfold withRunBefore
  rw [if_neg (by omega)]
  have hS : runsStaged S (rs ++ [(code, rb)])
      = { runsStaged S rs with
          rbmask := putBit (runsStaged S rs).rbmask rs.length true
          runbefore := (runsStaged S rs).runbefore.setIfInBounds rs.length (BitVec.ofNat 32 rb)
          run := (runsStaged S rs).run.setIfInBounds rs.length (BitVec.ofNat 32 rb) } := by
    have hm : (rs.map fun c => !c.1.isEmpty).length = rs.length := by simp
    have hw : (rs.map fun c => BitVec.ofNat 32 c.2).length = rs.length := by simp
    have he : code.isEmpty = false := by cases code <;> simp_all
    unfold runsStaged
    simp only [List.map_append, List.map_cons, List.map_nil, he, Bool.not_false]
    rw [← maskOf_putBit, hm, ← wordsOf_set, hw]
  rw [hS]
  rfl

/-- The runs listed are read, and the next one follows (R109). -/
theorem reads_runs {S : Results} {r : Run} (hfree : ∀ zl, 0 < zl → PrefixFree (Tables.runBefore zl))
    (hcode : ∀ zl, ∀ e ∈ Tables.runBefore zl, e.1 ≠ []) (rs : List (List Bool × Nat)) :
    ∀ (zl n : Nat) (done : List (List Bool × Nat)) (q : Phase), done.length + rs.length + 1 ≤ S.totalcoeff.toNat →
    runsOk zl rs = true →
    ∃ q', Reads (nextRun done.length zl (r.at n (runsStaged S done) q)) (rs.flatMap Prod.fst)
      (nextRun (done.length + rs.length) (zl - (rs.map Prod.snd).sum)
        (r.at (n + (rs.flatMap Prod.fst).length) (runsStaged S (done ++ rs)) q')) := by
  induction rs with
  | nil =>
    intro zl n done q _ _
    refine ⟨q, ?_⟩
    simpa using Reads.nil _
  | cons c rs ih =>
    obtain ⟨code, rb⟩ := c
    intro zl n done q hlen hok
    rw [List.length_cons] at hlen
    simp only [runsOk, Bool.and_eq_true] at hok
    obtain ⟨h1, hok⟩ := hok
    have hl : (done ++ [(code, rb)]).length = done.length + 1 := by simp
    by_cases hz : zl = 0
    · subst hz
      simp only [if_true, decide_eq_true_eq] at h1
      obtain ⟨rfl, rfl⟩ := h1
      obtain ⟨q', h⟩ := ih 0 n (done ++ [([], 0)]) q (by rw [hl]; omega) hok
      refine ⟨q', ?_⟩
      rw [runsStaged_nil_code, hl, Nat.add_assoc, Nat.add_comm 1, Nat.zero_sub,
        nextRun_zero (done.length + 1) done.length (r.at n (runsStaged S done) q)] at h
      simpa [runsStaged_nil_code] using h
    · rw [if_neg hz] at h1
      simp only [decide_eq_true_eq] at h1
      obtain ⟨hm, hle⟩ := h1
      have hn : nextRun done.length zl (r.at n (runsStaged S done) q)
          = { r.at n (runsStaged S done) q with pos := n, phase := .bit (.runBefore done.length zl []) } := by
        unfold nextRun
        rw [if_pos ⟨show done.length + 1 < S.totalcoeff.toNat by omega, by omega⟩]
        rfl
      obtain ⟨q1, h1⟩ := reads_vlc (hfree zl (by omega)) (vlcPhase_runBefore done.length zl (r.at n (runsStaged S done) q))
        code [] n hm (hcode zl _ hm)
      have hw := withRunBefore_staged S done zl rb code (hcode zl _ hm) hle (n + code.length) q1 r
      obtain ⟨q', h⟩ := ih (zl - rb) (n + code.length) (done ++ [(code, rb)]) q1 (by rw [hl]; omega) hok
      refine ⟨q', ?_⟩
      rw [hn]
      rw [hl] at h
      have hall := h1.append (by
        rw [show ({ r.at n (runsStaged S done) q with pos := n + code.length, phase := q1 } : Run)
          = r.at (n + code.length) (runsStaged S done) q1 from rfl, hw]
        exact h)
      simpa [Nat.add_assoc, Nat.add_comm, Nat.add_left_comm, Nat.sub_sub] using hall

/-! ### A whole block up to its placement (R95 to R110) -/

/-- What R87 says of the tables, as the lemmas here take it. -/
def TablesFree : Prop :=
  (∀ c, PrefixFree (Tables.coeffToken c)) ∧ (∀ m tc, PrefixFree (Tables.totalZeros m tc))
    ∧ ∀ zl, PrefixFree (Tables.runBefore zl)

theorem TablesFree.token (h : TablesFree) (r : Run) : PrefixFree r.tokenTable := by
  unfold Run.tokenTable
  split
  · exact h.1 _
  · exact .nil

/-- No total_zeros code is empty. -/
theorem totalZeros_code (m tc : Nat) : ∀ e ∈ Tables.totalZeros m tc, e.1 ≠ [] := by
  unfold Tables.totalZeros Tables.tz420 Tables.tz422 Tables.tz4
  repeat' split
  all_goals decide

/-- No run_before code is empty. -/
theorem runBefore_code (zl : Nat) : ∀ e ∈ Tables.runBefore zl, e.1 ≠ [] := by
  unfold Tables.runBefore
  split <;> decide

/-- What `zerosOk` says. -/
theorem zerosOk_iff {f : CavlcFields} {m count : Nat} :
    f.zerosOk m count = true ↔
      ((f.tc = 0 ∨ f.tc = count) ∧ f.tzCode = [] ∧ f.tz = 0
        ∨ ¬ (f.tc = 0 ∨ f.tc = count) ∧ (f.tzCode, f.tz) ∈ Tables.totalZeros m f.tc)
      ∧ f.tz ≤ count - f.tc := by
  unfold CavlcFields.zerosOk
  split <;> rename_i h <;> simp [h]

/-- total_zeros is read, or is 0 with no bit read, and the runs follow (R107). -/
theorem reads_zeros {f : CavlcFields} {r : Run} {S : Results} (h : TablesFree) (htc : 0 < f.tc) (hle : f.tc ≤ r.count)
    (hz : f.zerosOk r.block.maxc r.count = true) (hS : S.totalcoeff.toNat = f.tc) (sl n : Nat) (q : Phase) :
    ∃ q', Reads (nextLevel f.tc sl (r.at n S q)) f.tzCode
      (nextRun 0 f.tz (r.at (n + f.tzCode.length) { S with totalzeros := BitVec.ofNat 32 f.tz } q')) := by
  obtain ⟨hz, hroom⟩ := zerosOk_iff.1 hz
  have hw : ∀ (k : Nat) (p : Phase), withTotalZeros f.tz (r.at k S p)
      = nextRun 0 f.tz (r.at k { S with totalzeros := BitVec.ofNat 32 f.tz } p) := by
    intro k p
    unfold withTotalZeros
    rw [Run.at_tc, Run.at_count, hS, if_neg (by omega)]
    rfl
  rcases hz with ⟨hz, hc, h0⟩ | ⟨hz, hm⟩
  · have hn : nextLevel f.tc sl (r.at n S q) = withTotalZeros f.tz (r.at n S q) := by
      unfold nextLevel
      rw [Run.at_tc, Run.at_count, hS, if_neg (by omega), if_neg (by omega), h0]
    refine ⟨q, ?_⟩
    rw [hn, hw, hc]
    exact .nil _
  · have hn : nextLevel f.tc sl (r.at n S q) = { r.at n S q with pos := n, phase := .bit (.totalZeros []) } := by
      unfold nextLevel
      rw [Run.at_tc, Run.at_count, hS, if_neg (by omega), if_pos (by omega)]
      rfl
    have hfree : PrefixFree (Tables.totalZeros (r.at n S q).block.maxc (r.at n S q).tc) := h.2.1 _ _
    have hm' : (f.tzCode, f.tz) ∈ Tables.totalZeros (r.at n S q).block.maxc (r.at n S q).tc := by
      rw [show (r.at n S q).tc = f.tc from hS]
      exact hm
    obtain ⟨q', hr⟩ := reads_vlc hfree (vlcPhase_totalZeros (r.at n S q)) f.tzCode [] n hm' (totalZeros_code _ _ _ hm)
    refine ⟨q', ?_⟩
    rw [hn, ← hw]
    exact hr

/-- The staging copy after total_zeros. -/
def CavlcFields.zerosStaged (f : CavlcFields) : Results := { f.headStaged with totalzeros := BitVec.ofNat 32 f.tz }

theorem CavlcFields.headStaged_runs (f : CavlcFields) : runsStaged f.zerosStaged [] = f.zerosStaged := by
  unfold runsStaged
  simp only [List.map_nil]
  rw [maskOf_nil, wordsOf_nil]
  rfl

/-- Every field up to the runs listed is read, and the next run follows (R95 to R110). -/
theorem reads_fields {f : CavlcFields} {r : Run} (h : TablesFree) (hf : f.headOk r.nC r.count = true) (htc : 0 < f.tc)
    (hlv : f.levels.length = f.tc - f.t1) (hz : f.zerosOk r.block.maxc r.count = true) (hruns : f.runs.length ≤ f.tc - 1)
    (hok : runsOk f.tz f.runs = true) (hp : r.phase = .bit (.coeffToken [])) (hS : r.staged = Results.zero) :
    ∃ q, Reads r f.bits
      (nextRun f.runs.length (f.tz - f.runSum) (r.at (r.pos + f.bits.length) (runsStaged f.zerosStaged f.runs) q)) := by
  obtain ⟨⟨c, hc, hm⟩, hcount, hsigns, hlevels⟩ := headOk_iff.1 hf
  obtain ⟨hne, hle, h3, h16⟩ := token_bounds hm
  obtain ⟨q0, sl, h0⟩ := reads_head hf htc (by omega) hp hS (h.token r)
  rw [show f.t1 + f.levels.length = f.tc by omega] at h0
  have hT : f.headStaged.totalcoeff.toNat = f.tc := levelsStaged_tc h16 f.t1 f.signs _ _ _ r 0 .commit
  obtain ⟨q1, h1⟩ := reads_zeros h htc hcount hz hT sl (r.pos + f.headBits.length) q0
  obtain ⟨q2, h2⟩ := reads_runs (S := f.zerosStaged) (r := r) (fun zl _ => h.2.2 zl) runBefore_code f.runs f.tz
    (r.pos + f.headBits.length + f.tzCode.length) [] q1
    (by rw [show f.zerosStaged.totalcoeff = f.headStaged.totalcoeff from rfl, hT]; simp only [List.length_nil]; omega) hok
  rw [f.headStaged_runs] at h2
  refine ⟨q2, ?_⟩
  have hall := h0.append (h1.append h2)
  unfold CavlcFields.bits CavlcFields.runSum
  simpa [Nat.add_assoc, List.append_assoc] using hall

end Sys2Proof.Machine
end

