-- ==== Sys2Proof/Laws/Decode.lean ====
section
/-! SUPPORT. Laws/Decode.lean: the fields of a packed word, and a word packed again from its fields (R63, R70). -/

namespace Sys2Proof

section
variable (op : BitVec 4) (start stop : BitVec 6) (maxc : BitVec 3) (btype : BitVec 5) (cat : BitVec 2)

theorem fieldOp_packWord : fieldOp (packWord op start stop maxc btype cat) = op := by
  apply BitVec.eq_of_getLsbD_eq
  intro i hi
  simp only [fieldOp, packWord, BitVec.getLsbD_extractLsb', BitVec.getLsbD_or, BitVec.getLsbD_shiftLeft,
    BitVec.getLsbD_setWidth]
  interval_cases i <;> simp

theorem fieldStart_packWord : fieldStart (packWord op start stop maxc btype cat) = start := by
  apply BitVec.eq_of_getLsbD_eq
  intro i hi
  simp only [fieldStart, packWord, BitVec.getLsbD_extractLsb', BitVec.getLsbD_or, BitVec.getLsbD_shiftLeft,
    BitVec.getLsbD_setWidth]
  interval_cases i <;> simp

theorem fieldEnd_packWord : fieldEnd (packWord op start stop maxc btype cat) = stop := by
  apply BitVec.eq_of_getLsbD_eq
  intro i hi
  simp only [fieldEnd, packWord, BitVec.getLsbD_extractLsb', BitVec.getLsbD_or, BitVec.getLsbD_shiftLeft,
    BitVec.getLsbD_setWidth]
  interval_cases i <;> simp

theorem fieldMaxc_packWord : fieldMaxc (packWord op start stop maxc btype cat) = maxc := by
  apply BitVec.eq_of_getLsbD_eq
  intro i hi
  simp only [fieldMaxc, packWord, BitVec.getLsbD_extractLsb', BitVec.getLsbD_or, BitVec.getLsbD_shiftLeft,
    BitVec.getLsbD_setWidth]
  interval_cases i <;> simp

theorem fieldBtype_packWord : fieldBtype (packWord op start stop maxc btype cat) = btype := by
  apply BitVec.eq_of_getLsbD_eq
  intro i hi
  simp only [fieldBtype, packWord, BitVec.getLsbD_extractLsb', BitVec.getLsbD_or, BitVec.getLsbD_shiftLeft,
    BitVec.getLsbD_setWidth]
  interval_cases i <;> simp

theorem fieldCat_packWord : fieldCat (packWord op start stop maxc btype cat) = cat := by
  apply BitVec.eq_of_getLsbD_eq
  intro i hi
  simp only [fieldCat, packWord, BitVec.getLsbD_extractLsb', BitVec.getLsbD_or, BitVec.getLsbD_shiftLeft,
    BitVec.getLsbD_setWidth]
  interval_cases i <;> simp

theorem fieldRsv_packWord : fieldRsv (packWord op start stop maxc btype cat) = 0 := by
  apply BitVec.eq_of_getLsbD_eq
  intro i hi
  simp only [fieldRsv, packWord, BitVec.getLsbD_extractLsb', BitVec.getLsbD_or, BitVec.getLsbD_shiftLeft,
    BitVec.getLsbD_setWidth]
  interval_cases i <;> simp

/-- A packed word is its fields side by side (R63). -/
theorem packWord_eq_append :
    packWord op start stop maxc btype cat = (0#6 ++ cat ++ btype ++ maxc ++ stop ++ start ++ op : BitVec 32) := by
  apply BitVec.eq_of_getLsbD_eq
  intro i hi
  simp only [packWord, BitVec.getLsbD_or, BitVec.getLsbD_shiftLeft, BitVec.getLsbD_setWidth, BitVec.getLsbD_append]
  interval_cases i <;> simp

end

/-- The number of two fields side by side. -/
theorem toNat_append_eq {n m : Nat} (x : BitVec n) (y : BitVec m) : (x ++ y).toNat = x.toNat * 2 ^ m + y.toNat := by
  rw [BitVec.toNat_append, ← Nat.shiftLeft_add_eq_or_of_lt y.isLt, Nat.shiftLeft_eq]

/-- A word with RSV = 0 is packed from its own fields. -/
theorem packWord_fields {w : Word} (h : fieldRsv w = 0) :
    packWord (fieldOp w) (fieldStart w) (fieldEnd w) (fieldMaxc w) (fieldBtype w) (fieldCat w) = w := by
  have hr : ∀ i, 26 ≤ i → i < 32 → w.getLsbD i = false := by
    intro i h1 h2
    have := congrArg (fun b => b.getLsbD (i - 26)) h
    simp only [fieldRsv, BitVec.getLsbD_extractLsb'] at this
    rw [show 26 + (i - 26) = i by omega] at this
    simp only [show i - 26 < 6 by omega, decide_true, Bool.true_and] at this
    simpa using this
  apply BitVec.eq_of_getLsbD_eq
  intro i hi
  simp only [fieldOp, fieldStart, fieldEnd, fieldMaxc, fieldBtype, fieldCat, packWord, BitVec.getLsbD_extractLsb',
    BitVec.getLsbD_or, BitVec.getLsbD_shiftLeft, BitVec.getLsbD_setWidth]
  have := hr i
  interval_cases i <;> simp
  all_goals exact this (by omega) (by omega)

/-- CMD[25:4] = 0 makes every operand field 0 (R68). -/
theorem fields_of_stray_zero {w : Word} (h : fieldStray w = 0) :
    fieldStart w = 0 ∧ fieldEnd w = 0 ∧ fieldMaxc w = 0 ∧ fieldBtype w = 0 ∧ fieldCat w = 0 := by
  have hr : ∀ k, 4 ≤ k → k < 26 → w.getLsbD k = false := by
    intro k h1 h2
    have := congrArg (fun b => b.getLsbD (k - 4)) h
    simp only [fieldStray, BitVec.getLsbD_extractLsb'] at this
    rw [show 4 + (k - 4) = k by omega] at this
    simp only [show k - 4 < 22 by omega, decide_true, Bool.true_and] at this
    simpa using this
  refine ⟨?_, ?_, ?_, ?_, ?_⟩ <;>
  · apply BitVec.eq_of_getLsbD_eq
    intro i hi
    simp only [fieldStart, fieldEnd, fieldMaxc, fieldBtype, fieldCat, BitVec.getLsbD_extractLsb']
    rw [hr _ (by omega) (by omega), Bool.and_false]
    exact BitVec.getLsbD_zero.symm

end Sys2Proof
end

