-- ==== Sys2Proof/Laws/PerInstr.lean ====
section
/-! SUPPORT. Laws/PerInstr.lean: the family `TableRow`: the word of every command carries the OP of its opcode-table row and RSV = 0
(R63, R64). -/

namespace Sys2Proof.Laws.TableRow

open Sys2Proof

/-- OP of a command (R64). -/
def opOf : Instr → BitVec 4
  | .readUe => 0x1
  | .readSe => 0x2
  | .readTe => 0x3
  | .readCe => 0x4
  | .cavlcBlock _ _ _ _ => 0x5
  | .cabacBlock _ _ _ _ _ => 0x6

/-- The command's word has the OP of its row and RSV = 0. -/
def Statement (i : Instr) : Prop := fieldOp (encode i) = opOf i ∧ fieldRsv (encode i) = 0

theorem readUe : Statement .readUe := ⟨fieldOp_packWord .., fieldRsv_packWord ..⟩
theorem readSe : Statement .readSe := ⟨fieldOp_packWord .., fieldRsv_packWord ..⟩
theorem readTe : Statement .readTe := ⟨fieldOp_packWord .., fieldRsv_packWord ..⟩
theorem readCe : Statement .readCe := ⟨fieldOp_packWord .., fieldRsv_packWord ..⟩
theorem cavlcBlock (start stop : BitVec 6) (maxc : BitVec 3) (btype : BitVec 5) :
    Statement (.cavlcBlock start stop maxc btype) := ⟨fieldOp_packWord .., fieldRsv_packWord ..⟩
theorem cabacBlock (start stop : BitVec 6) (maxc : BitVec 3) (btype : BitVec 5) (cat : BitVec 2) :
    Statement (.cabacBlock start stop maxc btype cat) := ⟨fieldOp_packWord .., fieldRsv_packWord ..⟩

end Sys2Proof.Laws.TableRow
end

