-- ==== Sys2Proof/Laws/Registers.lean ====
section
/-! SUPPORT. Laws/Registers.lean: the word of STATUS bit by bit (R17), the register arrays slot by slot (R32 to R41) and the slots that
ignore a write (R42, R55). -/

namespace Sys2Proof.Machine

/-- STATUS as its fields side by side (R17). -/
theorem statusWord_eq_append (busy : Bool) (st : Status) :
    statusWord busy st
      = (0#23 ++ BitVec.ofBool st.dropped ++ 0#1 ++ st.err ++ 0#2 ++ BitVec.ofBool st.valid ++ BitVec.ofBool busy :
          BitVec 32) := by
  apply BitVec.eq_of_getLsbD_eq
  intro i hi
  simp only [statusWord, BitVec.getLsbD_or, BitVec.getLsbD_shiftLeft, BitVec.getLsbD_setWidth, BitVec.getLsbD_append]
  interval_cases i <;> simp

/-- A slot from 0x010 on is a result register or reserved. -/
theorem readSlot_result {off : Nat} (h : 0x010 ≤ off) (s : State) : readSlot off s = resultSlot off s.results := by
  unfold readSlot
  rw [if_neg (by omega), if_neg (by omega), if_neg (by omega), if_neg (by omega)]

theorem resultSlot_level (S : Results) {i : Nat} (hi : i < 16) : resultSlot (0x040 + 4 * i) S = S.level.getD i 0 := by
  unfold resultSlot
  repeat rw [if_neg (by omega)]
  rw [if_pos (by omega)]
  congr 1; omega

theorem resultSlot_run (S : Results) {i : Nat} (hi : i < 16) : resultSlot (0x080 + 4 * i) S = S.run.getD i 0 := by
  unfold resultSlot
  repeat rw [if_neg (by omega)]
  rw [if_pos (by omega)]
  congr 1; omega

theorem resultSlot_levelprefix (S : Results) {i : Nat} (hi : i < 16) :
    resultSlot (0x0C0 + 4 * i) S = S.levelprefix.getD i 0 := by
  unfold resultSlot
  repeat rw [if_neg (by omega)]
  rw [if_pos (by omega)]
  congr 1; omega

theorem resultSlot_levelsuffix (S : Results) {i : Nat} (hi : i < 16) :
    resultSlot (0x100 + 4 * i) S = S.levelsuffix.getD i 0 := by
  unfold resultSlot
  repeat rw [if_neg (by omega)]
  rw [if_pos (by omega)]
  congr 1; omega

theorem resultSlot_runbefore (S : Results) {i : Nat} (hi : i < 16) :
    resultSlot (0x140 + 4 * i) S = S.runbefore.getD i 0 := by
  unfold resultSlot
  repeat rw [if_neg (by omega)]
  rw [if_pos (by omega)]
  congr 1; omega

theorem resultSlot_abslm1 (S : Results) {j : Nat} (hj : j < 64) :
    resultSlot (0x200 + 4 * j) S = S.abslm1.getD j 0 := by
  unfold resultSlot
  repeat rw [if_neg (by omega)]
  rw [if_pos (by omega)]
  congr 1; omega

theorem resultSlot_coef (S : Results) {j : Nat} (hj : j < 64) : resultSlot (0x300 + 4 * j) S = S.coef.getD j 0 := by
  unfold resultSlot
  repeat rw [if_neg (by omega)]
  congr 1; omega

/-- A slot other than CMD, ARG and POS ignores a write (R42, R55). -/
theorem writeSlot_readOnly {off : Nat} (h0 : off ≠ 0x000) (h1 : off ≠ 0x004) (h2 : off ≠ 0x008) (v : Word) (s : State) :
    writeSlot off v s = s := by
  simp [writeSlot, h0, h1, h2]

/-- A 64-bit map is its two halves (R37 to R39). -/
theorem halves_append (m : BitVec 64) : m.extractLsb' 32 32 ++ m.extractLsb' 0 32 = m := by
  apply BitVec.eq_of_getLsbD_eq
  intro i hi
  simp only [BitVec.getLsbD_append, BitVec.getLsbD_extractLsb']
  split
  · simp_all
  · rw [show 32 + (i - 32) = i by omega]
    simp; omega

end Sys2Proof.Machine
end

