-- ==== Sys2Proof/Laws/Step.lean ====
section
/-! SUPPORT. Laws/Step.lean: the machine's step by what the inbox lists, runs of it, every meaning as one operation, and the Host's
`wait` (R71). -/

namespace Sys2Proof.Machine

/-- Every meaning is its command taken from its start to its end. -/
theorem exec_eq_runCommand (i : Instr) (s : State) : exec i s = .next (runCommand (encode i) (some i) s) := by
  cases i <;> rfl

theorem step_empty {s : State} (h : s.inbox = []) : step s = .next (coreStep s) := by
  simp [step, nextStep, h]

theorem step_event (s : State) (e : Event) (rest : List Event) :
    step { s with inbox := e :: rest } = takeEvent e { s with inbox := rest } := rfl

theorem step_core (s : State) (rest : List Event) :
    step { s with inbox := .core :: rest } = .next (coreStep { s with inbox := rest }) := rfl

/-- One step of a run. -/
theorem core_run_succ {s t : State} (h : step s = .next t) (n : Nat) :
    Sys2Proof.core.run (n + 1) s = Sys2Proof.core.run n t := by
  have h' : Sys2Proof.core.step s = .next t := h
  simp only [Host.Core.run, h']

theorem core_run_zero (s : State) : Sys2Proof.core.run 0 s = .next s := rfl

/-- A Core step leaves the inbox alone, and does the same whatever the inbox holds. -/
theorem coreStep_inbox (s : State) (q : List Event) :
    coreStep { s with inbox := q } = { coreStep s with inbox := q } := by
  obtain ⟨cmd, arg, pos, status, results, run, bits, engine, rule, reads, inbox, draws⟩ := s
  cases run with
  | none => rfl
  | some r =>
    simp only [coreStep, runStep]
    cases r.phase with
    | check c => rfl
    | bit p =>
      simp only [bitStep]
      rw [show bitAt ⟨cmd, arg, pos, status, results, some r, bits, engine, rule, reads, q, draws⟩ r
        = bitAt ⟨cmd, arg, pos, status, results, some r, bits, engine, rule, reads, inbox, draws⟩ r from rfl]
      cases bitAt ⟨cmd, arg, pos, status, results, some r, bits, engine, rule, reads, inbox, draws⟩ r with
      | mk b d => cases b <;> rfl
    | bin p =>
      simp only [binStep]
      obtain ⟨answers, requests⟩ := engine
      cases answers <;> rfl
    | place n c => rfl
    | commit => rfl
    | abort e => simp only [abortRun]; split <;> rfl

/-- A listed sequence of Core steps is that many Core steps. -/
theorem core_run_replicate (n : Nat) (s : State) (rest : List Event) :
    Sys2Proof.core.run n { s with inbox := List.replicate n .core ++ rest }
      = .next { coreStep^[n] s with inbox := rest } := by
  induction n generalizing s with
  | zero => rfl
  | succ n ih =>
    rw [List.replicate_succ, List.cons_append, core_run_succ (step_core s _), coreStep_inbox, ih,
      Function.iterate_succ_apply]

/-! ### `wait` (R71) -/

/-- No step of another agent is listed. -/
theorem firstOtherStep_none {l : List Event} (h : ∀ e ∈ l, isHostStep e = true) : firstOtherStep l = none := by
  induction l with
  | nil => rfl
  | cons e l ih => simp [firstOtherStep, h e (by simp), ih (fun x hx => h x (by simp [hx]))]

/-- The first listed step of another agent stands after steps of the Host. -/
theorem firstOtherStep_some {own others : List Event} {e : Event} (h : ∀ x ∈ own, isHostStep x = true)
    (he : isHostStep e = false) : firstOtherStep (own ++ e :: others) = some (e, own ++ others) := by
  induction own with
  | nil => simp [firstOtherStep, he]
  | cons x l ih =>
    have := ih (fun y hy => h y (by simp [hy]))
    simp [firstOtherStep, h x (by simp), this]

/-- Bit 0 of what a poll reads is BUSY (R17, R18). -/
theorem readStatus_busy (s : State) : (readSlot 0x00C s).getLsbD 0 = s.busy := by
  show (statusWord s.busy s.status).getLsbD 0 = _
  rw [statusWord_eq_append, BitVec.getLsbD_append, if_pos (by decide)]
  cases s.busy <;> rfl

/-- One poll of `wait` on an idle Core. -/
theorem step_wait_idle {s : State} (h : s.run = none) (rest : List Event) :
    step { s with inbox := .wait :: rest } = .next { s with inbox := rest, reads := s.reads ++ [readSlot 0x00C s] } := by
  have hb : (readSlot 0x00C { s with inbox := rest }).getLsbD 0 = false := by
    rw [readStatus_busy]
    simp [State.busy, h]
  show Host.Outcome.next (pollStatus { s with inbox := rest }) = _
  unfold pollStatus
  rw [if_neg (by rw [hb]; decide)]
  rfl

/-- One poll of `wait` while a command runs. -/
theorem step_wait_busy {s : State} (h : s.run ≠ none) (rest : List Event) :
    step { s with inbox := .wait :: rest }
      = .next { s with inbox := betweenPolls s rest, reads := s.reads ++ [readSlot 0x00C s] } := by
  have hb : (readSlot 0x00C { s with inbox := rest }).getLsbD 0 = true := by
    rw [readStatus_busy]
    exact Option.isSome_iff_ne_none.2 h
  show Host.Outcome.next (pollStatus { s with inbox := rest }) = _
  unfold pollStatus
  rw [if_pos hb]
  rfl

theorem run_of_waiting {s : State} (h : waiting s = true) : s.run ≠ none := by
  intro h0
  simp [waiting, h0] at h

theorem stalled_of_waiting {s : State} (h : waiting s = true) : stalled s = true := by simp [stalled, h]

/-- A Core step does the same whatever the Host has read. -/
theorem coreStep_reads (s : State) (rd : List Word) : coreStep { s with reads := rd } = { coreStep s with reads := rd } := by
  obtain ⟨cmd, arg, pos, status, results, run, bits, engine, rule, reads, inbox, draws⟩ := s
  cases run with
  | none => rfl
  | some r =>
    simp only [coreStep, runStep]
    cases r.phase with
    | check c => rfl
    | bit p =>
      simp only [bitStep]
      rw [show bitAt ⟨cmd, arg, pos, status, results, some r, bits, engine, rule, rd, inbox, draws⟩ r
        = bitAt ⟨cmd, arg, pos, status, results, some r, bits, engine, rule, reads, inbox, draws⟩ r from rfl]
      cases bitAt ⟨cmd, arg, pos, status, results, some r, bits, engine, rule, reads, inbox, draws⟩ r with
      | mk b d => cases b <;> rfl
    | bin p =>
      simp only [binStep]
      obtain ⟨answers, requests⟩ := engine
      cases answers <;> rfl
    | place n c => rfl
    | commit => rfl
    | abort e => simp only [abortRun]; split <;> rfl

theorem iterate_reads (n : Nat) (s : State) (rd : List Word) :
    coreStep^[n] { s with reads := rd } = { coreStep^[n] s with reads := rd } := by
  induction n generalizing s with
  | zero => rfl
  | succ n ih => rw [Function.iterate_succ_apply, Function.iterate_succ_apply, coreStep_reads, ih]

/-- A Core step that does not end the command leaves STATUS as it was (R12). -/
theorem coreStep_status {s : State} (h : (coreStep s).run ≠ none) : (coreStep s).status = s.status := by
  rcases coreStep_cases s with ⟨_, e⟩ | ⟨r, _, ⟨r', _, e⟩ | ⟨_, _, _, e⟩ | ⟨_, _, _, _, e⟩ | ⟨_, _, _, e⟩ | ⟨_, _, _, _, e⟩
      | ⟨_, _, _, _, _, e⟩ | ⟨_, e⟩ | ⟨er, _, e⟩⟩ <;> rw [e] at h ⊢
  · exact absurd rfl h
  · exfalso
    apply h
    unfold abortRun
    split <;> rfl

/-- A `wait` after which the Core's steps end the command: each poll but the last reads STATUS = 1. -/
theorem core_run_wait (rest : List Event) (k : Nat) : ∀ s : State, (s.run ≠ none → s.status = ⟨false, 0, false⟩) →
    (coreStep^[k] s).run = none →
    ∃ n m, Sys2Proof.core.run n { s with inbox := .wait :: rest }
      = .next { coreStep^[k] s with
          inbox := rest
          reads := s.reads ++ List.replicate m 1 ++ [readSlot 0x00C (coreStep^[k] s)] } := by
  have hidle : ∀ s : State, s.run = none → ∃ n m, Sys2Proof.core.run n { s with inbox := .wait :: rest }
      = .next { s with inbox := rest, reads := s.reads ++ List.replicate m 1 ++ [readSlot 0x00C s] } :=
    fun s h => ⟨1, 0, by rw [core_run_succ (step_wait_idle h rest), core_run_zero]; simp⟩
  induction k with
  | zero => exact fun s _ h => hidle s h
  | succ k ih =>
    intro s hst h
    by_cases hr : s.run = none
    · rw [iterate_stalled ((stalled_iff s).2 (.inl hr))]
      exact hidle s hr
    · have hw : waiting s = false := by
        by_contra hw
        rw [iterate_stalled (stalled_of_waiting (by simpa using hw))] at h
        exact hr h
      have h1 : readSlot 0x00C s = 1 := by
        show statusWord s.busy s.status = 1
        rw [hst hr, show s.busy = true from Option.isSome_iff_ne_none.2 hr]
        decide
      rw [Function.iterate_succ_apply] at h ⊢
      have hp := step_wait_busy hr rest
      rw [show betweenPolls s rest = .core :: .wait :: rest by simp [betweenPolls, hw], h1] at hp
      have hc := step_core { s with reads := s.reads ++ [1] } (.wait :: rest)
      rw [coreStep_inbox, coreStep_reads] at hc
      obtain ⟨n, m, hn⟩ := ih { coreStep s with reads := s.reads ++ [1] }
        (fun hne => (coreStep_status hne).trans (hst hr)) (by
          rw [iterate_reads]; exact h)
      refine ⟨n + 1 + 1, m + 1, ?_⟩
      rw [core_run_succ hp, core_run_succ hc]
      rw [hn, iterate_reads]
      simp [List.replicate_succ]
      rfl

end Sys2Proof.Machine
end

