-- ==== Sys2Proof/Tests/Slice0.lean ====
section
/-! SUPPORT. Tests/Slice0.lean: tests whose expected results are 95_test_vectors.md's (the vector's name stands beside each), and for
every statement with hypotheses a witness that they can be met together. -/

namespace Sys2Proof.Tests

open Sys2Proof Sys2Proof.Machine

/-! ### Small states -/

/-- An idle machine with this ARG, POS and bitstream and these Engine answers; every other field 0. -/
def idle (arg pos : Word) (bits : List Bool) (answers : List Answer) : State where
  cmd := 0
  arg := arg
  pos := pos
  status := ⟨false, 0, false⟩
  results := Results.zero
  run := none
  bits := bits
  engine := ⟨answers, []⟩
  cbfRule := .doc
  reads := []
  inbox := []
  draws := 0

/-- `n` as a string of `len` bits, first bit most significant. -/
def str (n len : Nat) : List Bool := (List.range len).map fun k => n.testBit (len - 1 - k)

/-- Bins as answers. -/
def bins (l : List Bool) : List Answer := l.map .bin

/-- The state an outcome goes on to. -/
def after (o : Host.Outcome State Fault Refusal) : State :=
  match o with
  | .next t => t
  | .fault _ => idle 0 0 [] []
  | .refused _ => idle 0 0 [] []

/-- The machine went on. -/
def goesOn (o : Host.Outcome State Fault Refusal) : Bool :=
  match o with
  | .next _ => true
  | .fault _ => false
  | .refused _ => false

/-- What of a bit command's end the tests look at: STATUS, POS, VALUE and BITS. -/
def scalar (o : Host.Outcome State Fault Refusal) : Nat × Nat × Nat × Nat :=
  ((readSlot 0x00C (after o)).toNat, (readSlot 0x008 (after o)).toNat, (readSlot 0x010 (after o)).toNat,
    (readSlot 0x02C (after o)).toNat)

/-- The first `n` entries of COEF as signed numbers. -/
def coefs (n : Nat) (o : Host.Outcome State Fault Refusal) : List Int :=
  ((after o).results.coef.toList.take n).map BitVec.toInt

/-- A running command in a phase, whose word is `w`. -/
def running (w : Word) (pos : Word) (p : Phase) (bits : List Bool) (answers : List Answer) : State :=
  { idle 0 pos bits answers with
    cmd := w
    run := some
      { cmd := w, arg := 0, posStart := pos, pos := pos.toNat, staged := Results.zero, reqs := 0, phase := p,
        changed := [], lenChanged := false } }

/-! ### WellFormed refuses ill-formed terms (R68) -/

/-- V-CABAC-IC3: MAXC code 5 is reserved. -/
theorem test_maxcDefined_refuses :
    (Instr.cabacBlock 0 15 5 0 1).maxcDefined = false ∧ (Instr.cabacBlock 0 15 5 0 1).wellFormed = false := by decide

/-- V-CABAC-IC1: start 3 > end 2. -/
theorem test_spanOrdered_refuses :
    (Instr.cabacBlock 3 2 0 0 1).spanOrdered = false ∧ (Instr.cabacBlock 3 2 0 0 1).wellFormed = false := by decide

/-- V-CABAC-IC2: end 4 > maxc 4 - 1. -/
theorem test_spanFits_refuses :
    (Instr.cabacBlock 0 4 0 0 1).spanFits = false ∧ (Instr.cabacBlock 0 4 0 0 1).wellFormed = false := by decide

/-- V-EG-21: READ_TE with range 0. -/
theorem test_range0_refused : legal .readTe 0 = false ∧ legal .readTe 1 = true := by decide

/-- V-CAVLC-IC1 to IC5: an nC that CAVLC_BLOCK does not accept. -/
theorem test_nC_refused :
    legal (.cavlcBlock 0 15 3 0) (BitVec.ofInt 32 (-3)) = false ∧ legal (.cavlcBlock 0 3 0 0) 0 = false
    ∧ legal (.cavlcBlock 0 15 3 0) (BitVec.ofInt 32 (-1)) = false
    ∧ legal (.cavlcBlock 0 15 3 0) (BitVec.ofInt 32 (-2)) = false ∧ legal (.cavlcBlock 0 63 4 0) 0 = false
    ∧ legal (.cavlcBlock 0 15 3 0) 0x7FFFFFFF = true := by decide

/-! ### Decoding (R63, R64, R68): words written out field by field, RSV CAT BTYPE MAXC END START OP -/

theorem test_decode_readUe : decodeTableWord 32 0b000000_00_00000_000_000000_000000_0001 = some .readUe := by decide
theorem test_decode_readSe : decodeTableWord 32 0b000000_00_00000_000_000000_000000_0010 = some .readSe := by decide
theorem test_decode_readTe : decodeTableWord 32 0b000000_00_00000_000_000000_000000_0011 = some .readTe := by decide
theorem test_decode_readCe : decodeTableWord 32 0b000000_00_00000_000_000000_000000_0100 = some .readCe := by decide
/-- Start 1, end 14, MAXC code 2, btype 19. -/
theorem test_decode_cavlcBlock :
    decodeTableWord 32 0b000000_00_10011_010_001110_000001_0101 = some (.cavlcBlock 1 14 2 19) := by decide
/-- V-CABAC-5: 0x023B1426 is start 2, end 5, MAXC code 3, btype 7, cat 2. -/
theorem test_decode_cabacBlock :
    decodeTableWord 32 0b000000_10_00111_011_000101_000010_0110 = some (.cabacBlock 2 5 3 7 2)
    ∧ (0b000000_10_00111_011_000101_000010_0110 : Nat) = 0x023B1426 := by decide
/-- V-CMD-0, V-CMD-7, V-CMD-F, V-CMD-STRAY, V-CMD-RSV, V-CAVLC-IC6 and V-CABAC-IC4 are rejected by name. -/
theorem test_decode_rejects :
    decode 0x00000000 = .error (.reservedOp 0) ∧ decode 0x00000007 = .error (.reservedOp 7)
    ∧ decode 0x0000000F = .error (.reservedOp 15) ∧ decode 0x00000011 = .error .strayBits
    ∧ decode 0x80000001 = .error .reservedBits ∧ decode 0x01033C05 = .error .catNotZero
    ∧ decode 0x05033C06 = .error .reservedBits := by decide

/-! ### Commands -/

/-- V-EG-MAXUE: 31 zeros, 1, 31 ones. -/
theorem test_readUe_max : scalar (exec .readUe (idle 0 0 (str 0xFFFFFFFF 63) [])) = (0x002, 63, 0xFFFFFFFE, 63) := by decide
/-- V-EG-POS. -/
theorem test_readUe_pos : scalar (exec .readUe (idle 0 3 (str 0b11100100 8) [])) = (0x002, 8, 3, 5) := by decide
/-- V-EG-12: k = 4 is -2. -/
theorem test_readSe_even : scalar (exec .readSe (idle 0 0 (str 0b00101 5) [])) = (0x002, 5, 0xFFFFFFFE, 5) := by decide
/-- V-EG-MAXSE: 31 zeros, 1, 30 ones, 0. -/
theorem test_readSe_max : scalar (exec .readSe (idle 0 0 (str 0xFFFFFFFE 63) [])) = (0x002, 63, 0x7FFFFFFF, 63) := by decide
/-- V-EG-18: one inverted bit. -/
theorem test_readTe_bit : scalar (exec .readTe (idle 1 0 [false] [])) = (0x002, 1, 1, 1) := by decide
/-- V-EG-20: a value above the range is returned as read. -/
theorem test_readTe_ue : scalar (exec .readTe (idle 2 0 (str 0b00111 5) [])) = (0x002, 5, 6, 5) := by decide
/-- V-EG-17. -/
theorem test_readCe : scalar (exec .readCe (idle 0 0 (str 0b00101 5) [])) = (0x002, 5, 4, 5) := by decide
/-- V-EG-EMPTY: no bit, so POS has one value of its range, the abort's draw included. -/
theorem test_readCe_empty : (after (exec .readCe (idle 0 0 [] []))).status = ⟨false, 1, false⟩ := by decide

/-- V-CAVLC-1, the published worked example. -/
theorem test_cavlcBlock_example :
    scalar (exec (.cavlcBlock 0 15 3 0) (idle 0 0 (str 0b000010001110010111101101 24) [])) = (0x002, 24, 23, 24)
    ∧ coefs 9 (exec (.cavlcBlock 0 15 3 0) (idle 0 0 (str 0b000010001110010111101101 24) []))
        = [0, 3, 0, 1, -1, -1, 0, 1, 0] := by decide
/-- V-CAVLC-ESC16: an escape level, with both additions of R103. -/
theorem test_cavlcBlock_escape :
    coefs 2 (exec (.cavlcBlock 0 15 3 0) (idle 0 0 (str 0b0001010000000000000000100000000000001 37) [])) = [2065, 0] := by
  decide

/-- V-CABAC-2: COEF, and the ABS descriptors with the counters of R124. -/
theorem test_cabacBlock_example :
    coefs 4 (exec (.cabacBlock 0 3 0 0 1) (idle 0 0 [] (bins (str 0b11001101100 11)))) = [2, 0, -1, 0]
    ∧ (after (exec (.cabacBlock 0 3 0 0 1) (idle 0 0 [] (bins (str 0b11001101100 11))))).engine.requests.drop 6
        = [.decision ⟨.abs, 0, 4, 1, 2, 0, 0, 0⟩, .bypass, .decision ⟨.abs, 0, 4, 1, 0, 0, 0, 1⟩,
            .decision ⟨.abs, 0, 4, 1, 0, 1, 0, 1⟩, .bypass] := by decide
/-- V-CABAC-MAX: the largest level, in 75 requests. -/
theorem test_cabacBlock_max :
    coefs 1 (exec (.cabacBlock 0 0 0 0 1)
        (idle 0 0 [] (bins (List.replicate 44 true ++ false :: List.replicate 30 true)))) = [-1073741837]
    ∧ (after (exec (.cabacBlock 0 0 0 0 1)
        (idle 0 0 [] (bins (List.replicate 44 true ++ false :: List.replicate 30 true))))).results.reqs = 75 := by decide

/-! ### The machine around the commands -/

/-- The opcode-table word is the first command to run after reset. -/
theorem test_withFetchWord :
    goesOn (step (State.reset.withFetchWord 32 0x00000001)) = true
    ∧ (after (step (State.reset.withFetchWord 32 0x00000001))).cmd = 0x00000001 := by decide
/-- V-CMD-0: a reserved word ends with InvalidCommand and POS keeps its value. -/
theorem test_invalidCommand :
    scalar (step { idle 0 7 [] [] with inbox := [.run 0x00000000] }) = (0x050, 7, 0, 0) := by decide
/-- Program 4, its dropped write: STATUS ends as 0x102 and POS as 17. -/
theorem test_droppedWrite :
    scalar (Sys2Proof.core.run 9
        { idle 0 16 (List.replicate 15 false ++ [true, true]) [] with
          inbox := [hostWrite 0x000 1, hostWrite 0x008 0] ++ waitIdle })
      = (0x102, 17, 0, 1) := by decide
/-- The expansion of `cavlc_4x4 arg=0` writes ARG, then CMD, then polls STATUS (R71) until it reads 0x002 (V-CAVLC-A): three Core
steps, each after a poll that reads BUSY = 1. -/
theorem test_runProgram :
    (after (Sys2Proof.core.run 9 { idle 9 0 [true] [] with inbox := cavlc4x4 0 })).reads = [0x001, 0x001, 0x001, 0x002]
    ∧ (after (Sys2Proof.core.run 9 { idle 9 0 [true] [] with inbox := cavlc4x4 0 })).inbox = [] := by decide
/-- A CABAC_BLOCK without an Engine answer does not pass its `wait` (R71, R153): V-CABAC-1, whose Engine answers late, ends. -/
theorem test_wait_hangs :
    (after (Sys2Proof.core.run 20
        { idle 0 0 [] [] with inbox := runProgram (.cabacBlock 0 15 3 0 1) none ++ [hostRead 0x030] })).busy = true
    ∧ (after (Sys2Proof.core.run 12
        { idle 0 0 [] [] with
          inbox := runProgram (.cabacBlock 0 15 3 0 1) none ++ [hostRead 0x030, .engine [.bin false]] })).reads
      = [0x001, 0x001, 0x001, 0x001, 0x002, 1] := by decide

/-! ### Witnesses: each statement's hypotheses, met together -/

theorem witness_EveryDecodedWordIsItsEncoding : decode 0x00033C05 = .ok (.cavlcBlock 0 15 3 0) := by decide

/-- One word for each item of R68, at the edge of its range. -/
theorem witness_IllegalCommandsAbort :
    (idle 0 0 [] []).run = none
    ∧ IllegalWord 0x00000000 0 ∧ IllegalWord 0x00000007 0 ∧ IllegalWord 0x04000001 0 ∧ IllegalWord 0x00000011 0
    ∧ IllegalWord 0x02000002 0 ∧ IllegalWord 0x01033C05 0 ∧ IllegalWord 0x00053C06 0 ∧ IllegalWord 0x01000836 0
    ∧ IllegalWord 0x01001006 0 ∧ IllegalWord 0x00000003 0 ∧ IllegalWord 0x0004FC05 0
    ∧ IllegalWord 0x00033C05 0xFFFFFFFD ∧ IllegalWord 0x00033C05 0xFFFFFFFF ∧ IllegalWord 0x00033C05 0xFFFFFFFE
    ∧ IllegalWord 0x00000C05 0 := by
  refine ⟨rfl, ?_, ?_, ?_, ?_, ?_, ?_, ?_, ?_, ?_, ?_, ?_, ?_, ?_, ?_, ?_⟩ <;> (dsimp only [IllegalWord]; decide)
/-- The other side: legal words. -/
theorem witness_IllegalExactlyWhenNoLegalCommand :
    ¬ IllegalWord 0x00000003 1 ∧ ¬ IllegalWord 0x00033C05 0 ∧ ¬ IllegalWord 0x00000C05 0xFFFFFFFF
    ∧ ¬ IllegalWord 0x0304FC06 0 := by
  refine ⟨?_, ?_, ?_, ?_⟩ <;> (dsimp only [IllegalWord]; decide)

/-- Both ends of each reserved range. -/
theorem witness_ReservedSlotsReadZero :
    ∀ off ∈ [0x038, 0x03C, 0x198, 0x1FC], (off = 0x038 ∨ off = 0x03C ∨ (0x198 ≤ off ∧ off ≤ 0x1FC)) ∧ off % 4 = 0 := by
  decide
theorem witness_HostAccessSideEffects :
    (idle 0 0 [] []).run = none ∧ (∀ off ∈ [0x000, 0x004, 0x008, 0x00C, 0x3FC], off < 0x400 ∧ off % 4 = 0)
    ∧ ∀ off ∈ [0x00C, 0x3FC], off ≠ 0x000 ∧ off ≠ 0x004 ∧ off ≠ 0x008 := by decide
theorem witness_UnsupportedAccessesAreRefused :
    ∀ a ∈ [(0x400, 32), (0x001, 32), (0x3FE, 32), (0x000, 16), (0x000, 64)],
      0x400 ≤ a.1 ∨ a.1 % 4 ≠ 0 ∨ a.2 ≠ 32 := by decide
theorem witness_WritesWhileBusyAreDropped :
    (running 0x00000001 0 (.bit (.egZeros .ue 0)) [true] []).run ≠ none := by decide
theorem witness_DroppedWritesDoNotDisturbTheCommand :
    (running 0x00000006 0 (.bin .codedBlockFlag) [] [.bin true]).run ≠ none := by decide
theorem witness_CmdWriteStartsACommand : (idle 5 6 [] []).run = none := rfl
theorem witness_CommitAndAbortAreSingleSteps :
    (∃ r, (running 0x00000001 3 .commit [] []).run = some r ∧ r.phase = .commit)
    ∧ (∃ r, (running 0x00000001 3 (.abort .streamExhausted) [true] []).run = some r
        ∧ r.phase = .abort .streamExhausted ∧ (running 0x00000001 3 (.abort .streamExhausted) [true] []).streamFits)
    ∧ (∃ r, (running 0x00000006 3 (.abort .unboundedLoop) [true] []).run = some r
        ∧ r.phase = .abort .unboundedLoop ∧ r.cmd.toNat % 16 = 6)
    ∧ ∃ r, (running 0x00000000 3 (.abort .invalidCommand) [true] []).run = some r
        ∧ r.phase = .abort .invalidCommand :=
  ⟨⟨_, rfl, rfl⟩, ⟨_, rfl, rfl, by decide⟩, ⟨_, rfl, rfl, by decide⟩, ⟨_, rfl, rfl⟩⟩
theorem witness_NoIntermediateStateIsVisible :
    (running 0x00000001 0 (.bit (.egZeros .ue 0)) [true] []).run ≠ none
    ∧ (coreStep (running 0x00000001 0 (.bit (.egZeros .ue 0)) [true] [])).run ≠ none := by decide
theorem witness_ResultsChangeOnlyAtCommit :
    (coreStep { running 0x00000001 0 .commit [] [] with results := { Results.zero with value := 1 } }).results
      ≠ { Results.zero with value := 1 } := by decide
theorem witness_IdleCoreStaysIdle : (idle 0 0 [] []).run = none ∧ (idle 0 0 [] []).inbox = [] := ⟨rfl, rfl⟩
/-- A running read, its first bit read. -/
theorem witness_EveryStepKeepsTheInvariant :
    Inv (running 0x00000001 0 (.bit (.egZeros .ue 0)) [false, true, true] [])
    ∧ ∃ t, step (running 0x00000001 0 (.bit (.egZeros .ue 0)) [false, true, true] []) = .next t ∧ t.run ≠ none := by
  refine ⟨⟨by decide, .inl rfl, fun _ => rfl, ?_⟩, _, rfl, by decide⟩
  rintro r ⟨⟩
  exact ⟨rfl, rfl, rfl, rfl, rfl, by decide, by decide, fun _ => ⟨by decide, fun p h => by cases h⟩, by decide⟩
theorem witness_StepRunsTheDecodedCommand : decode 0x023B1426 = .ok (.cabacBlock 2 5 3 7 2) := by decide
theorem witness_RunEqualsWriteThenCoreSteps : (idle 0 0 (str 0b00111 5) []).run = none := rfl
/-- A command that ends, and one that waits. -/
theorem witness_EveryCommandEnds :
    (idle 0 0 [true] []).run = none ∧ (after (exec .readUe (idle 0 0 [true] []))).run = none
    ∧ waiting (after (exec (.cabacBlock 0 15 3 0 1) (idle 0 0 [] [.bin true]))) = true := by decide
/-- An idle Core, a running one, and one that waits, with and without another agent's step listed. -/
theorem witness_WaitPollsUntilIdle :
    (idle 0 0 [] []).run = none
    ∧ ((running 0x00000001 0 (.bit (.egZeros .ue 0)) [true] []).run ≠ none
      ∧ waiting (running 0x00000001 0 (.bit (.egZeros .ue 0)) [true] []) = false)
    ∧ waiting (running 0x01000C06 9 (.bin .codedBlockFlag) [] []) = true
    ∧ (∀ h ∈ [hostRead 0x010], isHostStep h = true) ∧ isHostStep (.engine [.bin true]) = false := by decide
theorem witness_RunProgramEndsWithItsCommand :
    ∃ t, exec (.cavlcBlock 0 15 3 0) { idle 9 0 [true] [] with arg := (some 0).getD 9 } = .next t ∧ t.run = none
      ∧ (idle 9 0 [true] []).run = none := ⟨_, rfl, by decide, rfl⟩
/-- One committed command of each clause. -/
theorem witness_CommandsAreBounded :
    (idle 0 0 (str 0xFFFFFFFF 63) []).run = none ∧ (idle 0 0 (str 0xFFFFFFFF 63) []).streamFits
    ∧ (∃ t, exec .readUe (idle 0 0 (str 0xFFFFFFFF 63) []) = .next t ∧ t.status.valid = true)
    ∧ (∃ t, exec (.cavlcBlock 0 15 3 0) (idle 0 0 [true] []) = .next t ∧ t.status.valid = true)
    ∧ ∃ t, exec (.cabacBlock 0 15 3 0 1) (idle 0 0 [] [.bin false]) = .next t ∧ t.status.valid = true :=
  ⟨rfl, by decide, ⟨_, rfl, by decide⟩, ⟨_, rfl, by decide⟩, ⟨_, rfl, by decide⟩⟩
/-- Two machines that agree on the inputs and on nothing else. -/
theorem witness_ResultsDependOnlyOnTheInputs :
    ∃ s s' t t' : State, s.run = none ∧ s'.run = none ∧ s.arg = s'.arg ∧ s.pos = s'.pos ∧ s.bits = s'.bits
      ∧ s.engine.answers = s'.engine.answers ∧ s.cbfRule = s'.cbfRule ∧ s ≠ s'
      ∧ exec .readUe s = .next t ∧ exec .readUe s' = .next t' ∧ t.status.valid = true :=
  ⟨idle 0 0 [true] [], { idle 0 0 [true] [] with cmd := 9, results := { Results.zero with value := 1 }, reads := [3] },
    _, _, rfl, rfl, rfl, rfl, rfl, rfl, rfl, by decide, rfl, rfl, by decide⟩
theorem witness_RestoringPosReadsTheSameBits :
    (idle 0 3 (str 0b11100100 8) []).run = none
    ∧ ∃ t, exec .readUe (idle 0 3 (str 0b11100100 8) []) = .next t ∧ t.status.valid = true ∧ t.pos ≠ 3 :=
  ⟨rfl, _, rfl, by decide, by decide⟩

/-- The shortest and the longest code: no suffix bit, and 31 of them. -/
theorem witness_ReadUeReturnsTheCodeNumber :
    ((idle 0 0 [true] []).run = none ∧ (idle 0 0 [true] []).streamFits ∧ ([] : List Bool).length ≤ 31
      ∧ (idle 0 0 [true] []).streamHas (egCode []))
    ∧ (idle 0 0 (str 0xFFFFFFFF 63) []).run = none ∧ (idle 0 0 (str 0xFFFFFFFF 63) []).streamFits
    ∧ (List.replicate 31 true).length ≤ 31
    ∧ (idle 0 0 (str 0xFFFFFFFF 63) []).streamHas (egCode (List.replicate 31 true)) := by decide
theorem witness_ReadSeReturnsTheSignedNumber :
    (idle 0 3 (str 0b11100100 8) []).run = none ∧ (idle 0 3 (str 0b11100100 8) []).streamFits
    ∧ (idle 0 3 (str 0b11100100 8) []).streamHas (egCode [false, false]) := by decide
/-- Range 1, and a larger range at both its ends. -/
theorem witness_ReadTeFollowsItsRange :
    ((idle 1 0 [false] []).run = none ∧ (idle 1 0 [false] []).streamFits ∧ (idle 1 0 [false] []).arg = 1
      ∧ (idle 1 0 [false] []).streamHas [false])
    ∧ (idle 2 0 (str 0b00111 5) []).run = none ∧ (idle 2 0 (str 0b00111 5) []).streamFits
    ∧ 1 < (idle 2 0 (str 0b00111 5) []).arg.toNat ∧ 1 < (idle 0xFFFFFFFF 0 (str 0b00111 5) []).arg.toNat
    ∧ (idle 2 0 (str 0b00111 5) []).streamHas (egCode [true, true]) := by decide
theorem witness_ReadCeReturnsTheUeValue :
    (idle 0 0 (str 0b00101 5) []).run = none ∧ (idle 0 0 (str 0b00101 5) []).streamFits
    ∧ (idle 0 0 (str 0b00101 5) []).streamHas (egCode [false, true]) := by decide
/-- V-EG-LZ32, for each read; READ_TE with the least range above 1. -/
theorem witness_ThirtyTwoZerosAbort :
    (idle 2 0 (str 1 33) []).run = none ∧ (idle 2 0 (str 1 33) []).streamFits ∧ 1 < (idle 2 0 (str 1 33) []).arg.toNat
    ∧ (idle 2 0 (str 1 33) []).streamHas (List.replicate 32 false) := by decide
/-- V-EG-EMPTY, V-EG-EOS31, V-EG-SUFEOS, the 1 bit at the end, and READ_TE with range 1 at POS = BSLEN. -/
theorem witness_EndOfStreamAborts :
    (idle 0 0 [] []).bits.drop (idle 0 0 [] []).pos.toNat = List.replicate 0 false
    ∧ (idle 0 0 (str 0 31) []).bits.drop (idle 0 0 (str 0 31) []).pos.toNat = List.replicate 31 false
    ∧ (idle 0 0 (str 0b000101 6) []).bits.drop (idle 0 0 (str 0b000101 6) []).pos.toNat
        = List.replicate 3 false ++ true :: [false, true]
    ∧ (idle 0 0 (str 1 32) []).bits.drop (idle 0 0 (str 1 32) []).pos.toNat = List.replicate 31 false ++ true :: []
    ∧ (idle 1 2 [true, true] []).arg = 1 ∧ (idle 1 2 [true, true] []).bits.length ≤ (idle 1 2 [true, true] []).pos.toNat
    ∧ (idle 0 0 [] []).run = none ∧ (idle 0 0 (str 1 32) []).streamFits := by decide
/-- A commit and an abort. -/
theorem witness_ReadFrame :
    (∃ t, exec .readSe (idle 0 0 (str 0b00101 5) []) = .next t ∧ t.status.valid = true)
    ∧ (∃ t, exec .readTe (idle 0 0 [true] []) = .next t ∧ t.status.valid = false)
    ∧ (idle 0 0 (str 0b00101 5) []).run = none ∧ (idle 0 0 (str 0b00101 5) []).streamFits :=
  ⟨⟨_, rfl, by decide⟩, ⟨_, rfl, by decide⟩, rfl, by decide⟩

/-- The fields of V-CAVLC-1, as its field split writes them. -/
def exampleFields : CavlcFields where
  token := [false, false, false, false, true, false, false]
  tc := 5
  t1 := 3
  signs := [false, true, true]
  levels := [(0, []), (2, [false])]
  tzCode := [true, true, true]
  tz := 3
  runs := [([true, false], 1), ([true], 0), ([true], 0), ([false, true], 1)]

theorem witness_CavlcDecodesEveryBlock :
    (idle 0 0 (str 0b000010001110010111101101 24) []).run = none
    ∧ (idle 0 0 (str 0b000010001110010111101101 24) []).streamFits ∧ legal (.cavlcBlock 0 15 3 0) 0 = true
    ∧ Tables.maxCoefficients 3 = some 16 ∧ exampleFields.ok 0 16 16 = true
    ∧ (idle 0 0 (str 0b000010001110010111101101 24) []).streamHas exampleFields.bits := by decide
theorem witness_CavlcCommitsOnlyBlocks :
    ∃ t, exec (.cavlcBlock 0 15 3 0) (idle 0 0 (str 0b000010001110010111101101 24) []) = .next t
      ∧ t.status.valid = true := ⟨_, rfl, by decide⟩
/-- V-CAVLC-A and V-CAVLC-TC0-c420: the first and a chroma column. -/
theorem witness_CavlcZeroTokenGivesAZeroBlock :
    (legal (.cavlcBlock 0 15 3 0) 0 = true ∧ Tables.tableSelect (0 : Word).toInt = some .nc0
      ∧ ([true], (0, 0)) ∈ Tables.coeffToken .nc0 ∧ (idle 0 0 [true] []).streamHas [true])
    ∧ legal (.cavlcBlock 0 3 0 0) 0xFFFFFFFF = true ∧ Tables.tableSelect (0xFFFFFFFF : Word).toInt = some .chroma420
    ∧ ([false, true], (0, 0)) ∈ Tables.coeffToken .chroma420
    ∧ (idle 0xFFFFFFFF 0 [false, true] []).streamHas [false, true] := by decide
/-- The 32 zeros of V-CAVLC-P32, after the token (1, 0) of nC = 0; and after a first level. -/
theorem witness_ThirtyTwoZerosAbort_cavlc :
    (CavlcFields.headOk ⟨str 0b000101 6, 1, 0, [], [], [], 0, []⟩ 0 16 = true
      ∧ (idle 0 0 (str 0b000101 6 ++ str 0 32) []).streamHas (str 0b000101 6 ++ List.replicate 32 false))
    ∧ CavlcFields.headOk ⟨str 0b00000111 8, 2, 0, [], [(0, [])], [], 0, []⟩ 0 16 = true := by decide
/-- V-CAVLC-1 without its last bit, and with no bit at all. -/
theorem witness_EndOfStreamAborts_cavlc :
    (str 0b00001000111001011110110 23 <+: exampleFields.bits ∧ str 0b00001000111001011110110 23 ≠ exampleFields.bits)
    ∧ [] <+: exampleFields.bits ∧ [] ≠ exampleFields.bits := by decide
/-- A level_suffix whose last bits the stream lacks. -/
theorem witness_ReadBitPastTheEndAborts :
    Inv (running 0x00033C05 0 (.bit (.levelSuffix 0 0 14 3 1)) [] [])
    ∧ (running 0x00033C05 0 (.bit (.levelSuffix 0 0 14 3 1)) [] []).bits.length ≤ 0 := by
  refine ⟨⟨by decide, .inl rfl, fun _ => rfl, ?_⟩, by decide⟩
  rintro r ⟨⟩
  exact ⟨rfl, rfl, rfl, rfl, rfl, by decide, by decide, fun _ => ⟨by decide, fun p h => by cases h⟩, by decide⟩
/-- V-CAVLC-D: 15 zeros, with nC = 0. -/
theorem witness_AbsentTokenIsMalformed :
    legal (.cavlcBlock 0 15 3 0) 0 = true ∧ Tables.tableSelect (0 : Word).toInt = some .nc0
    ∧ (idle 0 0 (str 1 16) []).streamHas (List.replicate 15 false)
    ∧ absentFrom (List.replicate 15 false) (Tables.coeffToken .nc0) := by decide
/-- V-CAVLC-TCBIG: TC 3 in a span of 2. -/
theorem witness_UnfittingFieldsAreMalformed_token :
    legal (.cavlcBlock 0 1 3 0) 0 = true ∧ Tables.tableSelect (0 : Word).toInt = some .nc0
    ∧ (str 0b00011 5, (3, 3)) ∈ Tables.coeffToken .nc0 ∧ (idle 0 0 (str 0b00011 5) []).streamHas (str 0b00011 5)
    ∧ (1 : BitVec 6).toNat + 1 - (0 : BitVec 6).toNat < 3 := by decide
/-- V-CAVLC-TZBIG and V-CAVLC-TZBAD: total_zeros that does not fit, and one absent from its column. -/
theorem witness_UnfittingFieldsAreMalformed_zeros :
    (legal (.cavlcBlock 0 3 3 0) 0 = true
      ∧ CavlcFields.headOk ⟨[false, true], 1, 1, [false], [], str 0b00011 5, 5, []⟩ 0 4 = true
      ∧ (str 0b00011 5, 5) ∈ Tables.totalZeros 16 1 ∧ 4 - 1 < 5
      ∧ (idle 0 0 (str 0b01000011 8) []).streamHas ([false, true] ++ [false] ++ str 0b00011 5))
    ∧ absentFrom (List.replicate 9 false) (Tables.totalZeros 16 1)
    ∧ (idle 0 0 (str 0b010000000000 12) []).streamHas ([false, true] ++ [false] ++ List.replicate 9 false) := by decide
/-- V-CAVLC-RBBIG: run_before 9 with 8 zeros left (its field split misprints two codes; the bits are those of
R83 and R86); and the unused pattern of column ">6". -/
theorem witness_UnfittingFieldsAreMalformed_runs :
    (CavlcFields.headOk ⟨str 1 3, 2, 2, [false, false], [], str 2 4, 8, []⟩ 0 16 = true
      ∧ CavlcFields.zerosOk ⟨str 1 3, 2, 2, [false, false], [], str 2 4, 8, []⟩ 16 16 = true
      ∧ runsOk 8 [] = true ∧ (str 1 6, 9) ∈ Tables.runBefore 8 ∧ 8 < 9
      ∧ (idle 0 0 (str 0b001000010000001 15) []).streamHas
          (CavlcFields.bits ⟨str 1 3, 2, 2, [false, false], [], str 2 4, 8, []⟩ ++ str 1 6))
    ∧ absentFrom (List.replicate 11 false) (Tables.runBefore 8) := by decide
theorem witness_CavlcGuarantees :
    ∃ t, exec (.cavlcBlock 0 3 0 0) (idle 0xFFFFFFFF 0 (str 0b00101011 8) []) = .next t ∧ t.status.valid = true
      ∧ 0 < t.results.totalcoeff.toNat := ⟨_, rfl, by decide, by decide⟩
/-- A commit, and the abort of V-CAVLC-TZBIG. -/
theorem witness_CavlcFrame :
    (∃ t, exec (.cavlcBlock 0 3 0 0) (idle 0xFFFFFFFF 0 (str 0b00101011 8) []) = .next t ∧ t.status.valid = true)
    ∧ ∃ t, exec (.cavlcBlock 0 3 3 0) (idle 0 0 (str 0b01000011 8) []) = .next t ∧ t.status.valid = false :=
  ⟨⟨_, rfl, by decide⟩, ⟨_, rfl, by decide⟩⟩
/-- The largest levelCode, and the largest that takes the "+2"; the first and the last prefix without an escape. -/
theorem witness_LevelsStayInRange :
    (31 ≤ 31 ∧ 6 ≤ 6 ∧ 2 ^ 28 - 1 < 2 ^ levelSuffixSize 31 6) ∧ (1 ≤ 1 ∧ 2 ^ 28 - 1 < 2 ^ levelSuffixSize 31 1)
    ∧ 0 ≤ 13 ∧ 13 ≤ 13 ∧ 0 < 1 := by decide
/-- Both ends of the range of suffixLength, and the magnitudes at the threshold of suffixLength 1 to 5: V-CAVLC-SLGROW's 4 and 7
grow it, V-CAVLC-SL1's 2 does not. -/
theorem witness_SuffixLengthStaysInRange :
    (0 ≤ 6 ∧ 6 ≤ 6 ∧ 1 ≤ 1 ∧ 1 ≤ 5 ∧ 5 ≤ 5)
    ∧ nextSuffixLength 0 4 = 2 ∧ nextSuffixLength 2 7 = 3 ∧ nextSuffixLength 1 2 = 1 := by decide
theorem witness_UnusedTokenPatterns :
    16 ≤ (str 1 16).length ∧ (∃ e ∈ Tables.coeffToken .chroma420, e.1 <+: str 1 16)
    ∧ List.replicate 15 false <+: str 1 16 := by decide

/-- The coefficients of V-CABAC-2, its span inside a larger one, and V-CABAC-C3, whose CBF request is skipped. -/
theorem witness_CabacDecodesEveryBlock :
    (legal (.cabacBlock 0 3 0 0 1) 0 = true
      ∧ cabacOk (blockOf (encode (.cabacBlock 0 3 0 0 1))) [some (1, false), none, some (0, true)] = true
      ∧ bins (str 0b11001101100 11)
          = (List.replicate (cbfRequests .doc (blockOf (encode (.cabacBlock 0 3 0 0 1)))).length true
              ++ cabacBins (blockOf (encode (.cabacBlock 0 3 0 0 1))) [some (1, false), none, some (0, true)]).map .bin ++ [])
    ∧ legal (.cabacBlock 0 63 4 0 3) 0 = true
    ∧ cabacOk (blockOf (encode (.cabacBlock 0 63 4 0 3))) [some (0, false)] = true
    ∧ bins (str 0b1100 4)
        = (List.replicate (cbfRequests .doc (blockOf (encode (.cabacBlock 0 63 4 0 3)))).length true
            ++ cabacBins (blockOf (encode (.cabacBlock 0 63 4 0 3))) [some (0, false)]).map .bin ++ [] := by decide
/-- V-CABAC-1. -/
theorem witness_CabacZeroFlagGivesAZeroBlock :
    legal (.cabacBlock 0 15 3 0 1) 0 = true
    ∧ cbfSkipped .doc (blockOf (encode (.cabacBlock 0 15 3 0 1))) = false
    ∧ (idle 0 0 [] [.bin false]).engine.answers = .bin false :: [] := by decide
theorem witness_BlockAddressFromTheWord :
    [4, 8, 15, 16, 64][(0 : BitVec 3).toNat]? = some 4 ∧ [4, 8, 15, 16, 64][(4 : BitVec 3).toNat]? = some 64 := by decide
/-- Scenario C: V-CABAC-C1 requests the flag, V-CABAC-C3 does not. -/
theorem witness_CbfRequestFollowsTheRule :
    (legal (.cabacBlock 0 63 4 0 1) 0 = true ∧ goesOn (exec (.cabacBlock 0 63 4 0 1) (idle 0 0 [] [.bin false])) = true)
    ∧ legal (.cabacBlock 0 63 4 0 3) 0 = true
    ∧ goesOn (exec (.cabacBlock 0 63 4 0 3) (idle 0 0 [] (bins (str 0b1100 4)))) = true := by decide
theorem witness_EngineExhaustionAbortsTheBlock :
    ∃ r, (running 0x01000C06 9 (.bin (.last 0 4)) [] [.exhausted]).run = some r ∧ r.phase = .bin (.last 0 4)
      ∧ r.isCabac = true ∧ r.posStart = (running 0x01000C06 9 (.bin (.last 0 4)) [] [.exhausted]).pos :=
  ⟨_, rfl, rfl, by decide, rfl⟩
theorem witness_UnansweredRequestsHang :
    ∃ r, (running 0x01000C06 9 (.bin .codedBlockFlag) [] []).run = some r ∧ r.phase = .bin .codedBlockFlag
      ∧ (running 0x01000C06 9 (.bin .codedBlockFlag) [] []).engine.answers = []
      ∧ (running 0x01000C06 9 (.bin .codedBlockFlag) [] []).inbox = [] := ⟨_, rfl, rfl, rfl, rfl⟩
theorem witness_CabacGuarantees :
    ∃ t, exec (.cabacBlock 0 3 0 0 1) (idle 0 0 [] (bins (str 0b11001101100 11))) = .next t ∧ t.status.valid = true
      ∧ t.results.cbf = 1 := ⟨_, rfl, by decide, by decide⟩
theorem witness_ThirtySuffixOnesAbortTheBlock :
    ∃ r, (running 0x01000006 9 (.bin (.sufUnary 0 0 0 0 0)) [] (List.replicate 30 (.bin true) ++ [])).run = some r
      ∧ r.phase = .bin (.sufUnary 0 0 0 0 0) ∧ r.isCabac = true := ⟨_, rfl, rfl, by decide⟩
/-- A commit, an abort, and a wait. -/
theorem witness_CabacFrame :
    (∃ t, exec (.cabacBlock 0 15 3 0 1) (idle 0 0 [] [.bin false]) = .next t ∧ t.status.valid = true)
    ∧ (∃ t, exec (.cabacBlock 0 15 3 0 1) (idle 0 0 [] [.exhausted]) = .next t ∧ t.status.valid = false)
    ∧ ∃ t, exec (.cabacBlock 0 15 3 0 1) (idle 0 0 [] []) = .next t ∧ t.run ≠ none :=
  ⟨⟨_, rfl, by decide⟩, ⟨_, rfl, by decide⟩, ⟨_, rfl, by decide⟩⟩
/-- Between commands, and under a running command below its POS_start. -/
theorem witness_BitstreamChangesAreSeen :
    ([true] : List Bool).length ≤ Config.maxBsLen ∧ (idle 0 0 [] []).run = none
    ∧ (running 0x00000001 1 (.bit (.egZeros .ue 0)) [true, true] []).run ≠ none
    ∧ [false, true].length = (running 0x00000001 1 (.bit (.egZeros .ue 0)) [true, true] []).bits.length
    ∧ ∀ p : Nat, 1 ≤ p → [false, true][p]? = [true, true][p]? :=
  ⟨by decide, rfl, by decide, rfl, fun p h => by
    obtain ⟨q, rfl⟩ := Nat.exists_eq_add_of_le h
    rw [Nat.add_comm]; rfl⟩

end Sys2Proof.Tests
end

/-! The statements of 00_scope.md: a Core step shows nothing before the command ends, and each way a command aborts while it reads
(StreamExhausted, MalformedSyntax, UnboundedLoop). One Core step is taken from `coreStep_running` and `abortRun_spec`; a
whole command from `Reads` and `runCommand_raises` or `runCommand_exhausts`. -/

namespace Sys2Proof.Machine

/-! ### What a Core step that does not end the command changes (R12) -/

@[simp] theorem abortRun_run (e : ErrorKind) (s : State) (r : Run) : (abortRun e s r).run = none := by
  unfold abortRun
  split <;> rfl

/-- A Core step after which a command still runs has changed the Core's internal state, the Engine and the model's draw counter
only. -/
theorem coreStep_running {s : State} (h : (coreStep s).run ≠ none) :
    ∃ r eng n, coreStep s = { s with run := r, engine := eng, draws := n } := by
  rcases coreStep_cases s with ⟨_, e⟩ | ⟨r, _, ⟨_, _, e⟩ | ⟨_, _, _, e⟩ | ⟨_, _, _, _, e⟩ | ⟨_, _, _, e⟩ | ⟨_, _, _, _, e⟩
      | ⟨_, _, _, _, _, e⟩ | ⟨_, e⟩ | ⟨_, _, e⟩⟩
  iterate 7 exact ⟨_, _, _, e⟩
  · exact absurd (by rw [e, commitRun_run]) h
  · exact absurd (by rw [e, abortRun_run]) h

/-- Settles O16: such a step keeps every register and BUSY, which is all that a read returns. -/
theorem noIntermediateStateIsVisible : Obligations.NoIntermediateStateIsVisible := by
  intro s hs ht off
  obtain ⟨r, eng, n, e⟩ := coreStep_running ht
  have hbusy : (coreStep s).busy = s.busy := by
    rw [State.busy, State.busy, Option.isSome_iff_ne_none.2 hs, Option.isSome_iff_ne_none.2 ht]
  unfold readSlot
  rw [hbusy, e]

/-! ### Aborts (R132) -/

@[simp] theorem Run.raise_isCabac (e : ErrorKind) (r : Run) : (r.raise e).isCabac = r.isCabac := rfl

/-- An abort that keeps POS_start. -/
theorem abortRun_keepsPos {e : ErrorKind} {s : State} {r : Run} (h : keepsPos e r = true) (hstart : r.posStart = s.pos) :
    abortRun e s r = { s with status := statusAbort e s.status, run := none } := by
  rw [abortRun, if_pos h, hstart]

/-- Every abort: STATUS takes the error, the command ends, and POS lies in its range. -/
theorem abortRun_spec (e : ErrorKind) {s : State} {r : Run} (hs : s.streamFits) (hstart : r.posStart = s.pos) :
    ∃ (q : Word) (n : Nat), abortRun e s r = { s with pos := q, status := statusAbort e s.status, run := none, draws := n }
      ∧ s.pos.toNat ≤ q.toNat ∧ q.toNat ≤ max s.pos.toNat s.bits.length := by
  cases hk : keepsPos e r with
  | true => exact ⟨s.pos, s.draws, abortRun_keepsPos hk hstart, le_rfl, le_max_left _ _⟩
  | false =>
    obtain ⟨hlo, hhi⟩ := drawPos_range s.draws s.pos.toNat s.bits.length
    have hfit : s.bits.length ≤ 2 ^ 32 - 1 := hs
    have hq : (BitVec.ofNat 32 (drawPos s.draws s.pos.toNat s.bits.length)).toNat
        = drawPos s.draws s.pos.toNat s.bits.length :=
      Nat.mod_eq_of_lt (by have := s.pos.isLt; omega)
    refine ⟨_, _, by rw [abortRun, if_neg (by simp [hk]), hstart], ?_, ?_⟩ <;> rwa [hq]

/-- Settles O55: the step that receives the answer raises the error, and the next one aborts with POS kept. -/
theorem engineExhaustionAbortsTheBlock : Obligations.EngineExhaustionAbortsTheBlock := by
  intro s r p rest hr hp hcabac hstart hanswers
  have hkeeps : keepsPos .streamExhausted (Run.raise .streamExhausted { r with reqs := r.reqs + 1 }) = true := by
    rw [keepsPos, Run.raise_isCabac]
    exact hcabac
  rw [coreStep_exhausted hr hp hanswers, coreStep_abort rfl rfl]
  exact abortRun_keepsPos hkeeps hstart

/-! ### A bit read past the end (R9) -/

/-- Past the end a read finds no bit and takes no draw, where BSLEN is unchanged. -/
theorem bitAt_pastEnd {s : State} {r : Run} (hinv : RunInv s r) (hlen : r.lenChanged = false)
    (hpos : s.bits.length ≤ r.pos) : bitAt s r = (none, 0) := by
  obtain ⟨-, -, -, -, -, -, -, hstable, -⟩ := hinv
  have hchanged : r.changed.contains r.pos = false := by
    cases hc : r.changed.contains r.pos with
    | false => rfl
    | true => exact absurd ((hstable hlen).2 _ hc) (Nat.not_lt.2 hpos)
  unfold bitAt
  rw [hlen, hchanged, List.getElem?_eq_none hpos]
  split <;> rfl

theorem coreStep_bit_none {s : State} {r : Run} {p : BitPhase} (h : s.run = some r) (hp : r.phase = .bit p)
    (hb : bitAt s r = (none, 0)) : coreStep s = { s with run := some (r.raise .streamExhausted) } := by
  simp [coreStep, h, runStep, hp, bitStep, hb]

/-- Settles O37: the read finds no bit and raises StreamExhausted, and the next step aborts. -/
theorem readBitPastTheEndAborts : Obligations.ReadBitPastTheEndAborts := by
  intro s r p hinv hr hp hlen hpos
  obtain ⟨hfits, -, -, hrun⟩ := hinv
  have hrinv : RunInv s r := hrun r hr
  have hstart : r.posStart = s.pos := by
    obtain ⟨-, -, -, -, hstart, -⟩ := hrinv
    exact hstart
  rw [coreStep_bit_none hr hp (bitAt_pastEnd hrinv hlen hpos), coreStep_abort rfl rfl]
  obtain ⟨q, n, e, hrange⟩ := abortRun_spec .streamExhausted (s := { s with run := some (r.raise .streamExhausted) })
    (r := r.raise .streamExhausted) hfits hstart
  exact ⟨q, n, e, hrange⟩

/-! ### In no table does one code begin another (R87) -/

theorem prefixFree_coeffToken (c : Tables.CtColumn) : PrefixFree (Tables.coeffToken c) := by
  unfold PrefixFree
  cases c <;> decide

theorem prefixFree_totalZeros (m tc : Nat) : PrefixFree (Tables.totalZeros m tc) := by
  unfold PrefixFree Tables.totalZeros Tables.tz420 Tables.tz422 Tables.tz4
  repeat' split
  all_goals decide

theorem prefixFree_runBefore (zl : Nat) : PrefixFree (Tables.runBefore zl) := by
  unfold PrefixFree Tables.runBefore
  split <;> decide

theorem tablesFree : TablesFree := ⟨prefixFree_coeffToken, prefixFree_totalZeros, prefixFree_runBefore⟩

theorem coeffToken_code_length (c : Tables.CtColumn) : ∀ e ∈ Tables.coeffToken c, e.1.length ≤ 16 := by
  cases c <;> decide

theorem totalZeros_code_length (m tc : Nat) : ∀ e ∈ Tables.totalZeros m tc, e.1.length ≤ 9 := by
  unfold Tables.totalZeros Tables.tz420 Tables.tz422 Tables.tz4
  repeat' split
  all_goals decide

theorem runBefore_code_length (zl : Nat) : ∀ e ∈ Tables.runBefore zl, e.1.length ≤ 11 := by
  unfold Tables.runBefore
  split <;> decide

/-! ### The operands of a CAVLC_BLOCK that has begun (R66) -/

section
variable (start stop : BitVec 6) (maxc : BitVec 3) (btype : BitVec 5) (s : State)

/-- CAVLC_BLOCK after its legality check: its first phase reads coeff_token. -/
def cavlcRun : Run := begunRun (encode (.cavlcBlock start stop maxc btype)) (.cavlcBlock start stop maxc btype) s

theorem cavlcRun_phase : (cavlcRun start stop maxc btype s).phase = .bit (.coeffToken []) := rfl
theorem cavlcRun_staged : (cavlcRun start stop maxc btype s).staged = Results.zero := rfl
theorem cavlcRun_nC : (cavlcRun start stop maxc btype s).nC = s.arg.toInt := rfl

theorem cavlcRun_maxc : (cavlcRun start stop maxc btype s).block.maxc = (Tables.maxCoefficients maxc).getD 0 :=
  congrArg (fun c => (Tables.maxCoefficients c).getD 0) (fieldMaxc_packWord 5 start stop maxc btype 0)

theorem cavlcRun_count : (cavlcRun start stop maxc btype s).count = stop.toNat + 1 - start.toNat := by
  show (fieldEnd (packWord 5 start stop maxc btype 0)).toNat + 1 - (fieldStart (packWord 5 start stop maxc btype 0)).toNat = _
  rw [fieldEnd_packWord, fieldStart_packWord]

end

/-! ### An absent coeff_token (R97) -/

/-- An absent pattern stays absent when it is cut to more bits than any code has. -/
theorem absentFrom_take {α : Type} {t : Tables.Vlc α} {p : List Bool} {n : Nat} (h : absentFrom p t)
    (hn : ∀ e ∈ t, e.1.length < n) : absentFrom (p.take n) t := by
  intro e he
  obtain ⟨hnot, hcode⟩ := h e he
  refine ⟨fun hp => ?_, fun hp => hcode (hp.trans (List.take_prefix n p))⟩
  have hlen : (p.take n).length ≤ e.1.length := hp.length_le
  have hshort := hn e he
  rw [List.length_take] at hlen
  rw [List.take_of_length_le (by omega)] at hp
  exact hnot hp

theorem coeffToken_ne_nil (c : Tables.CtColumn) : Tables.coeffToken c ≠ [] := by
  cases c <;> exact List.cons_ne_nil _ _

/-- Settles O42: the first 17 bits of the pattern are absent too, and `ReadVLC` refuses them. -/
theorem absentTokenIsMalformed : Obligations.AbsentTokenIsMalformed := by
  intro s start stop maxc btype c p hidle hfits hlegal hcolumn hstream habsent
  have htable : (cavlcRun start stop maxc btype s).tokenTable = Tables.coeffToken c := by
    rw [Run.tokenTable, cavlcRun_nC, hcolumn]
  have hcut : absentFrom (p.take 17) (Tables.coeffToken c) :=
    absentFrom_take habsent fun e he => Nat.lt_succ_of_le (coeffToken_code_length c e he)
  have hne : p.take 17 ≠ [] := by
    obtain ⟨e, he⟩ := List.exists_mem_of_ne_nil _ (coeffToken_ne_nil c)
    intro hnil
    exact (hcut e he).1 (by rw [hnil]; exact List.nil_prefix)
  obtain ⟨l, r, hl, hreads, habort⟩ := reads_vlc_absent (vlcPhase_coeffToken (cavlcRun start stop maxc btype s))
    (p.take 17) [] (cavlcRun start stop maxc btype s).pos hne (by rw [htable]; exact hcut)
  have hlen : l.length ≤ 17 := hl.length_le.trans (List.length_take_le 17 p)
  refine ⟨_, exec_eq_runCommand _ s, runCommand_raises hidle hfits hlegal hreads ?_ habort ?_⟩
  · exact hl.trans ((List.take_prefix 17 p).trans hstream)
  · exact (Nat.add_le_add_right hlen 2).trans (by decide)

/-! ### Exp-Golomb reads cut short or unbounded (R90, R94) -/

/-- The command reads an Exp-Golomb code with this ARG: READ_TE does where its range is above 1 (R90 to R93). -/
abbrev ReadsEgCode (i : Instr) (arg : Word) : Prop :=
  i = .readUe ∨ i = .readSe ∨ i = .readCe ∨ (i = .readTe ∧ 1 < arg.toNat)

/-- Such a command is legal and begins with the leading zeros. -/
theorem readsEgCode_begins {s : State} {i : Instr} (h : ReadsEgCode i s.arg) :
    legal i s.arg = true ∧ ∃ kind, (begunRun (encode i) i s).phase = .bit (.egZeros kind 0) := by
  rcases h with rfl | rfl | rfl | ⟨rfl, hrange⟩
  · exact ⟨rfl, .ue, rfl⟩
  · exact ⟨rfl, .se, rfl⟩
  · exact ⟨rfl, .ce, rfl⟩
  · refine ⟨decide_eq_true (by omega), .te, ?_⟩
    have hne : (freshRun (encode .readTe) (some .readTe) s).range ≠ 1 := Nat.ne_of_gt hrange
    show (beginReadTe _).phase = _
    rw [beginReadTe, if_neg hne, Run.goto_phase]

/-- After the zeros and the 1 bit, a suffix that is too short leaves the read in its suffix. -/
theorem reads_egCode_part (kind : EgKind) {n : Nat} {suffix : List Bool} (hn : n ≤ 31) (hs : suffix.length < n) (r : Run)
    (hp : r.phase = .bit (.egZeros kind 0)) :
    ∃ r' p, Reads r (List.replicate n false ++ true :: suffix) r' ∧ r'.phase = .bit p := by
  have hzeros := reads_egZeros kind n 0 r (by omega) hp
  rw [Nat.zero_add] at hzeros
  have hone : afterBit (.egZeros kind n) true (r.after (n + 1) (.bit (.egZeros kind n)))
      = r.after (n + 1) (.bit (.egSuffix kind n n 0)) := by
    simp only [afterBit, afterEgZeros, if_true, if_neg (show n ≠ 0 by omega)]
    rfl
  have hsuffix := reads_egSuffix_part kind n suffix n 0 (r.after (n + 1) (.bit (.egSuffix kind n n 0))) hs rfl
  exact ⟨_, _, hzeros.append (.cons rfl (hone ▸ hsuffix)), rfl⟩

/-- An Exp-Golomb read whose stream ends inside the code. -/
theorem egCode_exhausts {s : State} {i : Instr} (hidle : s.run = none) (hfits : s.streamFits)
    (hread : ReadsEgCode i s.arg)
    (hend : (∃ n, n ≤ 31 ∧ s.bits.drop s.pos.toNat = List.replicate n false)
      ∨ ∃ n suffix, n ≤ 31 ∧ suffix.length < n ∧ s.bits.drop s.pos.toNat = List.replicate n false ++ true :: suffix) :
    AbortedRead (encode i) .streamExhausted s (runCommand (encode i) (some i) s) := by
  obtain ⟨hlegal, kind, hphase⟩ := readsEgCode_begins hread
  rcases hend with ⟨n, hn, hbits⟩ | ⟨n, suffix, hn, hs, hbits⟩
  · have hreads := reads_egZeros kind n 0 _ (by omega) hphase
    refine runCommand_exhausts hidle hfits hlegal hreads hbits rfl ?_
    rw [List.length_replicate, Config.coreBudget]
    omega
  · obtain ⟨r, p, hreads, hp⟩ := reads_egCode_part kind hn hs _ hphase
    refine runCommand_exhausts hidle hfits hlegal hreads hbits hp ?_
    rw [List.length_append, List.length_replicate, List.length_cons, Config.coreBudget]
    omega

/-- READ_TE with range 1 at the end of the stream. -/
theorem teBit_exhausts {s : State} (hidle : s.run = none) (hfits : s.streamFits) (harg : s.arg = 1)
    (hend : s.bits.length ≤ s.pos.toNat) :
    AbortedRead (encode .readTe) .streamExhausted s (runCommand (encode .readTe) (some .readTe) s) := by
  have hlegal : legal .readTe s.arg = true := by rw [harg]; rfl
  have hphase : (begunRun (encode .readTe) .readTe s).phase = .bit .teBit := by
    have hrange : (freshRun (encode .readTe) (some .readTe) s).range = 1 := congrArg BitVec.toNat harg
    show (beginReadTe _).phase = _
    rw [beginReadTe, if_pos hrange, Run.goto_phase]
  exact runCommand_exhausts hidle hfits hlegal (.nil _) (List.drop_eq_nil_of_le hend) hphase (by decide)

/-! ### The lengths of a block's fields -/

theorem nextSuffixLength_le {sl : Nat} (h : sl ≤ 6) (level : Int) : nextSuffixLength sl level ≤ 6 := by
  unfold nextSuffixLength
  dsimp only
  split <;> split <;> omega

theorem initialSuffixLength_le (tc t1 : Nat) : initialSuffixLength tc t1 ≤ 6 := by
  unfold initialSuffixLength
  split <;> omega

theorem levelSuffixSize_le {p sl : Nat} (hp : p ≤ 31) (hsl : sl ≤ 6) : levelSuffixSize p sl ≤ 28 := by
  unfold levelSuffixSize
  split
  · omega
  · split <;> omega

/-- A level code has at most 31 + 1 + 28 bits (R101, R102). -/
theorem levelBits_length_le (lv : List (Nat × List Bool)) : ∀ {sl : Nat} {first : Bool}, sl ≤ 6 →
    levelsOk sl first lv = true → (levelBits lv).length ≤ 60 * lv.length := by
  induction lv with
  | nil => exact fun _ _ => le_rfl
  | cons c lv ih =>
    obtain ⟨p, suf⟩ := c
    intro sl first hsl hok
    simp only [levelsOk, Bool.and_eq_true, decide_eq_true_eq] at hok
    obtain ⟨⟨hp, hsuf⟩, hok⟩ := hok
    have hsize : suf.length ≤ 28 := hsuf ▸ levelSuffixSize_le hp hsl
    have hp' : p ≤ 31 := hp
    have hrest := ih (nextSuffixLength_le hsl _) hok
    simp only [levelBits, List.length_append, List.length_replicate, List.length_cons]
    omega

theorem runBits_length_le (rs : List (List Bool × Nat)) : ∀ {zl : Nat}, runsOk zl rs = true →
    (rs.flatMap Prod.fst).length ≤ 11 * rs.length := by
  induction rs with
  | nil => exact fun _ => le_rfl
  | cons c rs ih =>
    obtain ⟨code, run⟩ := c
    intro zl hok
    simp only [runsOk, Bool.and_eq_true] at hok
    obtain ⟨hcode, hok⟩ := hok
    have hlen : code.length ≤ 11 := by
      split at hcode
      · obtain ⟨rfl, -⟩ := of_decide_eq_true hcode
        exact Nat.zero_le _
      · exact runBefore_code_length zl _ (of_decide_eq_true hcode).1
    have hrest := ih hok
    simp only [List.flatMap_cons, List.length_append, List.length_cons]
    omega

/-- At most 16 bits of token, 3 signs and 16 levels. -/
theorem headBits_length_le {f : CavlcFields} {nC : Int} {count : Nat} (h : f.headOk nC count = true)
    (hlv : f.levels.length ≤ f.tc - f.t1) : f.headBits.length ≤ 979 := by
  obtain ⟨⟨c, -, hm⟩, -, hsigns, hlevels⟩ := headOk_iff.1 h
  obtain ⟨-, -, h3, h16⟩ := token_bounds hm
  have htoken : f.token.length ≤ 16 := coeffToken_code_length c _ hm
  have hbits := levelBits_length_le f.levels (initialSuffixLength_le f.tc f.t1) hlevels
  rw [CavlcFields.headBits, List.length_append, List.length_append]
  omega

/-- What `ok` says. -/
theorem ok_iff {f : CavlcFields} {nC : Int} {m count : Nat} :
    f.ok nC m count = true ↔
      f.headOk nC count = true ∧ f.levels.length = f.tc - f.t1 ∧ f.zerosOk m count = true ∧ f.runs.length = f.tc - 1
        ∧ runsOk f.tz f.runs = true := by
  simp only [CavlcFields.ok, Bool.and_eq_true, decide_eq_true_eq, and_assoc]

theorem bits_length_le {f : CavlcFields} {nC : Int} {m count : Nat} (h : f.ok nC m count = true) :
    f.bits.length ≤ 1153 := by
  obtain ⟨hhead, hlv, hzeros, hruns, hrunsOk⟩ := ok_iff.1 h
  obtain ⟨⟨c, -, hm⟩, -⟩ := headOk_iff.1 hhead
  obtain ⟨-, -, -, h16⟩ := token_bounds hm
  have hheadBits := headBits_length_le hhead hlv.le
  have htz : f.tzCode.length ≤ 9 := by
    rcases (zerosOk_iff.1 hzeros).1 with ⟨-, hnil, -⟩ | ⟨-, hcode⟩
    · rw [hnil]
      exact Nat.zero_le _
    · exact totalZeros_code_length _ _ _ hcode
  have hrunBits := runBits_length_le f.runs hrunsOk
  rw [CavlcFields.bits, List.length_append, List.length_append]
  omega

/-! ### CAVLC blocks cut short or unbounded (R95, R101) -/

/-- The bits of a block with no coefficient are those of its token. -/
theorem bits_of_tc_zero {f : CavlcFields} {nC : Int} {m count : Nat} (h : f.ok nC m count = true) (htc : f.tc = 0) :
    f.bits = f.token := by
  obtain ⟨hhead, hlv, hzeros, hruns, -⟩ := ok_iff.1 h
  obtain ⟨⟨c, -, hm⟩, -, hsigns, -⟩ := headOk_iff.1 hhead
  obtain ⟨-, hle, -⟩ := token_bounds hm
  have hnoSigns : f.signs = [] := List.eq_nil_of_length_eq_zero (by omega)
  have hnoLevels : f.levels = [] := List.eq_nil_of_length_eq_zero (by omega)
  have hnoRuns : f.runs = [] := List.eq_nil_of_length_eq_zero (by omega)
  have hnoZeros : f.tzCode = [] := by
    rcases (zerosOk_iff.1 hzeros).1 with ⟨-, hnil, -⟩ | ⟨hcoded, -⟩
    · exact hnil
    · exact absurd (.inl htc) hcoded
  simp [CavlcFields.bits, CavlcFields.headBits, hnoSigns, hnoLevels, hnoRuns, hnoZeros, levelBits]

/-- All bits of a block are read, with or without coefficients. -/
theorem reads_block {f : CavlcFields} {r : Run} (h : f.ok r.nC r.block.maxc r.count = true)
    (hp : r.phase = .bit (.coeffToken [])) (hS : r.staged = Results.zero) : ∃ r', Reads r f.bits r' := by
  obtain ⟨hhead, hlv, hzeros, hruns, hrunsOk⟩ := ok_iff.1 h
  rcases Nat.eq_zero_or_pos f.tc with htc | htc
  · obtain ⟨⟨c, hc, hm⟩, -⟩ := headOk_iff.1 hhead
    have htable : r.tokenTable = Tables.coeffToken c := by rw [Run.tokenTable, hc]
    obtain ⟨q, hreads⟩ := reads_vlc (tablesFree.token r) (vlcPhase_coeffToken r) f.token [] r.pos
      (by rw [htable]; exact hm) (token_bounds hm).1
    rw [bits_of_tc_zero h htc]
    rw [← hp] at hreads
    exact ⟨_, hreads⟩
  · obtain ⟨q, hreads⟩ := reads_fields tablesFree hhead htc hlv hzeros hruns.le hrunsOk hp hS
    exact ⟨_, hreads⟩

/-- A reading that has read some of its bits, but not all, stands in a phase that reads a bit. -/
theorem Reads.of_properPrefix {r r' : Run} {l l' : List Bool} (h : Reads r l r') (hpre : l' <+: l) (hne : l' ≠ l) :
    ∃ r1 p, Reads r l' r1 ∧ r1.phase = .bit p := by
  obtain ⟨rest, rfl⟩ := hpre
  cases rest with
  | nil => exact absurd (List.append_nil l').symm hne
  | cons b rest => exact h.cut

/-- Settles O36: the command is still reading when the stream ends. -/
theorem endOfStreamAborts : Obligations.EndOfStreamAborts := by
  refine ⟨fun s i hidle hfits hcase => ⟨_, exec_eq_runCommand i s, ?_⟩,
    fun s start stop maxc btype m f hidle hfits hlegal hm hok hpre hne => ⟨_, exec_eq_runCommand _ s, ?_⟩⟩
  · rcases hcase with ⟨hread, hend⟩ | ⟨rfl, harg, hend⟩
    · exact egCode_exhausts hidle hfits hread hend
    · exact teBit_exhausts hidle hfits harg hend
  · have hbegun : f.ok (cavlcRun start stop maxc btype s).nC (cavlcRun start stop maxc btype s).block.maxc
        (cavlcRun start stop maxc btype s).count = true := by
      rw [cavlcRun_nC, cavlcRun_maxc, cavlcRun_count, hm]
      exact hok
    obtain ⟨r', hall⟩ := reads_block hbegun (cavlcRun_phase ..) (cavlcRun_staged ..)
    obtain ⟨r, p, hreads, hp⟩ := hall.of_properPrefix hpre hne
    have hlen : (s.bits.drop s.pos.toNat).length ≤ 1153 := hpre.length_le.trans (bits_length_le hok)
    exact runCommand_exhausts hidle hfits hlegal hreads rfl hp ((Nat.add_le_add_right hlen 3).trans (by decide))

/-- With a level still to come, 32 zeros after the head raise UnboundedLoop (R101). -/
theorem reads_head_unbounded {f : CavlcFields} {r : Run} (h : f.headOk r.nC r.count = true)
    (hlv : f.levels.length < f.tc - f.t1) (hp : r.phase = .bit (.coeffToken [])) (hS : r.staged = Results.zero) :
    ∃ r', Reads r (f.headBits ++ List.replicate 32 false) r' ∧ r'.phase = .abort .unboundedLoop := by
  obtain ⟨⟨c, -, hm⟩, -⟩ := headOk_iff.1 h
  obtain ⟨-, -, h3, h16⟩ := token_bounds hm
  obtain ⟨q, sl, hhead⟩ := reads_head h (by omega) hlv.le hp hS (tablesFree.token r)
  obtain ⟨r1, hr1⟩ : ∃ r1, r1 = r.at (r.pos + f.headBits.length) f.headStaged q := ⟨_, rfl⟩
  have htc : r1.tc = f.tc := by rw [hr1]; exact levelsStaged_tc h16 ..
  have ht1 : r1.t1 = f.t1 := by rw [hr1]; exact levelsStaged_t1 h3 ..
  have hnext : nextLevel (f.t1 + f.levels.length) sl r1
      = r1.at r1.pos r1.staged (.bit (.levelZeros (f.t1 + f.levels.length) sl 0)) := by
    rw [nextLevel, htc, ht1, if_pos (by omega), if_neg (by omega)]
    rfl
  rw [← hr1, hnext] at hhead
  obtain ⟨r', hzeros, habort⟩ := reads_levelPrefix_unbounded (f.t1 + f.levels.length) sl r1.pos r1
  exact ⟨r', hhead.append hzeros, habort⟩

/-- Settles O35: the 32nd zero raises UnboundedLoop. -/
theorem thirtyTwoZerosAbort : Obligations.ThirtyTwoZerosAbort := by
  refine ⟨fun s i hidle hfits hread hstream => ⟨_, exec_eq_runCommand i s, ?_⟩,
    fun s start stop maxc btype f hidle hfits hlegal hhead hlv hstream => ⟨_, exec_eq_runCommand _ s, ?_⟩⟩
  · obtain ⟨hlegal, kind, hphase⟩ := readsEgCode_begins hread
    obtain ⟨r, hreads, habort⟩ := reads_thirtyTwoZeros kind _ hphase
    exact runCommand_raises hidle hfits hlegal hreads hstream habort (by decide)
  · have hbegun : f.headOk (cavlcRun start stop maxc btype s).nC (cavlcRun start stop maxc btype s).count = true := by
      rw [cavlcRun_nC, cavlcRun_count]
      exact hhead
    obtain ⟨r, hreads, habort⟩ := reads_head_unbounded hbegun hlv (cavlcRun_phase ..) (cavlcRun_staged ..)
    refine runCommand_raises hidle hfits hlegal hreads hstream habort ?_
    have hlen := headBits_length_le hhead hlv.le
    rw [List.length_append, List.length_replicate, Config.coreBudget]
    omega

end Sys2Proof.Machine

/-! The statements of 10_state.md: the register space, the lifecycle around a command, the invariant, and what each command leaves
unchanged and guarantees. A whole command is taken through `exec_leaves`: what holds of its internal state at the start, and
is kept by each `Advances` step, holds of the state it ends with, so that a property of a command is proved phase by phase. -/

namespace Sys2Proof.Machine

/-! ### The invariant, one agent's step after another (R16, R19 to R21, R48, R128, R132) -/

/-- An idle machine is held by the clauses on BSLEN and STATUS alone. -/
theorem inv_of_idle {s : State} (hfits : s.streamFits) (herr : errLegal s.status.err)
    (hvalid : s.status.valid = true → s.status.err = 0) (hidle : s.run = none) : Inv s :=
  ⟨hfits, herr, hvalid, fun r hr => by rw [hidle] at hr; cases hr⟩

theorem Inv.streamFits {s : State} (h : Inv s) : s.streamFits := h.1

theorem Inv.run {s : State} {r : Run} (h : Inv s) (hr : s.run = some r) : RunInv s r := h.2.2.2 r hr

theorem RunInv.err_eq_zero {s : State} {r : Run} (h : RunInv s r) : s.status.err = 0 := h.2.1

/-- While a command runs VALID and ERR are clear, so the clauses on STATUS follow from `RunInv`. -/
theorem inv_of_running {s : State} {r : Run} (hfits : s.streamFits) (hr : s.run = some r) (hrun : RunInv s r) : Inv s := by
  refine ⟨hfits, .inl hrun.err_eq_zero, fun _ => hrun.err_eq_zero, fun r' hr' => ?_⟩
  obtain rfl : r = r' := Option.some.inj (hr.symm.trans hr')
  exact hrun

/-- The computation of a phase keeps what the invariant says of a running command. -/
theorem RunInv.of_goes {s : State} {r r' : Run} (h : RunInv s r) (hg : Goes r r') : RunInv s r' := by
  obtain ⟨⟨S, p, rfl⟩, hlegal⟩ := hg
  obtain ⟨hvalid, herr, hcmd, harg, hstart, hlo, hhi, hstable, -⟩ := h
  exact ⟨hvalid, herr, hcmd, harg, hstart, hlo, hhi, hstable, fun hp => by
    rw [show p = .abort .unsupportedPath from hp] at hlegal
    exact hlegal rfl⟩

/-- A position where a bit is found lies below 2^32-1, and inside a stream whose BSLEN is unchanged (R16, R48). -/
theorem RunInv.pos_lt_of_bitAt {s : State} {r : Run} (h : RunInv s r) {b : Bool} (hb : (bitAt s r).1 = some b) :
    r.pos < Config.maxBsLen ∧ (r.lenChanged = false → r.pos < s.bits.length) := by
  obtain ⟨-, -, -, -, -, -, -, hstable, -⟩ := h
  unfold bitAt at hb
  split at hb
  · cases hb
  · rename_i hpos
    refine ⟨Nat.lt_of_not_le hpos, fun hlen => ?_⟩
    rw [hlen, if_neg Bool.false_ne_true] at hb
    split at hb
    · rename_i hchanged
      exact (hstable hlen).2 _ hchanged
    · exact (List.getElem?_eq_some_iff.1 hb).1

/-- The working position moves past a bit that was found. -/
theorem RunInv.advance {s : State} {r : Run} (h : RunInv s r) {b : Bool} (hb : (bitAt s r).1 = some b) :
    RunInv s { r with pos := r.pos + 1 } := by
  obtain ⟨hmax, hlen⟩ := h.pos_lt_of_bitAt hb
  obtain ⟨hvalid, herr, hcmd, harg, hstart, hlo, hhi, hstable, hphase⟩ := h
  refine ⟨hvalid, herr, hcmd, harg, hstart, hlo.trans (Nat.le_succ _), ?_, fun hl => ⟨?_, (hstable hl).2⟩, hphase⟩
  · exact le_max_of_le_right hmax
  · exact le_max_of_le_right (hlen hl)

/-- The code of an error that CDN-RED raises is one it may write to ERR (R128). -/
theorem errLegal_errorCode {e : ErrorKind} (h : e ≠ .unsupportedPath) : errLegal (errorCode e) := by
  cases e with
  | streamExhausted => exact .inr (.inl rfl)
  | malformedSyntax => exact .inr (.inr (.inl rfl))
  | unboundedLoop => exact .inr (.inr (.inr (.inl rfl)))
  | unsupportedPath => exact absurd rfl h
  | invalidCommand => exact .inr (.inr (.inr (.inr rfl)))

theorem inv_commitRun {s : State} (h : Inv s) (r : Run) : Inv (commitRun s r) :=
  inv_of_idle h.streamFits (.inl rfl) (fun _ => rfl) rfl

theorem inv_abortRun {s : State} (h : Inv s) (r : Run) {e : ErrorKind} (he : e ≠ .unsupportedPath) :
    Inv (abortRun e s r) := by
  unfold abortRun
  split <;> exact inv_of_idle h.streamFits (errLegal_errorCode he) (fun hv => by cases hv) rfl

theorem inv_coreStep {s : State} (h : Inv s) : Inv (coreStep s) := by
  have hfits := h.streamFits
  rcases coreStep_cases s with ⟨-, e⟩ | ⟨r, hr, hcase⟩
  · rwa [e]
  · have hrun := h.run hr
    rcases hcase with ⟨r', hg, e⟩ | ⟨p, -, -, e⟩ | ⟨p, b, -, hb, e⟩ | ⟨p, -, -, e⟩ | ⟨p, rest, -, -, e⟩
        | ⟨p, b, rest, -, -, e⟩ | ⟨-, e⟩ | ⟨err, hp, e⟩ <;> rw [e]
    · exact inv_of_running hfits rfl (hrun.of_goes hg)
    · exact inv_of_running hfits rfl (hrun.of_goes (goes_raise r (by decide)))
    · exact inv_of_running hfits rfl ((hrun.advance hb).of_goes (goes_afterBit p b _))
    · exact h
    · exact inv_of_running hfits rfl
        (RunInv.of_goes (r := { r with reqs := r.reqs + 1 }) hrun (goes_raise _ (by decide)))
    · exact inv_of_running hfits rfl
        (RunInv.of_goes (r := { r with reqs := r.reqs + 1 }) hrun (goes_afterBin p b _))
    · exact inv_commitRun h r
    · obtain ⟨-, -, -, -, -, -, -, -, hphase⟩ := hrun
      exact inv_abortRun h r fun he => hphase (he ▸ hp)

theorem inv_startCommand {s : State} (hfits : s.streamFits) (w : Word) (c : Option Instr) : Inv (startCommand w c s) :=
  inv_of_running (r := freshRun w c s) hfits rfl
    ⟨rfl, rfl, rfl, rfl, rfl, le_rfl, le_max_left _ _, fun _ => ⟨le_max_left _ _, fun p hp => by cases hp⟩, by
      intro hp; cases hp⟩

theorem inv_dropWrite {s : State} (h : Inv s) : Inv (dropWrite s) := h

theorem inv_runCommand {s : State} (h : Inv s) (w : Word) (c : Option Instr) : Inv (runCommand w c s) := by
  unfold runCommand
  split
  · exact inv_dropWrite h
  · exact runCore_induction (fun _ h => inv_coreStep h) (inv_startCommand h.streamFits w c) _

/-- A write to ARG or POS happens only while no command runs, so its snapshots stay the registers (R21). -/
theorem inv_writeSlot {s : State} (h : Inv s) (off : Nat) (v : Word) : Inv (writeSlot off v s) := by
  have hidle : ¬ s.busy = true → s.run = none := fun hb => by simpa [State.busy] using hb
  have hwritten : ∀ arg pos : Word, s.run = none → Inv { s with arg := arg, pos := pos } := by
    obtain ⟨hfits, herr, hvalid, -⟩ := h
    exact fun _ _ hrun => inv_of_idle hfits herr hvalid hrun
  unfold writeSlot
  split
  · split
    · exact inv_dropWrite h
    · exact inv_startCommand h.streamFits _ _
  · split
    · split
      · exact inv_dropWrite h
      · rename_i hb
        exact hwritten _ _ (hidle hb)
    · split
      · split
        · exact inv_dropWrite h
        · rename_i hb
          exact hwritten _ _ (hidle hb)
      · exact h

theorem inv_resetCore {s : State} (h : Inv s) : Inv (resetCore s) :=
  inv_of_idle h.streamFits (.inl rfl) (fun _ => rfl) rfl

/-- The record of changed positions stays inside the stream (log entry 3), and the stream's end where it was unless BSLEN is
recorded as changed. -/
theorem inv_changeBits {s : State} (h : Inv s) {bs : List Bool} (hbs : bs.length ≤ Config.maxBsLen) :
    Inv (changeBits bs s) := by
  obtain ⟨-, herr, hvalid, hrun⟩ := h
  refine ⟨hbs, herr, hvalid, fun r' hr' => ?_⟩
  obtain ⟨r, hr, rfl⟩ := Option.map_eq_some_iff.1 hr'
  obtain ⟨hv, he, hcmd, harg, hstart, hlo, hhi, hstable, hphase⟩ := hrun r hr
  refine ⟨hv, he, hcmd, harg, hstart, hlo, hhi, fun hl => ?_, hphase⟩
  obtain ⟨hl0, hlen⟩ : r.lenChanged = false ∧ bs.length = s.bits.length := by simpa using hl
  obtain ⟨hpos, hchanged⟩ := hstable hl0
  refine ⟨show r.pos ≤ max s.pos.toNat bs.length by rw [hlen]; exact hpos, fun p hp => ?_⟩
  show p < bs.length
  simp only [List.contains_iff_mem, List.mem_append, List.mem_filter, List.mem_range] at hp
  rcases hp with hp | ⟨hp, -⟩
  · exact hlen ▸ hchanged p (List.contains_iff_mem.2 hp)
  · exact hp

theorem inv_pollStatus {s : State} (h : Inv s) : Inv (pollStatus s) := h

theorem inv_runWord {s t : State} (h : Inv s) {w : Word} (ht : runWord w s = .next t) : Inv t := by
  unfold runWord at ht
  split at ht
  · rw [exec_eq_runCommand] at ht
    cases ht
    exact inv_runCommand h _ _
  · cases ht
    exact inv_runCommand h _ _

theorem inv_takeEvent {s t : State} (h : Inv s) {e : Event} (ht : takeEvent e s = .next t) : Inv t := by
  cases e with
  | read off width =>
    simp only [takeEvent] at ht
    split at ht <;> cases ht
    exact h
  | write off width v =>
    simp only [takeEvent] at ht
    split at ht <;> cases ht
    exact inv_writeSlot h off v
  | run w => exact inv_runWord h ht
  | wait => cases ht; exact inv_pollStatus h
  | core => cases ht; exact inv_coreStep h
  | reset => cases ht; exact inv_resetCore h
  | bitstream bs =>
    simp only [takeEvent] at ht
    split at ht <;> cases ht
    rename_i hbs
    exact inv_changeBits h hbs
  | engine answers => cases ht; exact h

/-- Settles O22: each agent's step keeps the invariant. -/
theorem everyStepKeepsTheInvariant : Obligations.EveryStepKeepsTheInvariant := by
  intro s t h ht
  unfold step nextStep at ht
  split at ht
  · cases ht
    exact inv_coreStep h
  · rename_i rest _
    exact inv_takeEvent (s := { s with inbox := rest }) h ht

/-- Settles O21: no command runs, no bit is presented, and STATUS is 0. -/
theorem resetMeetsTheInvariant : Obligations.ResetMeetsTheInvariant :=
  inv_of_idle (Nat.zero_le _) (.inl rfl) (fun _ => rfl) rfl

/-! ### The register space (R13, R17, R42, R50) -/

theorem getD_fin {n : Nat} (v : Vector Word n) (i : Fin n) : v.getD i.val 0 = v[i] := by
  simp [Vector.getD]

/-- Settles O7: the scalars and maps by their offsets, the arrays by `resultSlot_level` and its like. -/
theorem registersStandAtTheirOffsets : Obligations.RegistersStandAtTheirOffsets := by
  intro s
  refine ⟨rfl, rfl, rfl, rfl, rfl, rfl, rfl, rfl, rfl, rfl, rfl, rfl, rfl, fun i => ⟨?_, ?_, ?_, ?_, ?_⟩,
    halves_append s.results.sigmap, halves_append s.results.lastmap, halves_append s.results.signmap, fun j => ⟨?_, ?_⟩⟩
  · rw [readSlot_result (by omega), resultSlot_level _ i.isLt, getD_fin]
  · rw [readSlot_result (by omega), resultSlot_run _ i.isLt, getD_fin]
  · rw [readSlot_result (by omega), resultSlot_levelprefix _ i.isLt, getD_fin]
  · rw [readSlot_result (by omega), resultSlot_levelsuffix _ i.isLt, getD_fin]
  · rw [readSlot_result (by omega), resultSlot_runbefore _ i.isLt, getD_fin]
  · rw [readSlot_result (by omega), resultSlot_abslm1 _ j.isLt, getD_fin]
  · rw [readSlot_result (by omega), resultSlot_coef _ j.isLt, getD_fin]

/-- The reserved bits of STATUS (R17). -/
theorem statusWord_reserved (busy : Bool) (st : Status) {k : Nat} (hk : k = 2 ∨ k = 3 ∨ k = 7 ∨ 9 ≤ k) :
    (statusWord busy st).getLsbD k = false := by
  rw [statusWord_eq_append]
  simp only [BitVec.getLsbD_append]
  rcases hk with rfl | rfl | rfl | hk
  · rfl
  · rfl
  · rfl
  · iterate 6 rw [if_neg (by omega)]
    exact BitVec.getLsbD_zero

theorem statusWord_valid (busy : Bool) (st : Status) : (statusWord busy st).getLsbD 1 = st.valid := by
  rw [statusWord_eq_append]
  simp only [BitVec.getLsbD_append]
  simp

theorem statusWord_err (busy : Bool) (st : Status) : (statusWord busy st).extractLsb' 4 3 = st.err := by
  apply BitVec.eq_of_getLsbD_eq
  intro i hi
  rw [statusWord_eq_append]
  simp only [BitVec.getLsbD_extractLsb', BitVec.getLsbD_append]
  interval_cases i <;> simp

theorem statusWord_dropped (busy : Bool) (st : Status) : (statusWord busy st).getLsbD 8 = st.dropped := by
  rw [statusWord_eq_append]
  simp only [BitVec.getLsbD_append]
  simp

/-- Settles O8: STATUS is its fields side by side. -/
theorem statusFieldsStandAtTheirBits : Obligations.StatusFieldsStandAtTheirBits :=
  fun s => ⟨readStatus_busy s, statusWord_valid s.busy s.status, statusWord_err s.busy s.status,
    statusWord_dropped s.busy s.status, fun _ => statusWord_reserved s.busy s.status⟩

/-- A read of a word in the window. -/
theorem step_read {off : Nat} (h : off < 0x400) (ha : off % 4 = 0) (s : State) (rest : List Event) :
    step { s with inbox := .read off 32 :: rest }
      = .next { s with inbox := rest, reads := s.reads ++ [readSlot off s] } := by
  have hs : supportedAccess off 32 = true := by simp [supportedAccess, h, ha]
  rw [step_event, takeEvent, if_pos hs]
  rfl

/-- A write of a word in the window. -/
theorem step_write {off : Nat} (h : off < 0x400) (ha : off % 4 = 0) (v : Word) (s : State) (rest : List Event) :
    step { s with inbox := .write off 32 v :: rest } = .next (writeSlot off v { s with inbox := rest }) := by
  have hs : supportedAccess off 32 = true := by simp [supportedAccess, h, ha]
  rw [step_event, takeEvent, if_pos hs]

/-- A reserved offset (R42). -/
abbrev ReservedOffset (off : Nat) : Prop := off = 0x038 ∨ off = 0x03C ∨ (0x198 ≤ off ∧ off ≤ 0x1FC)

theorem readSlot_reserved {off : Nat} (h : ReservedOffset off) (s : State) : readSlot off s = 0 := by
  rcases h with rfl | rfl | ⟨hlo, hhi⟩
  · rfl
  · rfl
  · rw [readSlot_result (by omega), resultSlot]
    iterate 22 rw [if_neg (by omega)]
    exact if_pos (by omega)

/-- Settles O9: a reserved slot reads 0, and every slot but CMD, ARG and POS ignores a write. -/
theorem reservedSlotsReadZero : Obligations.ReservedSlotsReadZero := by
  intro s rest v
  refine ⟨fun off hoff ha => ⟨?_, ?_⟩, fun k => statusWord_reserved s.busy s.status, ?_⟩
  · rw [step_read (by omega) ha, readSlot_reserved hoff]
  · rw [step_write (by omega) ha, writeSlot_readOnly (by omega) (by omega) (by omega)]
  · rw [step_write (by decide) rfl, writeSlot_readOnly (by decide) (by decide) (by decide)]

/-! ### Starting, dropping and resetting (R21, R130, R145) -/

theorem busy_iff {s : State} : s.busy = true ↔ s.run ≠ none := Option.isSome_iff_ne_none

theorem writeSlot_busy {s : State} (h : s.run ≠ none) {off : Nat} (hoff : off = 0x000 ∨ off = 0x004 ∨ off = 0x008)
    (v : Word) : writeSlot off v s = dropWrite s := by
  rcases hoff with rfl | rfl | rfl <;> simp [writeSlot, busy_iff.2 h]

theorem writeSlot_cmd_idle {s : State} (h : s.run = none) (w : Word) :
    writeSlot 0x000 w s = startCommand w (decode w).toOption s := by
  simp [writeSlot, State.busy, h]

/-- Settles O12: both are dropped writes. -/
theorem writesWhileBusyAreDropped : Obligations.WritesWhileBusyAreDropped := by
  intro s rest off v i hbusy hoff
  refine ⟨?_, ?_⟩
  · rw [step_write (by omega) (by omega), writeSlot_busy (s := { s with inbox := rest }) hbusy hoff]
    rfl
  · rw [exec_eq_runCommand, runCommand_busy hbusy]
    rfl

/-- Settles O14: the write starts the command its word decodes to. -/
theorem cmdWriteStartsACommand : Obligations.CmdWriteStartsACommand := by
  intro s rest w hidle
  refine ⟨startCommand w (decode w).toOption { s with inbox := rest }, freshRun w (decode w).toOption s, ?_, rfl, rfl, rfl,
    rfl, rfl, rfl, ?_, rfl⟩
  · rw [step_write (by decide) rfl, writeSlot_cmd_idle (s := { s with inbox := rest }) hidle]
  · show statusWord true statusStart = 1
    decide

/-- Settles O19: the step is `resetCore`. -/
theorem resetTakesOneStep : Obligations.ResetTakesOneStep := by
  intro s rest
  refine ⟨resetCore { s with inbox := rest }, rfl, rfl, rfl, rfl, ?_, rfl, rfl, fun _ => rfl, rfl, rfl, rfl⟩
  show statusWord false statusReset = 0
  decide

/-- Settles O20: STATUS is 0 and an idle Core does nothing. -/
theorem resetStateIsIdle : Obligations.ResetStateIsIdle := by
  refine ⟨rfl, rfl, rfl, ?_, ?_⟩
  · show statusWord false statusReset = 0
    decide
  · rw [step_empty rfl, coreStep_idle rfl]

/-- Settles O23: `run` takes the decoded command's meaning, and the word of `withFetchWord` is the table's. -/
theorem stepRunsTheDecodedCommand : Obligations.StepRunsTheDecodedCommand := by
  intro s w i rest hdecode
  have hrun : ∀ u : State, runWord w u = exec i u := fun u => by rw [runWord, hdecode]
  have hword : tableWord 32 w.toNat = w := by
    rw [tableWord, Nat.mod_eq_of_lt w.isLt, BitVec.ofNat_toNat, BitVec.setWidth_eq]
  refine ⟨hrun _, ?_⟩
  show runWord (tableWord 32 w.toNat) { s with run := none } = _
  rw [hword, hrun]

/-! ### A Core step beside what it does not read (R21, R43, R45) -/

theorem coreStep_of_run {s : State} {r : Run} (h : s.run = some r) : coreStep s = runStep s r := by
  rw [coreStep, h]

/-- The running command neither reads DROPPED nor writes it (R21). -/
theorem runStep_dropWrite (s : State) (r : Run) : runStep (dropWrite s) r = dropWrite (runStep s r) := by
  unfold runStep
  cases r.phase with
  | check c => rfl
  | bit p =>
    show bitStep p (dropWrite s) r = dropWrite (bitStep p s r)
    unfold bitStep
    rw [show bitAt (dropWrite s) r = bitAt s r from rfl]
    rcases bitAt s r with ⟨_ | b, d⟩ <;> rfl
  | bin p =>
    show binStep p (dropWrite s) r = dropWrite (binStep p s r)
    unfold binStep
    rw [dropWrite_engine]
    cases s.engine.answers <;> rfl
  | place n c => rfl
  | commit => rfl
  | abort e =>
    show abortRun e (dropWrite s) r = dropWrite (abortRun e s r)
    unfold abortRun
    split <;> rfl

/-- Settles O13: in every phase the step neither reads DROPPED nor writes it. -/
theorem droppedWritesDoNotDisturbTheCommand : Obligations.DroppedWritesDoNotDisturbTheCommand := by
  intro s hbusy
  obtain ⟨r, hr⟩ := Option.ne_none_iff_exists'.1 hbusy
  rw [coreStep_of_run hr, coreStep_of_run (s := dropWrite s) hr, runStep_dropWrite]

theorem abortRun_results (e : ErrorKind) (s : State) (r : Run) : (abortRun e s r).results = s.results := by
  unfold abortRun
  split <;> rfl

/-- Settles O17: of what a Core step can do, only the commit changes a result register. -/
theorem resultsChangeOnlyAtCommit : Obligations.ResultsChangeOnlyAtCommit := by
  intro s h
  rcases coreStep_cases s with ⟨_, e⟩ | ⟨r, _, ⟨_, _, e⟩ | ⟨_, _, _, e⟩ | ⟨_, _, _, _, e⟩ | ⟨_, _, _, e⟩ | ⟨_, _, _, _, e⟩
      | ⟨_, _, _, _, _, e⟩ | ⟨_, e⟩ | ⟨_, _, e⟩⟩
  iterate 7 exact absurd (by rw [e]) h
  · rw [e]
    exact ⟨rfl, rfl, rfl⟩
  · exact absurd (by rw [e, abortRun_results]) h

/-! ### Two machines with the same inputs (R45) -/

/-- Where nothing has changed since the command started, a bit read finds the stream's bit below 2^32-1 and draws nothing. -/
theorem bitAt_unchanged {s : State} {r : Run} (hc : r.changed = []) (hl : r.lenChanged = false) :
    bitAt s r = (if Config.maxBsLen ≤ r.pos then none else s.bits[r.pos]?, 0) := by
  unfold bitAt
  split
  · rfl
  · simp [hc, hl]

/-- The machines are alike in what a running command reads and in what it shows once it has committed. `base` and `base'` are the
requests their Engines had answered before. -/
structure Alike (base base' : List Request) (s s' : State) : Prop where
  status : s.status = s'.status
  run : s.run = s'.run
  bits : s.bits = s'.bits
  cbfRule : s.cbfRule = s'.cbfRule
  answers : s.engine.answers = s'.engine.answers
  requests : ∃ q, s.engine.requests = base ++ q ∧ s'.engine.requests = base' ++ q
  unchanged : ∀ r, s.run = some r → r.changed = [] ∧ r.lenChanged = false
  committed : s.status.valid = true → s.results = s'.results ∧ s.pos = s'.pos

section
variable {base base' : List Request} {s s' : State}

/-- Both go on with the same running command, whatever they have drawn. -/
theorem Alike.with_run (h : Alike base base' s s') {r : Run} (hc : r.changed = []) (hl : r.lenChanged = false) (n n' : Nat) :
    Alike base base' { s with run := some r, draws := n } { s' with run := some r, draws := n' } :=
  ⟨h.status, rfl, h.bits, h.cbfRule, h.answers, h.requests, fun _ hr => Option.some.inj hr ▸ ⟨hc, hl⟩, h.committed⟩

/-- Both Engines have answered the same request. -/
theorem Alike.with_request (h : Alike base base' s s') (q : Request) (rest : List Answer) :
    Alike base base' { s with engine := ⟨rest, s.engine.requests ++ [q]⟩ }
      { s' with engine := ⟨rest, s'.engine.requests ++ [q]⟩ } := by
  obtain ⟨qs, hq, hq'⟩ := h.requests
  exact ⟨h.status, h.run, h.bits, h.cbfRule, rfl,
    ⟨qs ++ [q], by rw [hq, List.append_assoc], by rw [hq', List.append_assoc]⟩, h.unchanged, h.committed⟩

theorem alike_commitRun (h : Alike base base' s s') (r : Run) :
    Alike base base' (commitRun s r) (commitRun s' r) :=
  ⟨congrArg statusCommit h.status, rfl, h.bits, h.cbfRule, h.answers, h.requests, fun _ hr => (by cases hr),
    fun _ => ⟨rfl, rfl⟩⟩

theorem alike_abortRun (h : Alike base base' s s') (e : ErrorKind) (r : Run) :
    Alike base base' (abortRun e s r) (abortRun e s' r) := by
  unfold abortRun
  split <;> exact ⟨congrArg (statusAbort e) h.status, rfl, h.bits, h.cbfRule, h.answers, h.requests,
    fun _ hr => (by cases hr), fun hv => (by cases hv)⟩

theorem alike_bitStep (h : Alike base base' s s') {r : Run} (hc : r.changed = []) (hl : r.lenChanged = false)
    (p : BitPhase) : Alike base base' (bitStep p s r) (bitStep p s' r) := by
  have hsame : bitAt s' r = bitAt s r := by rw [bitAt_unchanged hc hl, bitAt_unchanged hc hl, h.bits]
  unfold bitStep
  rw [hsame]
  rcases bitAt s r with ⟨_ | b, d⟩
  · exact h.with_run (r := r.raise .streamExhausted) hc hl _ _
  · obtain ⟨hk, -⟩ := goes_afterBit p b { r with pos := r.pos + 1 }
    exact h.with_run (hk.changed.trans hc) (hk.lenChanged.trans hl) _ _

theorem alike_binStep (h : Alike base base' s s') {r : Run} (hc : r.changed = []) (hl : r.lenChanged = false)
    (p : BinPhase) : Alike base base' (binStep p s r) (binStep p s' r) := by
  unfold binStep
  rw [← h.answers]
  rcases s.engine.answers with _ | ⟨b | _, rest⟩
  · exact h
  · obtain ⟨hk, -⟩ := goes_afterBin p b { r with reqs := r.reqs + 1 }
    exact (h.with_request (requestOf p r) rest).with_run (hk.changed.trans hc) (hk.lenChanged.trans hl) _ _
  · exact (h.with_request (requestOf p r) rest).with_run (r := Run.raise .streamExhausted { r with reqs := r.reqs + 1 }) hc hl
      _ _

/-- A Core step keeps machines alike, phase by phase. -/
theorem alike_coreStep (h : Alike base base' s s') : Alike base base' (coreStep s) (coreStep s') := by
  cases hr : s.run with
  | none => rwa [coreStep_idle hr, coreStep_idle (h.run ▸ hr)]
  | some r =>
    obtain ⟨hc, hl⟩ := h.unchanged r hr
    rw [coreStep_of_run hr, coreStep_of_run (h.run ▸ hr)]
    unfold runStep
    cases r.phase with
    | check c =>
      obtain ⟨hk, -⟩ := goes_checkCommand s.cbfRule c r
      have hsame : checkCommand s'.cbfRule c r = checkCommand s.cbfRule c r := by rw [h.cbfRule]
      show Alike base base' { s with run := some (checkCommand s.cbfRule c r) }
        { s' with run := some (checkCommand s'.cbfRule c r) }
      rw [hsame]
      exact h.with_run (hk.changed.trans hc) (hk.lenChanged.trans hl) _ _
    | bit p => exact alike_bitStep h hc hl p
    | bin p => exact alike_binStep h hc hl p
    | place n c =>
      obtain ⟨hk, -⟩ := goes_placeStep n c r
      exact h.with_run (hk.changed.trans hc) (hk.lenChanged.trans hl) _ _
    | commit => exact alike_commitRun h r
    | abort e => exact alike_abortRun h e r

theorem alike_iterate (n : Nat) (h : Alike base base' s s') : Alike base base' (coreStep^[n] s) (coreStep^[n] s') := by
  induction n generalizing s s' with
  | zero => exact h
  | succ n ih => exact ih (alike_coreStep h)

end

/-- Settles O29: the machines are alike when the command has started, and stay so. -/
theorem resultsDependOnlyOnTheInputs : Obligations.ResultsDependOnlyOnTheInputs := by
  intro s s' t t' i hidle hidle' harg hpos hbits hanswers hrule ht ht'
  have hfresh : freshRun (encode i) (some i) s = freshRun (encode i) (some i) s' := by
    rw [freshRun, freshRun, harg, hpos]
  have hstart : Alike s.engine.requests s'.engine.requests (startCommand (encode i) (some i) s)
      (startCommand (encode i) (some i) s') :=
    ⟨rfl, congrArg some hfresh, hbits, hrule, hanswers, ⟨[], by simp, by simp⟩,
      fun _ hr => Option.some.inj hr ▸ ⟨rfl, rfl⟩, fun hv => by cases hv⟩
  have hend := alike_iterate Config.coreBudget hstart
  rw [← runCore_eq_iterate, ← runCore_eq_iterate, ← runCommand_idle hidle, ← runCommand_idle hidle'] at hend
  rw [exec_eq_runCommand] at ht ht'
  cases ht
  cases ht'
  exact ⟨hend.status, hend.committed, hend.answers, hend.requests⟩

/-! ### A whole command, one internal state after another -/

/-- One Core step of the running command that neither waits nor ends it, seen from its internal state (R131). -/
inductive Advances (rule : CbfRule) : Run → Run → Prop where
  | check {r : Run} {c : Option Instr} (hp : r.phase = .check c) : Advances rule r (checkCommand rule c r)
  | bit {r : Run} {p : BitPhase} (hp : r.phase = .bit p) (b : Bool) :
    Advances rule r (afterBit p b { r with pos := r.pos + 1 })
  | endOfStream {r : Run} {p : BitPhase} (hp : r.phase = .bit p) : Advances rule r (r.raise .streamExhausted)
  | bin {r : Run} {p : BinPhase} (hp : r.phase = .bin p) (b : Bool) :
    Advances rule r (afterBin p b { r with reqs := r.reqs + 1 })
  | exhausted {r : Run} {p : BinPhase} (hp : r.phase = .bin p) :
    Advances rule r (Run.raise .streamExhausted { r with reqs := r.reqs + 1 })
  | place {r : Run} {n : Nat} {c : Int} (hp : r.phase = .place n c) : Advances rule r (placeStep n c r)

/-- The machine `s` while the command `w` that started in it runs, with this internal state and this Engine: nothing else has
changed (R12). -/
def onTheWay (w : Word) (s : State) (r : Run) (eng : Engine) : State :=
  { s with cmd := w, status := statusStart, run := some r, engine := eng }

theorem startCommand_eq_onTheWay (w : Word) (c : Option Instr) (s : State) :
    startCommand w c s = onTheWay w s (freshRun w c s) s.engine := rfl

/-- What is true of the internal state and the Engine at every point of a command `w` that started at `s`, under a stable
bitstream: the snapshots, the range of the working position, and one answer taken for each request. -/
structure Underway (w : Word) (s : State) (r : Run) (eng : Engine) : Prop where
  cmd : r.cmd = w
  arg : r.arg = s.arg
  posStart : r.posStart = s.pos
  changed : r.changed = []
  lenChanged : r.lenChanged = false
  pos_ge : s.pos.toNat ≤ r.pos
  pos_le : r.pos ≤ max s.pos.toNat Config.maxBsLen
  answered : ∃ a q, s.engine.answers = a ++ eng.answers ∧ eng.requests = s.engine.requests ++ q ∧ a.length = q.length
    ∧ r.reqs = q.length

theorem underway_fresh (w : Word) (c : Option Instr) (s : State) : Underway w s (freshRun w c s) s.engine :=
  ⟨rfl, rfl, rfl, rfl, rfl, le_rfl, le_max_left _ _, ⟨[], [], by simp, by simp, rfl, rfl⟩⟩

section
variable {w : Word} {s : State} {r r' : Run} {eng : Engine}

theorem Underway.of_keeps (h : Underway w s r eng) (hk : Keeps r r') : Underway w s r' eng := by
  obtain ⟨S, p, rfl⟩ := hk
  exact ⟨h.cmd, h.arg, h.posStart, h.changed, h.lenChanged, h.pos_ge, h.pos_le, h.answered⟩

theorem Underway.advance (h : Underway w s r eng) (hpos : r.pos < Config.maxBsLen) :
    Underway w s { r with pos := r.pos + 1 } eng :=
  ⟨h.cmd, h.arg, h.posStart, h.changed, h.lenChanged, h.pos_ge.trans (Nat.le_succ _), le_max_of_le_right hpos, h.answered⟩

/-- One more request, answered. -/
theorem Underway.ask (h : Underway w s r eng) {a : Answer} {rest : List Answer} (ha : eng.answers = a :: rest) (q : Request) :
    Underway w s { r with reqs := r.reqs + 1 } ⟨rest, eng.requests ++ [q]⟩ := by
  obtain ⟨as, qs, has, hqs, hlen, hreqs⟩ := h.answered
  refine ⟨h.cmd, h.arg, h.posStart, h.changed, h.lenChanged, h.pos_ge, h.pos_le, as ++ [a], qs ++ [q], ?_, ?_, ?_, ?_⟩
  · rw [has, ha, List.append_assoc]; rfl
  · rw [hqs, List.append_assoc]
  · simp [hlen]
  · show r.reqs + 1 = _
    simp [hreqs]

/-- A Core step on the way: the internal state advances, or the Core waits, or the command commits or aborts. -/
theorem coreStep_onTheWay (h : Underway w s r eng) :
    (∃ r' eng', Advances s.cbfRule r r' ∧ Underway w s r' eng' ∧ coreStep (onTheWay w s r eng) = onTheWay w s r' eng')
    ∨ (stalled (onTheWay w s r eng) = true ∧ ∃ p, r.phase = .bin p)
    ∨ (r.phase = .commit ∧ coreStep (onTheWay w s r eng) = commitRun (onTheWay w s r eng) r)
    ∨ ∃ e, r.phase = .abort e ∧ coreStep (onTheWay w s r eng) = abortRun e (onTheWay w s r eng) r := by
  have hr : (onTheWay w s r eng).run = some r := rfl
  cases hp : r.phase with
  | check c =>
    exact .inl ⟨_, eng, .check hp, h.of_keeps (goes_checkCommand s.cbfRule c r).1, coreStep_check hr hp⟩
  | bit p =>
    refine .inl ?_
    have hstep : coreStep (onTheWay w s r eng) = bitStep p (onTheWay w s r eng) r := by
      rw [coreStep_of_run hr, runStep, hp]
    have hbit := bitAt_unchanged (s := onTheWay w s r eng) h.changed h.lenChanged
    rw [hstep, bitStep, hbit]
    split
    · rename_i d hd
      obtain ⟨-, rfl⟩ := Prod.mk.inj hd
      exact ⟨_, eng, .endOfStream hp, h.of_keeps (keeps_raise _ _), rfl⟩
    · rename_i b d hd
      obtain ⟨hb, rfl⟩ := Prod.mk.inj hd
      have hpos : r.pos < Config.maxBsLen := by
        by_contra hge
        rw [if_pos (Nat.le_of_not_lt hge)] at hb
        cases hb
      exact ⟨_, eng, .bit hp b, (h.advance hpos).of_keeps (goes_afterBit p b _).1, rfl⟩
  | bin p =>
    cases ha : eng.answers with
    | nil => exact .inr (.inl ⟨(stalled_iff _).2 (.inr ⟨r, p, hr, hp, ha⟩), p, rfl⟩)
    | cons a rest =>
      refine .inl ?_
      cases a with
      | exhausted =>
        exact ⟨_, _, .exhausted hp, (h.ask ha (requestOf p r)).of_keeps (keeps_raise _ _), coreStep_exhausted hr hp ha⟩
      | bin b =>
        exact ⟨_, _, .bin hp b, (h.ask ha (requestOf p r)).of_keeps (goes_afterBin p b _).1, coreStep_bin hr hp ha⟩
  | place n c => exact .inl ⟨_, eng, .place hp, h.of_keeps (goes_placeStep n c r).1, coreStep_place hr hp⟩
  | commit => exact .inr (.inr (.inl ⟨rfl, coreStep_commit hr hp⟩))
  | abort e => exact .inr (.inr (.inr ⟨e, rfl, coreStep_abort hr hp⟩))

/-- The machine the command leaves: still on its way, or just after its commit or its abort. -/
inductive Leaves (w : Word) (s : State) (r : Run) (eng : Engine) : State → Prop where
  | running : Leaves w s r eng (onTheWay w s r eng)
  | committed (hp : r.phase = .commit) : Leaves w s r eng (commitRun (onTheWay w s r eng) r)
  | aborted {e : ErrorKind} (hp : r.phase = .abort e) : Leaves w s r eng (abortRun e (onTheWay w s r eng) r)

/-- Core steps on the way keep to what `Advances` keeps. -/
theorem runCore_leaves {P : Run → Prop} (hP : ∀ r r', P r → Advances s.cbfRule r r' → P r') (n : Nat)
    (hr : P r) (h : Underway w s r eng) :
    ∃ r' eng', P r' ∧ Underway w s r' eng' ∧ Leaves w s r' eng' (runCore n (onTheWay w s r eng)) := by
  induction n generalizing r eng with
  | zero => exact ⟨r, eng, hr, h, .running⟩
  | succ n ih =>
    rw [runCore]
    split
    · exact ⟨r, eng, hr, h, .running⟩
    · rename_i hstalled
      rcases coreStep_onTheWay h with ⟨r', eng', hadv, h', e⟩ | ⟨hwait, -⟩ | ⟨hp, e⟩ | ⟨err, hp, e⟩
      · rw [e]
        exact ih (hP r r' hr hadv) h'
      · exact absurd hwait hstalled
      · rw [e, runCore_stalled (stalled_of_idle (commitRun_run _ _))]
        exact ⟨r, eng, hr, h, .committed hp⟩
      · rw [e, runCore_stalled (stalled_of_idle (abortRun_run _ _ _))]
        exact ⟨r, eng, hr, h, .aborted hp⟩

/-- With a count that every `Advances` step makes smaller, and no request, that many Core steps end the command. -/
theorem runCore_ends {P : Run → Prop} {fuel : Phase → Nat}
    (hP : ∀ r r', P r → Advances s.cbfRule r r' → P r' ∧ fuel r'.phase < fuel r.phase)
    (hbin : ∀ r p, P r → r.phase ≠ .bin p) (n : Nat) (hr : P r) (h : Underway w s r eng) (hn : fuel r.phase < n) :
    (runCore n (onTheWay w s r eng)).run = none := by
  induction n generalizing r eng with
  | zero => exact absurd hn (Nat.not_lt_zero _)
  | succ n ih =>
    rw [runCore]
    split
    · rename_i hstalled
      rcases (stalled_iff _).1 hstalled with hidle | ⟨r', p, hr', hp, -⟩
      · exact hidle
      · obtain rfl : r = r' := Option.some.inj hr'
        exact absurd hp (hbin r p hr)
    · rcases coreStep_onTheWay h with ⟨r', eng', hadv, h', e⟩ | ⟨-, p, hp⟩ | ⟨-, e⟩ | ⟨err, -, e⟩
      · obtain ⟨hr', hless⟩ := hP r r' hr hadv
        rw [e]
        exact ih hr' h' (by omega)
      · exact absurd hp (hbin r p hr)
      · rw [e, runCore_stalled (stalled_of_idle (commitRun_run _ _)), commitRun_run]
      · rw [e, runCore_stalled (stalled_of_idle (abortRun_run _ _ _)), abortRun_run]

end

/-- A command, once and for all: it leaves the machine on its way, committed or aborted, with an internal state of which everything
holds that holds at its start and that `Advances` keeps. -/
theorem exec_leaves {s t : State} {i : Instr} (hidle : s.run = none) (ht : exec i s = .next t) {P : Run → Prop}
    (hP : ∀ r r', P r → Advances s.cbfRule r r' → P r') (hstart : P (freshRun (encode i) (some i) s)) :
    ∃ r eng, P r ∧ Underway (encode i) s r eng ∧ Leaves (encode i) s r eng t := by
  rw [exec_eq_runCommand, runCommand_idle hidle, startCommand_eq_onTheWay] at ht
  cases ht
  exact runCore_leaves hP _ hstart (underway_fresh _ _ s)

/-- A command that issues no request ends where a count bounds its steps. -/
theorem exec_ends {s t : State} {i : Instr} (hidle : s.run = none) (ht : exec i s = .next t) {P : Run → Prop}
    {fuel : Phase → Nat} (hP : ∀ r r', P r → Advances s.cbfRule r r' → P r' ∧ fuel r'.phase < fuel r.phase)
    (hbin : ∀ r p, P r → r.phase ≠ .bin p) (hstart : P (freshRun (encode i) (some i) s))
    (hfuel : fuel (.check (some i)) < Config.coreBudget) : t.run = none := by
  rw [exec_eq_runCommand, runCommand_idle hidle, startCommand_eq_onTheWay] at ht
  cases ht
  exact runCore_ends hP hbin _ hstart (underway_fresh _ _ s) hfuel

/-! ### What every command leaves unchanged (R12, R16, R43, R132) -/

section
variable {w : Word} {s t : State} {r : Run} {eng : Engine}

/-- Only CMD, POS, STATUS, the results, the internal state, the Engine and the draw counter change. -/
theorem Leaves.frame (h : Leaves w s r eng t) :
    t.cmd = w ∧ t.arg = s.arg ∧ t.status.dropped = false ∧ t.bits = s.bits ∧ t.engine = eng ∧ t.cbfRule = s.cbfRule
      ∧ t.reads = s.reads ∧ t.inbox = s.inbox := by
  cases h with
  | running => exact ⟨rfl, rfl, rfl, rfl, rfl, rfl, rfl, rfl⟩
  | committed => exact ⟨rfl, rfl, rfl, rfl, rfl, rfl, rfl, rfl⟩
  | aborted => unfold abortRun; split <;> exact ⟨rfl, rfl, rfl, rfl, rfl, rfl, rfl, rfl⟩

/-- VALID = 1 only after a commit, which publishes the staging copy and the working position. -/
theorem Leaves.of_valid (h : Leaves w s r eng t) (hv : t.status.valid = true) :
    r.phase = .commit ∧ t.results = r.staged ∧ t.pos = BitVec.ofNat 32 r.pos ∧ t.draws = s.draws := by
  cases h with
  | running => cases hv
  | committed hp => exact ⟨hp, rfl, rfl, rfl⟩
  | aborted => unfold abortRun at hv; split at hv <;> cases hv

theorem Leaves.results_of_not_valid (h : Leaves w s r eng t) (hv : t.status.valid = false) : t.results = s.results := by
  cases h with
  | running => rfl
  | committed => cases hv
  | aborted => exact abortRun_results _ _ _

/-- A command that has issued no request has left the Engine alone. -/
theorem Underway.engine_eq (h : Underway w s r eng) (hreqs : r.reqs = 0) : eng = s.engine := by
  obtain ⟨a, q, ha, hq, hlen, hcount⟩ := h.answered
  obtain rfl : q = [] := List.eq_nil_of_length_eq_zero (hcount.symm.trans hreqs)
  obtain rfl : a = [] := List.eq_nil_of_length_eq_zero hlen
  obtain ⟨answers, requests⟩ := eng
  rw [List.nil_append] at ha
  rw [List.append_nil] at hq
  obtain rfl : requests = s.engine.requests := hq
  obtain rfl : s.engine.answers = answers := ha
  rfl

/-- POS after a commit has advanced by what BITS holds (R29). -/
theorem Underway.pos_eq_add_bits (h : Underway w s r eng) :
    (BitVec.ofNat 32 r.pos).toNat = s.pos.toNat + (BitVec.ofNat 32 (r.pos - r.posStart.toNat)).toNat := by
  have hge := h.pos_ge
  have hle : r.pos ≤ max s.pos.toNat (2 ^ 32 - 1) := h.pos_le
  have hlt : r.pos < 2 ^ 32 := by have := s.pos.isLt; omega
  rw [h.posStart, BitVec.toNat_ofNat, BitVec.toNat_ofNat, Nat.mod_eq_of_lt hlt, Nat.mod_eq_of_lt (by omega)]
  omega

end

/-! ### How many Core steps a bitstream command has still to go -/

/-- A bound on the Core steps from a phase to the end of a command that reads bits (R94, R114). -/
def stepsLeft : Phase → Nat
  | .check _ => 2000
  | .bit (.egZeros _ zeros) => 100 + (32 - zeros)
  | .bit (.egSuffix _ _ left _) => 2 + left
  | .bit .teBit => 2
  | .bit (.coeffToken code) => 1500 + (16 - code.length)
  | .bit (.trailingOne i _) => 400 + (16 - i) * 64
  | .bit (.levelZeros i _ zeros) => 400 + (15 - i) * 64 + 30 + (32 - zeros)
  | .bit (.levelSuffix i _ _ left _) => 400 + (15 - i) * 64 + left
  | .bit (.totalZeros code) => 300 + (9 - code.length)
  | .bit (.runBefore i _ code) => 40 + (15 - i) * 12 + (11 - code.length)
  | .bin _ => 0
  | .place left _ => 2 + left
  | .commit => 1
  | .abort _ => 1

/-- What is true throughout a command that reads bits: it issues no request, and every step leaves fewer to go. -/
structure BitCommand (P : Run → Prop) : Prop where
  advances : ∀ rule r r', P r → Advances rule r r' → P r' ∧ stepsLeft r'.phase < stepsLeft r.phase
  reqs : ∀ r, P r → r.reqs = 0
  not_bin : ∀ r p, P r → r.phase ≠ .bin p

/-- What a command that reads bits leaves, `r` being the internal state it ended with. -/
structure LeavesBits (w : Word) (s : State) (r : Run) (t : State) : Prop where
  cmd : t.cmd = w
  arg : t.arg = s.arg
  dropped : t.status.dropped = false
  bits : t.bits = s.bits
  engine : t.engine = s.engine
  cbfRule : t.cbfRule = s.cbfRule
  reads : t.reads = s.reads
  inbox : t.inbox = s.inbox
  run : t.run = none
  cmd_run : r.cmd = w
  committed : t.status.valid = true → r.phase = .commit ∧ t.results = r.staged
    ∧ t.pos.toNat = s.pos.toNat + (BitVec.ofNat 32 (r.pos - r.posStart.toNat)).toNat ∧ t.draws = s.draws
  aborted : t.status.valid = false → t.results = s.results

theorem exec_leavesBits {s t : State} {i : Instr} (hidle : s.run = none) (ht : exec i s = .next t) {P : Run → Prop}
    (hP : BitCommand P) (hstart : P (freshRun (encode i) (some i) s)) :
    ∃ r, P r ∧ LeavesBits (encode i) s r t := by
  obtain ⟨r, eng, hr, hunder, hleaves⟩ :=
    exec_leaves hidle ht (fun r r' h hadv => (hP.advances s.cbfRule r r' h hadv).1) hstart
  have hends := exec_ends hidle ht (hP.advances s.cbfRule) hP.not_bin hstart (show 2000 < 4865 by decide)
  obtain ⟨hcmd, harg, hdropped, hbits, heng, hrule, hreads, hinbox⟩ := hleaves.frame
  refine ⟨r, hr, hcmd, harg, hdropped, hbits, heng.trans (hunder.engine_eq (hP.reqs r hr)), hrule, hreads, hinbox, hends,
    hunder.cmd, fun hv => ?_, hleaves.results_of_not_valid⟩
  obtain ⟨hp, hresults, hpos, hdraws⟩ := hleaves.of_valid hv
  exact ⟨hp, hresults, by rw [hpos, hunder.pos_eq_add_bits], hdraws⟩

theorem countZero_eq_some {zeros z : Nat} (h : countZero zeros = some z) : z = zeros + 1 ∧ zeros + 1 ≤ 31 := by
  unfold countZero at h
  split at h
  · cases h
  · rename_i hle
    exact ⟨(Option.some.inj h).symm, Nat.le_of_not_lt hle⟩

/-! ### The four reads (R89 to R94) -/

/-- One of the four Exp-Golomb reads. -/
abbrev IsRead (i : Instr) : Prop := i = .readUe ∨ i = .readSe ∨ i = .readTe ∨ i = .readCe

/-- What is true of a running read in this phase: nothing is staged before VALUE and BITS are. -/
def ReadAt (r : Run) : Phase → Prop
  | .check c => r.staged = Results.zero ∧ ∃ i, c = some i ∧ IsRead i
  | .bit (.egZeros _ zeros) => r.staged = Results.zero ∧ zeros ≤ 31
  | .bit (.egSuffix _ _ left _) => r.staged = Results.zero ∧ left ≤ 31
  | .bit .teBit => r.staged = Results.zero
  | .bit _ => False
  | .bin _ => False
  | .place _ _ => False
  | .commit => r.staged
      = { Results.zero with value := r.staged.value, bits := BitVec.ofNat 32 (r.pos - r.posStart.toNat) }
  | .abort _ => True

/-- A running read. -/
def ReadInv (r : Run) : Prop := r.reqs = 0 ∧ ReadAt r r.phase

/-- A running read that has fewer than `n` steps to go. -/
def ReadRun (n : Nat) (r : Run) : Prop := ReadInv r ∧ stepsLeft r.phase < n

section
variable {n : Nat} {r : Run}

theorem readRun_raise (hreqs : r.reqs = 0) (e : ErrorKind) (hn : 1 < n) : ReadRun n (r.raise e) := ⟨⟨hreqs, trivial⟩, hn⟩

/-- VALUE and BITS are staged. -/
theorem readRun_finish (hreqs : r.reqs = 0) (hS : r.staged = Results.zero) (v : Word) (hn : 1 < n) :
    ReadRun n (r.stage fun S => { S with value := v }).finishBits := by
  refine ⟨⟨hreqs, ?_⟩, hn⟩
  show ({ r.staged with value := v, bits := _ } : Results) = _
  rw [hS]
  rfl

theorem readRun_afterEgZeros (hreqs : r.reqs = 0) (hS : r.staged = Results.zero) {kind : EgKind} {zeros : Nat}
    (hz : zeros ≤ 31) (b : Bool) : ReadRun (100 + (32 - zeros)) (afterEgZeros kind zeros b r) := by
  unfold afterEgZeros
  split
  · split
    · exact readRun_finish hreqs hS _ (by omega)
    · exact ⟨⟨hreqs, ⟨hS, hz⟩⟩, show 2 + zeros < _ by omega⟩
  · split
    · exact readRun_raise hreqs _ (by omega)
    · rename_i z hcount
      obtain ⟨rfl, hle⟩ := countZero_eq_some hcount
      exact ⟨⟨hreqs, ⟨hS, hle⟩⟩, show 100 + (32 - (zeros + 1)) < _ by omega⟩

theorem readRun_afterEgSuffix (hreqs : r.reqs = 0) (hS : r.staged = Results.zero) {kind : EgKind} {zeros left acc : Nat}
    (hleft : left ≤ 31) (b : Bool) : ReadRun (2 + left) (afterEgSuffix kind zeros left acc b r) := by
  unfold afterEgSuffix
  split
  · exact readRun_finish hreqs hS _ (by omega)
  · exact ⟨⟨hreqs, ⟨hS, show left - 1 ≤ 31 by omega⟩⟩, show 2 + (left - 1) < _ by omega⟩

theorem readRun_checkCommand (hreqs : r.reqs = 0) (hS : r.staged = Results.zero) {i : Instr} (hi : IsRead i) (rule : CbfRule) :
    ReadRun 2000 (checkCommand rule (some i) r) := by
  have hzeros : ∀ kind, ReadRun 2000 (r.goto (.bit (.egZeros kind 0))) := fun kind =>
    ⟨⟨hreqs, ⟨hS, Nat.zero_le _⟩⟩, show 100 + 32 < 2000 by decide⟩
  rw [checkCommand]
  split
  · rcases hi with rfl | rfl | rfl | rfl
    · exact hzeros .ue
    · exact hzeros .se
    · show ReadRun 2000 (beginReadTe r)
      unfold beginReadTe
      split
      · exact ⟨⟨hreqs, hS⟩, show 2 < 2000 by decide⟩
      · exact hzeros .te
    · exact hzeros .ce
  · exact readRun_raise hreqs _ (by decide)

/-- Each step of a read keeps `ReadInv`, with fewer steps to go. -/
theorem readInv_advances {rule : CbfRule} {r' : Run} (h : ReadInv r) (hadv : Advances rule r r') :
    ReadRun (stepsLeft r.phase) r' := by
  obtain ⟨hreqs, hat⟩ := h
  cases hadv with
  | check hp =>
    rw [hp] at hat ⊢
    obtain ⟨hS, i, rfl, hi⟩ := hat
    exact readRun_checkCommand hreqs hS hi rule
  | @bit p hp b =>
    rw [hp] at hat ⊢
    cases p with
    | egZeros kind zeros => exact readRun_afterEgZeros (r := { r with pos := r.pos + 1 }) hreqs hat.1 hat.2 b
    | egSuffix kind zeros left acc => exact readRun_afterEgSuffix (r := { r with pos := r.pos + 1 }) hreqs hat.1 hat.2 b
    | teBit => exact readRun_finish (r := { r with pos := r.pos + 1 }) hreqs hat _ (by decide)
    | coeffToken | trailingOne | levelZeros | levelSuffix | totalZeros | runBefore => exact absurd hat id
  | @endOfStream p hp =>
    rw [hp] at hat ⊢
    refine readRun_raise hreqs _ ?_
    cases p with
    | egZeros kind zeros => show 1 < 100 + (32 - zeros); omega
    | egSuffix kind zeros left acc => show 1 < 2 + left; omega
    | teBit => show 1 < 2; omega
    | coeffToken | trailingOne | levelZeros | levelSuffix | totalZeros | runBefore => exact absurd hat id
  | bin hp => rw [hp] at hat; exact absurd hat id
  | exhausted hp => rw [hp] at hat; exact absurd hat id
  | place hp => rw [hp] at hat; exact absurd hat id

end

theorem readInv_bitCommand : BitCommand ReadInv where
  advances _ _ _ h hadv := readInv_advances h hadv
  reqs _ h := h.1
  not_bin r p h hp := by
    obtain ⟨-, hat⟩ := h
    rw [hp] at hat
    exact hat

/-- Settles O38: a read issues no request, commits VALUE and BITS alone, and ends. -/
theorem readFrame : Obligations.ReadFrame := by
  intro s t i hidle _ hread ht
  obtain ⟨r, ⟨-, hat⟩, hleaves⟩ := exec_leavesBits hidle ht readInv_bitCommand ⟨rfl, rfl, i, rfl, hread⟩
  refine ⟨hleaves.cmd, hleaves.arg, hleaves.dropped, fun p => by rw [hleaves.bits], by rw [hleaves.bits], hleaves.engine,
    hleaves.cbfRule, hleaves.reads, hleaves.inbox, hleaves.run, fun hv => ?_, hleaves.aborted⟩
  obtain ⟨hp, hresults, hpos, hdraws⟩ := hleaves.committed hv
  rw [hp] at hat
  have hstaged : r.staged.bits = BitVec.ofNat 32 (r.pos - r.posStart.toNat) := congrArg Results.bits hat
  rw [hresults, hpos, hstaged]
  exact ⟨hat, rfl, hdraws⟩

/-! ### Register arrays entry by entry -/

theorem getD_eq_toList {n : Nat} (v : Vector Word n) (j : Nat) : v.getD j 0 = v.toList.getD j 0 := by
  simp [Vector.getD, Vector.toList, Array.getD_eq_getD_getElem?]

theorem getD_setIfInBounds {n : Nat} (v : Vector Word n) {i : Nat} (hi : i < n) (w : Word) (j : Nat) :
    (v.setIfInBounds i w).getD j 0 = if j = i then w else v.getD j 0 := by
  have hlen : i < v.toList.length := by rwa [Vector.length_toList]
  rw [getD_eq_toList, getD_eq_toList, Vector.toList_setIfInBounds, List.getD_eq_getElem?_getD, List.getD_eq_getElem?_getD,
    List.getElem?_set]
  by_cases h : j = i
  · rw [if_pos h.symm, if_pos h, if_pos hlen]
    rfl
  · rw [if_neg (Ne.symm h), if_neg h]

theorem getD_replicate_zero {n : Nat} (j : Nat) : (Vector.replicate n (0 : Word)).getD j 0 = 0 := by
  rw [getD_eq_toList, Vector.toList_replicate, List.getD_eq_getElem?_getD, List.getElem?_replicate]
  split <;> rfl

/-- The number of non-zero entries. -/
def countNonzero {n : Nat} (v : Vector Word n) : Nat := (v.toList.filter fun c => c ≠ 0).length

theorem countNonzero_replicate_zero {n : Nat} : countNonzero (Vector.replicate n (0 : Word)) = 0 := by
  rw [countNonzero, Vector.toList_replicate, List.filter_replicate]
  rfl

/-- A non-zero entry written over a zero one counts one more. -/
theorem countNonzero_set {n : Nat} (v : Vector Word n) {i : Nat} (hi : i < n) (hv : v.getD i 0 = 0) {w : Word} (hw : w ≠ 0) :
    countNonzero (v.setIfInBounds i w) = countNonzero v + 1 := by
  have hlen : i < v.toList.length := by rwa [Vector.length_toList]
  have hold : v.toList[i] = 0 := by
    rw [getD_eq_toList, List.getD_eq_getElem _ _ hlen] at hv
    exact hv
  rw [countNonzero, countNonzero, Vector.toList_setIfInBounds, ← List.countP_eq_length_filter,
    ← List.countP_eq_length_filter, List.countP_set hlen, hold, if_neg (by simp), if_pos (by simpa using hw)]
  rfl

theorem sum_map_toNat (l : List Word) : (l.map BitVec.toNat).sum = ∑ j ∈ Finset.range l.length, (l.getD j 0).toNat := by
  induction l with
  | nil => rfl
  | cons w l ih =>
    rw [List.map_cons, List.sum_cons, List.length_cons, Finset.sum_range_succ', ih, Nat.add_comm]
    rfl

/-- The sum of an array's entries, of which those from `k` on are 0. -/
theorem sum_toList {n : Nat} (v : Vector Word n) {k : Nat} (hk : k ≤ n) (hzero : ∀ j, k ≤ j → v.getD j 0 = 0) :
    (v.toList.map BitVec.toNat).sum = ∑ j ∈ Finset.range k, (v.getD j 0).toNat := by
  rw [sum_map_toNat, Vector.length_toList]
  simp only [← getD_eq_toList]
  refine (Finset.sum_subset (Finset.range_mono hk) fun j _ hj => ?_).symm
  rw [hzero j (by simpa using hj)]
  rfl

/-- A signed value that fits 32 bits and is not 0 is a non-zero word (R8). -/
theorem ofInt_ne_zero {z : Int} (hne : z ≠ 0) (hlo : -2 ^ 31 ≤ z) (hhi : z < 2 ^ 31) : (BitVec.ofInt 32 z : Word) ≠ 0 := by
  intro h
  have hz : (z % (2 ^ 32 : Nat)).toNat = 0 := by
    rw [← BitVec.toNat_ofInt, h]
    rfl
  omega

/-- The block's last position is a 6-bit field (R63). -/
theorem Run.stop_lt (r : Run) : r.block.stop < 64 := (fieldEnd r.cmd).isLt

/-! ### CAVLC_BLOCK, phase by phase (R95 to R113): what is true of the block `b` and the staging copy `S` -/

/-- The registers that only CABAC_BLOCK writes are staged as 0 (R112). -/
structure CavlcQuiet (S : Results) : Prop where
  cbf : S.cbf = 0
  reqs : S.reqs = 0
  sigmap : S.sigmap = 0
  lastmap : S.lastmap = 0
  signmap : S.signmap = 0
  abslm1 : S.abslm1 = Vector.replicate 64 0

/-- TC and T1 are staged, and TC is at least 1 and fits the span (R97, R98). -/
structure TokenRead (b : BlockAddress) (S : Results) : Prop extends CavlcQuiet S where
  stop_lt : b.stop < 64
  tc_pos : 0 < S.totalcoeff.toNat
  tc_le : S.totalcoeff.toNat ≤ 16
  tc_le_count : S.totalcoeff.toNat ≤ b.stop + 1 - b.start
  t1_le : S.trailingones.toNat ≤ min S.totalcoeff.toNat 3

/-- The levels of the coefficients below `i` are staged (R100 to R105), and no run or coefficient yet. -/
structure LevelsRead (b : BlockAddress) (S : Results) (i : Nat) : Prop extends TokenRead b S where
  level : ∀ j < i, S.level.getD j 0 ≠ 0
  run : S.run = Vector.replicate 16 0
  coef : S.coef = Vector.replicate 64 0

/-- All levels and TZ are staged, and TZ fits the span (R108). -/
structure ZerosRead (b : BlockAddress) (S : Results) : Prop extends TokenRead b S where
  level : ∀ j < S.totalcoeff.toNat, S.level.getD j 0 ≠ 0
  fits : S.totalzeros.toNat + S.totalcoeff.toNat ≤ b.stop + 1 - b.start

/-- The runs of the coefficients below `i` are staged, and leave `zerosLeft` of the TZ zeros (R109). -/
structure RunsRead (b : BlockAddress) (S : Results) (i zerosLeft : Nat) : Prop extends ZerosRead b S where
  run_sum : ∑ j ∈ Finset.range i, (S.run.getD j 0).toNat + zerosLeft = S.totalzeros.toNat
  run_zero : ∀ j, i ≤ j → S.run.getD j 0 = 0
  coef : S.coef = Vector.replicate 64 0

/-- The coefficients from `left` on are placed, in the first `n` positions of the span (R111). -/
structure Placed (b : BlockAddress) (S : Results) (left n : Nat) : Prop extends ZerosRead b S where
  run_sum : ∑ j ∈ Finset.range S.totalcoeff.toNat, (S.run.getD j 0).toNat = S.totalzeros.toNat
  run_zero : ∀ j, S.totalcoeff.toNat ≤ j → S.run.getD j 0 = 0
  left_le : left ≤ S.totalcoeff.toNat
  used : n + ∑ j ∈ Finset.range left, ((S.run.getD j 0).toNat + 1) = S.totalzeros.toNat + S.totalcoeff.toNat
  within : ∀ j, S.coef.getD j 0 ≠ 0 → b.start ≤ j ∧ j < b.start + n
  counted : countNonzero S.coef + left = S.totalcoeff.toNat
  top : left < S.totalcoeff.toNat → 0 < n ∧ S.coef.getD (b.start + n - 1) 0 = S.level.getD left 0

/-- What R113 guarantees, of the staging copy that is about to be committed. -/
structure CavlcComplete (b : BlockAddress) (S : Results) : Prop extends CavlcQuiet S where
  t1_le : S.trailingones.toNat ≤ min S.totalcoeff.toNat 3
  counted : countNonzero S.coef = S.totalcoeff.toNat
  within : ∀ j, S.coef.getD j 0 ≠ 0 → b.start ≤ j ∧ j ≤ S.lastpos.toNat ∧ S.lastpos.toNat ≤ b.stop
  fits : S.totalzeros.toNat + S.totalcoeff.toNat ≤ b.stop + 1 - b.start
  run_sum : (S.run.toList.map BitVec.toNat).sum = S.totalzeros.toNat
  top : 0 < S.totalcoeff.toNat → S.lastpos.toNat = b.start + S.totalzeros.toNat + S.totalcoeff.toNat - 1
    ∧ S.coef.getD S.lastpos.toNat 0 = S.level.getD 0 0

section
variable {b : BlockAddress} {S : Results}

/-- A change of the registers but TC, T1 and those of `CavlcQuiet`. -/
theorem TokenRead.stage {S' : Results} (h : TokenRead b S)
    (hS : S' = { S with
      value := S'.value, totalzeros := S'.totalzeros, lastpos := S'.lastpos, t1signs := S'.t1signs, bits := S'.bits
      rbmask := S'.rbmask, level := S'.level, run := S'.run, levelprefix := S'.levelprefix
      levelsuffix := S'.levelsuffix, runbefore := S'.runbefore, coef := S'.coef }) : TokenRead b S' := by
  rw [hS]
  exact ⟨⟨h.cbf, h.reqs, h.sigmap, h.lastmap, h.signmap, h.abslm1⟩, h.stop_lt, h.tc_pos, h.tc_le, h.tc_le_count, h.t1_le⟩

/-! ### Placement (R111, R112) -/

/-- One coefficient more is placed, at an entry above all placed so far. -/
theorem Placed.place {i n : Nat} (h : Placed b S (i + 1) n) :
    Placed b { S with coef := S.coef.setIfInBounds (b.start + (n + (S.run.getD i 0).toNat)) (S.level.getD i 0) } i
      (n + (S.run.getD i 0).toNat + 1) := by
  have hused := h.used
  rw [Finset.sum_range_succ] at hused
  have hleft := h.left_le
  have hfits := h.fits
  have hstop := h.stop_lt
  have hindex : b.start + (n + (S.run.getD i 0).toNat) < 64 := by omega
  have hfree : S.coef.getD (b.start + (n + (S.run.getD i 0).toNat)) 0 = 0 := by
    by_contra hne
    have := (h.within _ hne).2
    omega
  have hcount := countNonzero_set _ hindex hfree (h.level i (by omega))
  refine ⟨⟨h.toTokenRead.stage rfl, h.level, hfits⟩, h.run_sum, h.run_zero, Nat.le_of_succ_le hleft, ?_, fun j hj => ?_, ?_, fun _ => ⟨Nat.succ_pos _, ?_⟩⟩
  · dsimp only
    omega
  · dsimp only at hj
    rw [getD_setIfInBounds _ hindex] at hj
    split at hj
    · omega
    · have := h.within j hj
      omega
  · have hold := h.counted
    dsimp only
    omega
  · dsimp only
    rw [getD_setIfInBounds _ hindex, if_pos (by omega)]

/-- All coefficients are placed: LASTPOS is the highest of their positions (R27). -/
theorem Placed.complete {n : Nat} (h : Placed b S 0 n) (bits : Word) :
    CavlcComplete b { S with lastpos := BitVec.ofInt 32 (b.start + ((n : Int) - 1)), bits := bits } := by
  obtain ⟨hn, htop⟩ := h.top h.tc_pos
  have hfits := h.fits
  have hused : n = S.totalzeros.toNat + S.totalcoeff.toNat := h.used
  have hstop := h.stop_lt
  have hlast : (BitVec.ofInt 32 (b.start + ((n : Int) - 1)) : Word).toNat = b.start + n - 1 := by
    rw [show (b.start : Int) + ((n : Int) - 1) = ((b.start + n - 1 : Nat) : Int) by omega, BitVec.ofInt_natCast,
      BitVec.toNat_ofNat]
    omega
  refine ⟨⟨h.cbf, h.reqs, h.sigmap, h.lastmap, h.signmap, h.abslm1⟩, h.t1_le, h.counted, fun j hj => ?_, hfits,
    (sum_toList _ h.tc_le h.run_zero).trans h.run_sum, fun _ => ?_⟩
  · have := h.within j hj
    dsimp only
    omega
  · dsimp only
    rw [hlast]
    exact ⟨by omega, htop⟩

/-! ### Runs (R109, R110) -/

/-- With no zeros left the remaining runs are 0, as staged. -/
theorem RunsRead.skip {i j : Nat} (h : RunsRead b S i 0) (hij : i ≤ j) : RunsRead b S j 0 := by
  refine ⟨h.toZerosRead, ?_, fun k hk => h.run_zero k (hij.trans hk), h.coef⟩
  rw [← h.run_sum, ← Finset.sum_subset (Finset.range_mono hij) fun k _ hk => ?_]
  rw [h.run_zero k (by simpa using hk)]
  rfl

/-- The run of coefficient `i` is staged. -/
theorem RunsRead.stage_run {i zl rb : Nat} (h : RunsRead b S i zl) (hi : i < 16) (hrb : rb ≤ zl) :
    RunsRead b { S with run := S.run.setIfInBounds i (BitVec.ofNat 32 rb) } (i + 1) (zl - rb) := by
  have hsum := h.run_sum
  have hword : (BitVec.ofNat 32 rb : Word).toNat = rb := Nat.mod_eq_of_lt (by have := S.totalzeros.isLt; omega)
  have hbelow : ∀ j ∈ Finset.range i,
      ((S.run.setIfInBounds i (BitVec.ofNat 32 rb)).getD j 0).toNat = (S.run.getD j 0).toNat := fun j hj => by
    rw [getD_setIfInBounds _ hi, if_neg (Nat.ne_of_lt (Finset.mem_range.1 hj))]
  refine ⟨⟨h.toTokenRead.stage rfl, h.level, h.fits⟩, ?_, fun j hj => ?_, h.coef⟩
  · dsimp only
    rw [Finset.sum_range_succ, Finset.sum_congr rfl hbelow, getD_setIfInBounds _ hi, if_pos rfl, hword]
    omega
  · dsimp only
    rw [getD_setIfInBounds _ hi, if_neg (by omega)]
    exact h.run_zero j (by omega)

/-- All runs are known, and placement begins. -/
theorem RunsRead.placed (h : RunsRead b S S.totalcoeff.toNat 0) : Placed b S S.totalcoeff.toNat 0 := by
  refine ⟨h.toZerosRead, h.run_sum, h.run_zero, le_rfl, ?_, fun j hj => ?_, ?_, fun hlt => absurd hlt (lt_irrefl _)⟩
  · have hsum := h.run_sum
    rw [Finset.sum_add_distrib, Finset.sum_const, Finset.card_range, smul_eq_mul]
    omega
  · rw [h.coef] at hj
    exact absurd (getD_replicate_zero j) hj
  · rw [h.coef, countNonzero_replicate_zero, Nat.zero_add]

/-- The code of a run_before is staged beside its run (R36). -/
theorem RunsRead.stage_code {i zl : Nat} (h : RunsRead b S i zl) (m : Word) (v : Vector Word 16) :
    RunsRead b { S with rbmask := m, runbefore := v } i zl :=
  ⟨⟨h.toTokenRead.stage rfl, h.level, h.fits⟩, h.run_sum, h.run_zero, h.coef⟩

/-- TZ is staged, and no run yet. -/
theorem LevelsRead.stage_zeros (h : LevelsRead b S S.totalcoeff.toNat) {tz : Nat}
    (htz : tz ≤ b.stop + 1 - b.start - S.totalcoeff.toNat) :
    RunsRead b { S with totalzeros := BitVec.ofNat 32 tz } 0 tz := by
  have hstop := h.stop_lt
  have hcount := h.tc_le_count
  have hword : (BitVec.ofNat 32 tz : Word).toNat = tz := Nat.mod_eq_of_lt (by omega)
  refine ⟨⟨h.toTokenRead.stage rfl, h.level, ?_⟩, ?_, fun j _ => ?_, h.coef⟩
  · dsimp only
    omega
  · dsimp only
    rw [Finset.sum_range_zero, hword, Nat.zero_add]
  · dsimp only
    rw [h.run, getD_replicate_zero]

/-! ### Levels (R99 to R106) -/

/-- One level more is staged. -/
theorem LevelsRead.stage_level {i : Nat} (h : LevelsRead b S i) (hi : i < 16) {v : Word} (hv : v ≠ 0) (signs : Word)
    (suffixes : Vector Word 16) :
    LevelsRead b { S with t1signs := signs, levelsuffix := suffixes, level := S.level.setIfInBounds i v } (i + 1) := by
  refine ⟨h.toTokenRead.stage rfl, fun j hj => ?_, h.run, h.coef⟩
  dsimp only
  rw [getD_setIfInBounds _ hi]
  split
  · exact hv
  · exact h.level j (by omega)

theorem LevelsRead.stage_prefix {i : Nat} (h : LevelsRead b S i) (v : Vector Word 16) :
    LevelsRead b { S with levelprefix := v } i :=
  ⟨h.toTokenRead.stage rfl, h.level, h.run, h.coef⟩

end

/-- levelCode is never negative and stays far below 2^31 (R103, R106). -/
theorem levelCode_range {p sl suf : Nat} (hp : p ≤ 31) (hsl : sl ≤ 6) (hsuf : suf < 2 ^ 28) (first : Bool) :
    0 ≤ levelCode p sl suf first ∧ levelCode p sl suf first < 2 ^ 30 := by
  have hprefix : min 15 p * 2 ^ sl ≤ 15 * 2 ^ 6 := Nat.mul_le_mul (min_le_left _ _) (Nat.pow_le_pow_right (by decide) hsl)
  have hcast : ((min 15 p : Nat) : Int) * 2 ^ sl = ((min 15 p * 2 ^ sl : Nat) : Int) := by push_cast; rfl
  have hescape : (0 : Int) ≤ (if p ≥ 16 then 2 ^ (p - 3) - 4096 else 0)
      ∧ (if p ≥ 16 then (2 : Int) ^ (p - 3) - 4096 else 0) ≤ 2 ^ 28 := by
    split
    · have hlo : (2 : Int) ^ 13 ≤ 2 ^ (p - 3) := pow_le_pow_right₀ (by decide) (by omega)
      have hhi : (2 : Int) ^ (p - 3) ≤ 2 ^ 28 := pow_le_pow_right₀ (by decide) (by omega)
      omega
    · decide
  unfold levelCode
  rw [hcast]
  split <;> split <;> omega

/-- A level is never 0 (R104, R106). -/
theorem levelWord_ne_zero {code : Int} (hlo : 0 ≤ code) (hhi : code < 2 ^ 30) : (BitVec.ofInt 32 (levelOf code) : Word) ≠ 0 := by
  unfold levelOf
  split <;> exact ofInt_ne_zero (by omega) (by omega) (by omega)

/-! ### A running CAVLC_BLOCK -/

/-- What is true of a running CAVLC_BLOCK in this phase. -/
def CavlcAt (r : Run) : Phase → Prop
  | .check c => r.staged = Results.zero ∧ ∃ start stop maxc btype, c = some (.cavlcBlock start stop maxc btype)
  | .bit (.coeffToken _) => r.staged = Results.zero
  | .bit (.trailingOne i sl) => LevelsRead r.block r.staged i ∧ i < r.tc ∧ sl ≤ 6
  | .bit (.levelZeros i sl zeros) => LevelsRead r.block r.staged i ∧ i < r.tc ∧ sl ≤ 6 ∧ zeros ≤ 31
  | .bit (.levelSuffix i sl zeros left acc) =>
    LevelsRead r.block r.staged i ∧ i < r.tc ∧ sl ≤ 6 ∧ zeros ≤ 31 ∧ 0 < left ∧ (acc + 1) * 2 ^ left ≤ 2 ^ 28
  | .bit (.totalZeros _) => LevelsRead r.block r.staged r.tc
  | .bit (.runBefore i zerosLeft _) => RunsRead r.block r.staged i zerosLeft ∧ i + 1 < r.tc
  | .bit _ => False
  | .bin _ => False
  | .place left c => ∃ n : Nat, c = (n : Int) - 1 ∧ Placed r.block r.staged left n
  | .commit => CavlcComplete r.block r.staged ∧ r.staged.bits = BitVec.ofNat 32 (r.pos - r.posStart.toNat)
  | .abort _ => True

/-- A running CAVLC_BLOCK, which issues no request. -/
def CavlcInv (r : Run) : Prop := r.reqs = 0 ∧ CavlcAt r r.phase

/-- A running CAVLC_BLOCK that has fewer than `n` steps to go. -/
def CavlcRun (n : Nat) (r : Run) : Prop := CavlcInv r ∧ stepsLeft r.phase < n

/-- A code that is not complete is shorter than the longest of its table. -/
theorem readVlc_more_length {α : Type} {t : Tables.Vlc α} {acc : List Bool} {b : Bool} {n : Nat}
    (h : readVlc t (acc ++ [b]) = .more) (hn : ∀ e ∈ t, e.1.length ≤ n) : acc.length + 1 < n := by
  obtain ⟨e, he, hpre, hne⟩ := readVlc_more_iff h
  have hlt : (acc ++ [b]).length < e.1.length := by
    refine lt_of_le_of_ne hpre.length_le fun heq => hne (hpre.eq_of_length heq).symm
  have := hn e he
  rw [List.length_append, List.length_singleton] at hlt
  omega

/-- An entry of the running command's coeff_token column (R78, R79). -/
theorem mem_tokenTable {r : Run} {e : List Bool × Nat × Nat} (h : e ∈ r.tokenTable) : ∃ c, e ∈ Tables.coeffToken c := by
  unfold Run.tokenTable at h
  split at h
  · exact ⟨_, h⟩
  · cases h

section
variable {r : Run}

theorem cavlcRun_raise {n : Nat} (hreqs : r.reqs = 0) (e : ErrorKind) (hn : 1 < n) : CavlcRun n (r.raise e) :=
  ⟨⟨hreqs, trivial⟩, hn⟩

theorem cavlcRun_placeStep (hreqs : r.reqs = 0) {left n : Nat} (h : Placed r.block r.staged left n) :
    CavlcRun (2 + left) (placeStep left ((n : Int) - 1) r) := by
  cases left with
  | zero => exact ⟨⟨hreqs, h.complete _, rfl⟩, show 1 < 2 by decide⟩
  | succ i =>
    have hindex : (r.block.start + ((n : Int) - 1 + (r.staged.run.getD i 0).toNat + 1)).toNat
        = r.block.start + (n + (r.staged.run.getD i 0).toNat) := by omega
    unfold placeStep
    dsimp only
    rw [hindex]
    refine ⟨⟨hreqs, n + (r.staged.run.getD i 0).toNat + 1, ?_, h.place⟩, show 2 + i < 2 + (i + 1) by omega⟩
    push_cast
    omega

theorem cavlcRun_nextRun {n i zl : Nat} (hreqs : r.reqs = 0) (h : RunsRead r.block r.staged i zl) (hi : i < r.tc)
    (hn : 40 + (15 - i) * 12 + 12 ≤ n) : CavlcRun n (nextRun i zl r) := by
  unfold nextRun
  split
  · rename_i hmore
    exact ⟨⟨hreqs, h, hmore.1⟩, show 40 + (15 - i) * 12 + (11 - 0) < _ by omega⟩
  · rename_i hlast
    have htc : r.tc ≤ 16 := h.tc_le
    have hall : RunsRead r.block r.staged (r.tc - 1) zl := by
      rcases Nat.eq_zero_or_pos zl with rfl | hpos
      · exact h.skip (by omega)
      · rwa [show r.tc - 1 = i by omega]
    have hstaged := hall.stage_run (by omega) le_rfl
    rw [Nat.sub_self, Nat.sub_add_cancel (by omega)] at hstaged
    exact ⟨⟨hreqs, 0, rfl, hstaged.placed⟩, show 2 + r.tc < _ by omega⟩

theorem cavlcRun_afterRunBefore (hreqs : r.reqs = 0) {i zl : Nat} (h : RunsRead r.block r.staged i zl) (hi : i + 1 < r.tc)
    (code : List Bool) (b : Bool) :
    CavlcRun (40 + (15 - i) * 12 + (11 - code.length)) (afterRunBefore i zl code b r) := by
  have htc : r.tc ≤ 16 := h.tc_le
  unfold afterRunBefore
  split
  · rename_i hmore
    have hlen := readVlc_more_length hmore (runBefore_code_length zl)
    refine ⟨⟨hreqs, h, hi⟩, ?_⟩
    show 40 + (15 - i) * 12 + (11 - (code ++ [b]).length) < _
    rw [List.length_append, List.length_singleton]
    omega
  · exact cavlcRun_raise hreqs _ (by omega)
  · rename_i rb _
    dsimp only
    split
    · exact cavlcRun_raise hreqs _ (by omega)
    · rename_i hrb
      have hstaged := (h.stage_code (putBit r.staged.rbmask i true)
        (r.staged.runbefore.setIfInBounds i (BitVec.ofNat 32 rb))).stage_run (i := i) (by omega) (Nat.le_of_not_lt hrb)
      exact cavlcRun_nextRun hreqs hstaged hi (by omega)

theorem cavlcRun_withTotalZeros {n : Nat} (hreqs : r.reqs = 0) (h : LevelsRead r.block r.staged r.tc) (tz : Nat)
    (hn : 300 ≤ n) : CavlcRun n (withTotalZeros tz r) := by
  unfold withTotalZeros
  split
  · exact cavlcRun_raise hreqs _ (by omega)
  · rename_i hroom
    exact cavlcRun_nextRun hreqs (h.stage_zeros (Nat.le_of_not_lt hroom)) h.tc_pos (by omega)

theorem cavlcRun_afterTotalZeros (hreqs : r.reqs = 0) (h : LevelsRead r.block r.staged r.tc) (code : List Bool) (b : Bool) :
    CavlcRun (300 + (9 - code.length)) (afterTotalZeros code b r) := by
  unfold afterTotalZeros
  split
  · rename_i hmore
    have hlen := readVlc_more_length hmore (totalZeros_code_length _ _)
    refine ⟨⟨hreqs, h⟩, ?_⟩
    show 300 + (9 - (code ++ [b]).length) < _
    rw [List.length_append, List.length_singleton]
    omega
  · exact cavlcRun_raise hreqs _ (by omega)
  · exact cavlcRun_withTotalZeros hreqs h _ (by omega)

theorem cavlcRun_nextLevel {n i sl : Nat} (hreqs : r.reqs = 0) (h : LevelsRead r.block r.staged i) (hi : i ≤ r.tc)
    (hsl : sl ≤ 6) (hn : 400 + (16 - i) * 64 + 1 ≤ n) : CavlcRun n (nextLevel i sl r) := by
  have htc : r.tc ≤ 16 := h.tc_le
  unfold nextLevel
  split
  · rename_i hlt
    split
    · exact ⟨⟨hreqs, h, hlt, hsl⟩, show 400 + (16 - i) * 64 < _ by omega⟩
    · exact ⟨⟨hreqs, h, hlt, hsl, Nat.zero_le _⟩, show 400 + (15 - i) * 64 + 30 + (32 - 0) < _ by omega⟩
  · rename_i hge
    obtain rfl : i = r.tc := by omega
    split
    · exact ⟨⟨hreqs, h⟩, show 300 + (9 - 0) < _ by omega⟩
    · exact cavlcRun_withTotalZeros hreqs h 0 (by omega)

theorem cavlcRun_afterTrailingOne (hreqs : r.reqs = 0) {i sl : Nat} (h : LevelsRead r.block r.staged i) (hi : i < r.tc)
    (hsl : sl ≤ 6) (b : Bool) : CavlcRun (400 + (16 - i) * 64) (afterTrailingOne i sl b r) := by
  have htc : r.tc ≤ 16 := h.tc_le
  have hsign : (BitVec.ofInt 32 (1 - 2 * (b.toNat : Int)) : Word) ≠ 0 := by cases b <;> decide
  have hstaged := h.stage_level (by omega) hsign (putBit r.staged.t1signs i b) r.staged.levelsuffix
  exact cavlcRun_nextLevel hreqs hstaged hi hsl (by omega)

theorem cavlcRun_levelDone {n i sl p suf : Nat} (hreqs : r.reqs = 0) (h : LevelsRead r.block r.staged i) (hi : i < r.tc)
    (hsl : sl ≤ 6) (hp : p ≤ 31) (hsuf : suf < 2 ^ 28) (hn : 400 + (15 - i) * 64 + 1 ≤ n) :
    CavlcRun n (levelDone i sl p suf r) := by
  have htc : r.tc ≤ 16 := h.tc_le
  obtain ⟨hlo, hhi⟩ := levelCode_range hp hsl hsuf (decide (i = r.t1 ∧ r.t1 < 3))
  have hstaged := h.stage_level (by omega) (levelWord_ne_zero hlo hhi) r.staged.t1signs
    (r.staged.levelsuffix.setIfInBounds i (BitVec.ofNat 32 suf))
  exact cavlcRun_nextLevel hreqs hstaged hi (nextSuffixLength_le hsl _) (by omega)

theorem cavlcRun_afterLevelZeros (hreqs : r.reqs = 0) {i sl zeros : Nat} (h : LevelsRead r.block r.staged i) (hi : i < r.tc)
    (hsl : sl ≤ 6) (hz : zeros ≤ 31) (b : Bool) :
    CavlcRun (400 + (15 - i) * 64 + 30 + (32 - zeros)) (afterLevelZeros i sl zeros b r) := by
  have hsize := levelSuffixSize_le hz hsl
  have hstaged := h.stage_prefix (r.staged.levelprefix.setIfInBounds i (BitVec.ofNat 32 zeros))
  unfold afterLevelZeros
  split
  · dsimp only
    split
    · exact cavlcRun_levelDone hreqs hstaged hi hsl hz (by decide) (by omega)
    · rename_i hne
      refine ⟨⟨hreqs, hstaged, hi, hsl, hz, Nat.pos_of_ne_zero hne, ?_⟩,
        show 400 + (15 - i) * 64 + levelSuffixSize zeros sl < _ by omega⟩
      rw [Nat.zero_add, Nat.one_mul]
      exact Nat.pow_le_pow_right (by decide) hsize
  · split
    · exact cavlcRun_raise hreqs _ (by omega)
    · rename_i z hcount
      obtain ⟨rfl, hle⟩ := countZero_eq_some hcount
      exact ⟨⟨hreqs, h, hi, hsl, hle⟩, show 400 + (15 - i) * 64 + 30 + (32 - (zeros + 1)) < _ by omega⟩

theorem cavlcRun_afterLevelSuffix (hreqs : r.reqs = 0) {i sl p left acc : Nat} (h : LevelsRead r.block r.staged i)
    (hi : i < r.tc) (hsl : sl ≤ 6) (hp : p ≤ 31) (hleft : 0 < left) (hacc : (acc + 1) * 2 ^ left ≤ 2 ^ 28) (b : Bool) :
    CavlcRun (400 + (15 - i) * 64 + left) (afterLevelSuffix i sl p left acc b r) := by
  have hshift : shiftIn acc b + 1 ≤ 2 * (acc + 1) := by
    unfold shiftIn
    cases b <;> simp
    omega
  obtain ⟨k, rfl⟩ : ∃ k, left = k + 1 := Nat.exists_eq_add_of_le' hleft
  have hnext : (shiftIn acc b + 1) * 2 ^ k ≤ 2 ^ 28 := by
    calc (shiftIn acc b + 1) * 2 ^ k ≤ 2 * (acc + 1) * 2 ^ k := Nat.mul_le_mul_right _ hshift
      _ = (acc + 1) * 2 ^ (k + 1) := by rw [Nat.pow_succ]; ring
      _ ≤ 2 ^ 28 := hacc
  unfold afterLevelSuffix
  split
  · rename_i hle
    obtain rfl : k = 0 := by omega
    exact cavlcRun_levelDone hreqs h hi hsl hp (by omega) (by omega)
  · exact ⟨⟨hreqs, h, hi, hsl, hp, show 0 < k + 1 - 1 by omega, hnext⟩,
      show 400 + (15 - i) * 64 + (k + 1 - 1) < _ by omega⟩

/-- TC and T1 are read: a block without coefficients is complete (R98). -/
theorem cavlcRun_withToken (hreqs : r.reqs = 0) (hS : r.staged = Results.zero) {n tc t1 : Nat} (ht1 : t1 ≤ min tc 3)
    (htc : tc ≤ 16) (hn : 1500 ≤ n) : CavlcRun n (withToken tc t1 r) := by
  have htcWord : (BitVec.ofNat 32 tc : Word).toNat = tc := Nat.mod_eq_of_lt (by omega)
  have ht1Word : (BitVec.ofNat 32 t1 : Word).toNat = t1 := Nat.mod_eq_of_lt (by omega)
  unfold withToken
  split
  · exact cavlcRun_raise hreqs _ (by omega)
  · rename_i hfits
    dsimp only
    split
    · rename_i h0
      subst h0
      obtain rfl : t1 = 0 := by omega
      refine ⟨⟨hreqs, ?_, rfl⟩, show 1 < n by omega⟩
      simp only [Run.finishBits_staged, Run.stage_staged, hS]
      refine ⟨⟨rfl, rfl, rfl, rfl, rfl, rfl⟩, Nat.zero_le _, countNonzero_replicate_zero, fun j hj => ?_, Nat.zero_le _, ?_,
        fun h => absurd h (lt_irrefl _)⟩
      · exact absurd (getD_replicate_zero j) hj
      · exact sum_toList _ (Nat.zero_le _) fun j _ => getD_replicate_zero j
    · rename_i hne
      have hlevels : LevelsRead r.block { r.staged with
          value := BitVec.ofNat 32 (tc * 4 + t1), totalcoeff := BitVec.ofNat 32 tc, trailingones := BitVec.ofNat 32 t1 } 0 := by
        rw [hS]
        refine ⟨⟨⟨rfl, rfl, rfl, rfl, rfl, rfl⟩, r.stop_lt, ?_, ?_, ?_, ?_⟩, fun j hj => absurd hj (Nat.not_lt_zero j), rfl,
          rfl⟩ <;> simp only [htcWord, ht1Word]
        · exact Nat.pos_of_ne_zero hne
        · exact htc
        · exact Nat.le_of_not_lt hfits
        · exact ht1
      exact cavlcRun_nextLevel hreqs hlevels (Nat.zero_le _) (initialSuffixLength_le tc t1) (by omega)

theorem cavlcRun_afterCoeffToken (hreqs : r.reqs = 0) (hS : r.staged = Results.zero) (code : List Bool) (b : Bool) :
    CavlcRun (1500 + (16 - code.length)) (afterCoeffToken code b r) := by
  unfold afterCoeffToken
  split
  · rename_i hmore
    have hlen := readVlc_more_length hmore (n := 16) fun e he => by
      obtain ⟨c, hc⟩ := mem_tokenTable he
      exact coeffToken_code_length c e hc
    refine ⟨⟨hreqs, hS⟩, ?_⟩
    show 1500 + (16 - (code ++ [b]).length) < _
    rw [List.length_append, List.length_singleton]
    omega
  · exact cavlcRun_raise hreqs _ (by omega)
  · rename_i tc t1 hfound
    obtain ⟨c, hc⟩ := mem_tokenTable (readVlc_found hfound)
    obtain ⟨-, hle, h3, h16⟩ := token_bounds hc
    exact cavlcRun_withToken hreqs hS (le_min hle h3) h16 (by omega)

theorem cavlcRun_checkCommand (hreqs : r.reqs = 0) (hS : r.staged = Results.zero) (start stop : BitVec 6) (maxc : BitVec 3)
    (btype : BitVec 5) (rule : CbfRule) : CavlcRun 2000 (checkCommand rule (some (.cavlcBlock start stop maxc btype)) r) := by
  rw [checkCommand]
  split
  · exact ⟨⟨hreqs, hS⟩, show 1500 + 16 < 2000 by decide⟩
  · exact cavlcRun_raise hreqs _ (by decide)

/-- A phase that reads a bit has more than one step to go. -/
theorem one_lt_stepsLeft_bit {p : BitPhase} (h : CavlcAt r (.bit p)) : 1 < stepsLeft (.bit p) := by
  cases p with
  | coeffToken code => show 1 < 1500 + (16 - code.length); omega
  | trailingOne i sl => show 1 < 400 + (16 - i) * 64; omega
  | levelZeros i sl zeros => show 1 < 400 + (15 - i) * 64 + 30 + (32 - zeros); omega
  | levelSuffix i sl zeros left acc => show 1 < 400 + (15 - i) * 64 + left; omega
  | totalZeros code => show 1 < 300 + (9 - code.length); omega
  | runBefore i zl code => show 1 < 40 + (15 - i) * 12 + (11 - code.length); omega
  | egZeros | egSuffix | teBit => exact absurd h id

theorem cavlcRun_afterBit (hreqs : r.reqs = 0) {p : BitPhase} (h : CavlcAt r (.bit p)) (b : Bool) :
    CavlcRun (stepsLeft (.bit p)) (afterBit p b r) := by
  cases p with
  | coeffToken code => exact cavlcRun_afterCoeffToken hreqs h code b
  | trailingOne i sl =>
    obtain ⟨h, hi, hsl⟩ := h
    exact cavlcRun_afterTrailingOne hreqs h hi hsl b
  | levelZeros i sl zeros =>
    obtain ⟨h, hi, hsl, hz⟩ := h
    exact cavlcRun_afterLevelZeros hreqs h hi hsl hz b
  | levelSuffix i sl zeros left acc =>
    obtain ⟨h, hi, hsl, hz, hleft, hacc⟩ := h
    exact cavlcRun_afterLevelSuffix hreqs h hi hsl hz hleft hacc b
  | totalZeros code => exact cavlcRun_afterTotalZeros hreqs h code b
  | runBefore i zl code =>
    obtain ⟨h, hi⟩ := h
    exact cavlcRun_afterRunBefore hreqs h hi code b
  | egZeros | egSuffix | teBit => exact absurd h id

/-- What is true in a phase that reads a bit does not depend on the working position. -/
theorem cavlcAt_advance {p : BitPhase} (h : CavlcAt r (.bit p)) : CavlcAt { r with pos := r.pos + 1 } (.bit p) := by
  cases p <;> exact h

/-- Each step of a CAVLC_BLOCK keeps `CavlcInv`, with fewer steps to go. -/
theorem cavlcInv_advances {rule : CbfRule} {r' : Run} (h : CavlcInv r) (hadv : Advances rule r r') :
    CavlcRun (stepsLeft r.phase) r' := by
  obtain ⟨hreqs, hat⟩ := h
  cases hadv with
  | check hp =>
    rw [hp] at hat ⊢
    obtain ⟨hS, start, stop, maxc, btype, rfl⟩ := hat
    exact cavlcRun_checkCommand hreqs hS start stop maxc btype rule
  | bit hp b =>
    rw [hp] at hat ⊢
    exact cavlcRun_afterBit (r := { r with pos := r.pos + 1 }) hreqs (cavlcAt_advance hat) b
  | endOfStream hp =>
    rw [hp] at hat ⊢
    exact cavlcRun_raise hreqs _ (one_lt_stepsLeft_bit hat)
  | bin hp => rw [hp] at hat; exact absurd hat id
  | exhausted hp => rw [hp] at hat; exact absurd hat id
  | place hp =>
    rw [hp] at hat ⊢
    obtain ⟨n, rfl, h⟩ := hat
    exact cavlcRun_placeStep hreqs h

end

theorem cavlcInv_bitCommand : BitCommand CavlcInv where
  advances _ _ _ h hadv := cavlcInv_advances h hadv
  reqs _ h := h.1
  not_bin r p h hp := by
    obtain ⟨-, hat⟩ := h
    rw [hp] at hat
    exact hat

/-- What a CAVLC_BLOCK leaves, and its results where it has committed. -/
theorem exec_cavlcBlock {s t : State} {start stop : BitVec 6} {maxc : BitVec 3} {btype : BitVec 5} (hidle : s.run = none)
    (ht : exec (.cavlcBlock start stop maxc btype) s = .next t) :
    ∃ r, LeavesBits (encode (.cavlcBlock start stop maxc btype)) s r t
      ∧ (t.status.valid = true → CavlcComplete r.block t.results
          ∧ t.results.bits = BitVec.ofNat 32 (r.pos - r.posStart.toNat)) := by
  obtain ⟨r, ⟨-, hat⟩, hleaves⟩ :=
    exec_leavesBits hidle ht cavlcInv_bitCommand ⟨rfl, rfl, start, stop, maxc, btype, rfl⟩
  refine ⟨r, hleaves, fun hv => ?_⟩
  obtain ⟨hp, hresults, -, -⟩ := hleaves.committed hv
  rw [hp] at hat
  rw [hresults]
  exact hat

/-- Settles O45: the registers of `CavlcQuiet` are staged as 0 throughout. -/
theorem cavlcFrame : Obligations.CavlcFrame := by
  intro s t start stop maxc btype hidle _ ht
  obtain ⟨r, hleaves, hcommitted⟩ := exec_cavlcBlock hidle ht
  refine ⟨hleaves.cmd, hleaves.arg, hleaves.dropped, fun p => by rw [hleaves.bits], by rw [hleaves.bits], hleaves.engine,
    hleaves.cbfRule, hleaves.reads, hleaves.inbox, hleaves.run, fun hv => ?_, hleaves.aborted⟩
  obtain ⟨hdone, hbits⟩ := hcommitted hv
  obtain ⟨-, -, hpos, hdraws⟩ := hleaves.committed hv
  refine ⟨hdone.cbf, hdone.reqs, hdone.sigmap, hdone.lastmap, hdone.signmap, fun j => ?_, ?_, hdraws⟩
  · rw [hdone.abslm1, ← getD_fin, getD_replicate_zero]
  · rw [hpos, hbits]

/-- The span of a block command's word (R66). -/
theorem Run.block_span {r : Run} {op : BitVec 4} {start stop : BitVec 6} {maxc : BitVec 3} {btype : BitVec 5} {cat : BitVec 2}
    (h : r.cmd = packWord op start stop maxc btype cat) : r.block.start = start.toNat ∧ r.block.stop = stop.toNat := by
  unfold Run.block
  rw [h]
  exact ⟨congrArg BitVec.toNat (fieldStart_packWord ..), congrArg BitVec.toNat (fieldEnd_packWord ..)⟩

/-- Settles O44: `CavlcComplete`, over the word's own span. -/
theorem cavlcGuarantees : Obligations.CavlcGuarantees := by
  intro s t start stop maxc btype hidle _ ht hv
  obtain ⟨r, hleaves, hcommitted⟩ := exec_cavlcBlock hidle ht
  obtain ⟨hdone, -⟩ := hcommitted hv
  obtain ⟨hstart, hstop⟩ := Run.block_span hleaves.cmd_run
  have hwithin := hdone.within
  have hfits := hdone.fits
  have htop := hdone.top
  rw [hstart] at hfits hwithin htop
  rw [hstop] at hfits hwithin
  refine ⟨hdone.t1_le, hdone.counted, fun j hj => hwithin j (by rwa [getD_fin]), hfits, hdone.run_sum, fun hpos => ?_⟩
  obtain ⟨hlast, hlevel⟩ := htop hpos
  rw [getD_eq_toList] at hlevel
  exact ⟨hlast, hlevel.trans (getD_fin _ (0 : Fin 16))⟩

/-! ### CABAC_BLOCK, phase by phase (R115 to R126): what is true of the block `b` and the staging copy `S` -/

/-- The registers that only the reads and CAVLC_BLOCK write are staged as 0 (R125). -/
structure CabacQuiet (S : Results) : Prop where
  value : S.value = 0
  trailingones : S.trailingones = 0
  totalzeros : S.totalzeros = 0
  t1signs : S.t1signs = 0
  bits : S.bits = 0
  rbmask : S.rbmask = 0
  level : S.level = Vector.replicate 16 0
  run : S.run = Vector.replicate 16 0
  levelprefix : S.levelprefix = Vector.replicate 16 0
  levelsuffix : S.levelsuffix = Vector.replicate 16 0
  runbefore : S.runbefore = Vector.replicate 16 0

/-- The scan has staged the significance of the positions below `i`, none of them the last (R119). -/
structure Scanning (b : BlockAddress) (S : Results) (i : Nat) : Prop extends CabacQuiet S where
  stop_lt : b.stop < 64
  sig : ∀ j, S.sigmap.getLsbD j = true → b.start ≤ j ∧ j < i
  last : S.lastmap = 0
  coef : S.coef = Vector.replicate 64 0

/-- The scan is over, and its final position is `fin` (R119, R120). -/
structure Scanned (b : BlockAddress) (S : Results) (fin : Nat) : Prop extends CabacQuiet S where
  stop_lt : b.stop < 64
  start_le : b.start ≤ fin
  le_stop : fin ≤ b.stop
  sig : ∀ j, S.sigmap.getLsbD j = true → b.start ≤ j ∧ j ≤ fin
  last : ∀ j, S.lastmap.getLsbD j = true → j = fin
  coef : S.coef = Vector.replicate 64 0

/-- The significance map is complete, with LASTPOS its highest position (R120). -/
structure MapComplete (b : BlockAddress) (S : Results) : Prop extends CabacQuiet S where
  stop_lt : b.stop < 64
  start_le : b.start ≤ S.lastpos.toNat
  le_stop : S.lastpos.toNat ≤ b.stop
  sig : ∀ j, S.sigmap.getLsbD j = true → b.start ≤ j ∧ j ≤ S.lastpos.toNat
  sig_last : S.sigmap.getLsbD S.lastpos.toNat = true
  last : ∀ j, S.lastmap.getLsbD j = true ↔ j = S.lastpos.toNat

/-- The coefficients of the significant positions from `n` on are staged, and no other (R124). -/
structure CoefsFrom (b : BlockAddress) (S : Results) (n : Nat) : Prop extends MapComplete b S where
  coef : ∀ j, S.coef.getD j 0 ≠ 0 ↔ S.sigmap.getLsbD j = true ∧ n ≤ j

/-- What R126 guarantees of a coded block, of the staging copy that is about to be committed. -/
structure CabacComplete (b : BlockAddress) (S : Results) : Prop extends MapComplete b S where
  coef : ∀ j, S.coef.getD j 0 ≠ 0 ↔ S.sigmap.getLsbD j = true
  total : S.totalcoeff = BitVec.ofNat 32 (countBits S.sigmap)

theorem cabacQuiet_zero : CabacQuiet Results.zero := ⟨rfl, rfl, rfl, rfl, rfl, rfl, rfl, rfl, rfl, rfl, rfl⟩

section
variable {S : Results}

/-- A change of the registers that CABAC_BLOCK writes. -/
theorem CabacQuiet.stage {S' : Results} (h : CabacQuiet S)
    (hS : S' = { S with
      totalcoeff := S'.totalcoeff, cbf := S'.cbf, lastpos := S'.lastpos, reqs := S'.reqs, sigmap := S'.sigmap
      lastmap := S'.lastmap, signmap := S'.signmap, abslm1 := S'.abslm1, coef := S'.coef }) : CabacQuiet S' := by
  rw [hS]
  exact ⟨h.value, h.trailingones, h.totalzeros, h.t1signs, h.bits, h.rbmask, h.level, h.run, h.levelprefix, h.levelsuffix,
    h.runbefore⟩

/-- A bit set in a 64-bit map. -/
theorem putBit_true_iff (m : BitVec 64) {i : Nat} (hi : i < 64) (j : Nat) :
    (putBit m i true).getLsbD j = true ↔ m.getLsbD j = true ∨ j = i := by
  rw [putBit_getLsbD]
  simp only [Bool.true_and, Bool.or_eq_true, Bool.and_eq_true, decide_eq_true_eq]
  constructor
  · rintro (h | ⟨h, -⟩)
    · exact .inl h
    · exact .inr h
  · rintro (h | rfl)
    · exact .inl h
    · exact .inr ⟨rfl, hi⟩

variable {b : BlockAddress}

/-! ### The significance map (R119, R120) -/

theorem Scanning.mono {i k : Nat} (h : Scanning b S i) (hle : i ≤ k) : Scanning b S k :=
  ⟨h.toCabacQuiet, h.stop_lt, fun j hj => ⟨(h.sig j hj).1, (h.sig j hj).2.trans_le hle⟩, h.last, h.coef⟩

theorem Scanning.not_last {i : Nat} (h : Scanning b S i) (j : Nat) : ¬ S.lastmap.getLsbD j = true := by
  rw [h.last]
  simp

/-- Position `i` is significant. -/
theorem Scanning.stage_sig {i : Nat} (h : Scanning b S i) (hstart : b.start ≤ i) (hi : i ≤ b.stop) :
    Scanning b { S with sigmap := putBit S.sigmap i true } (i + 1) := by
  have hstop := h.stop_lt
  refine ⟨h.toCabacQuiet.stage rfl, hstop, fun j hj => ?_, h.last, h.coef⟩
  rcases (putBit_true_iff _ (by omega) j).1 hj with hj | rfl
  · have := h.sig j hj
    omega
  · omega

/-- Position `i` is the last. -/
theorem Scanning.stage_last {i : Nat} (h : Scanning b S (i + 1)) (hstart : b.start ≤ i) (hi : i ≤ b.stop) :
    Scanned b { S with lastmap := putBit S.lastmap i true } i := by
  have hstop := h.stop_lt
  refine ⟨h.toCabacQuiet.stage rfl, hstop, hstart, hi, fun j hj => ?_, fun j hj => ?_, h.coef⟩
  · have := h.sig j hj
    omega
  · rcases (putBit_true_iff _ (by omega) j).1 hj with hj | rfl
    · exact absurd hj (h.not_last j)
    · rfl

/-- The scan ran through to the end of the span, whose position is inferred (R120). -/
theorem Scanning.scanned (h : Scanning b S b.stop) (hstart : b.start ≤ b.stop) : Scanned b S b.stop :=
  ⟨h.toCabacQuiet, h.stop_lt, hstart, le_rfl, fun j hj => ⟨(h.sig j hj).1, (h.sig j hj).2.le⟩,
    fun j hj => absurd hj (h.not_last j), h.coef⟩

/-- The final position is staged, and no coefficient yet. -/
theorem Scanned.stage_final {fin : Nat} (h : Scanned b S fin) :
    CoefsFrom b { S with
      sigmap := putBit S.sigmap fin true, lastmap := putBit S.lastmap fin true, lastpos := BitVec.ofNat 32 fin } (fin + 1) := by
  have hstop := h.stop_lt
  have hfin := h.le_stop
  have hword : (BitVec.ofNat 32 fin : Word).toNat = fin := Nat.mod_eq_of_lt (by omega)
  have hsig : ∀ j, (putBit S.sigmap fin true).getLsbD j = true → b.start ≤ j ∧ j ≤ fin := fun j hj => by
    rcases (putBit_true_iff _ (by omega) j).1 hj with hj | rfl
    · exact h.sig j hj
    · exact ⟨h.start_le, le_rfl⟩
  refine ⟨⟨h.toCabacQuiet.stage rfl, hstop, ?_, ?_, ?_, ?_, fun j => ?_⟩, fun j => ?_⟩ <;> dsimp only
  · rw [hword]
    exact h.start_le
  · rw [hword]
    exact hfin
  · rw [hword]
    exact hsig
  · rw [hword, putBit_true_iff _ (by omega)]
    exact .inr rfl
  · rw [hword, putBit_true_iff _ (by omega)]
    exact ⟨fun hj => hj.elim (h.last j) id, .inr⟩
  · rw [h.coef, getD_replicate_zero]
    refine ⟨fun hne => absurd rfl hne, fun ⟨hj, hge⟩ => ?_⟩
    have := hsig j hj
    omega

/-! ### Levels and signs (R121 to R124) -/

theorem nextSignificant_eq_some {sig : BitVec 64} {start n i : Nat} (h : nextSignificant sig start n = some i) :
    sig.getLsbD i = true ∧ i < n ∧ ∀ j, sig.getLsbD j = true → j < n → j ≤ i := by
  induction n with
  | zero => cases h
  | succ n ih =>
    unfold nextSignificant at h
    split at h
    · cases h
    · split at h
      · rename_i hn
        obtain rfl : n = i := Option.some.inj h
        exact ⟨hn, Nat.lt_succ_self _, fun j _ hj => Nat.le_of_lt_succ hj⟩
      · rename_i hn
        obtain ⟨hi, hlt, hmax⟩ := ih h
        refine ⟨hi, hlt.trans (Nat.lt_succ_self _), fun j hj hjn => ?_⟩
        rcases Nat.lt_succ_iff_lt_or_eq.1 hjn with hjn | rfl
        · exact hmax j hj hjn
        · exact absurd hj hn

theorem nextSignificant_eq_none {sig : BitVec 64} {start n : Nat} (h : nextSignificant sig start n = none) {j : Nat}
    (hj : sig.getLsbD j = true) (hstart : start ≤ j) : n ≤ j := by
  induction n with
  | zero => exact Nat.zero_le _
  | succ n ih =>
    unfold nextSignificant at h
    split at h
    · omega
    · split at h
      · cases h
      · rename_i hn
        refine lt_of_le_of_ne (ih h) ?_
        rintro rfl
        exact hn hj

/-- The next position with a coefficient. -/
theorem CoefsFrom.next {n i : Nat} (h : CoefsFrom b S n) (hi : nextSignificant S.sigmap b.start n = some i) :
    CoefsFrom b S (i + 1) ∧ S.sigmap.getLsbD i = true := by
  obtain ⟨hsig, hlt, hmax⟩ := nextSignificant_eq_some hi
  refine ⟨⟨h.toMapComplete, fun j => (h.coef j).trans ?_⟩, hsig⟩
  refine and_congr_right fun hj => ⟨fun hn => hlt.trans_le hn, fun hgt => ?_⟩
  by_contra hn
  have := hmax j hj (Nat.lt_of_not_le hn)
  omega

/-- No position with a coefficient is left. -/
theorem CoefsFrom.complete {n : Nat} (h : CoefsFrom b S n) (hn : nextSignificant S.sigmap b.start n = none) (reqs : Word) :
    CabacComplete b { S with totalcoeff := BitVec.ofNat 32 (countBits S.sigmap), reqs := reqs } := by
  refine ⟨⟨h.toCabacQuiet.stage rfl, h.stop_lt, h.start_le, h.le_stop, h.sig, h.sig_last, h.last⟩,
    fun j => (h.coef j).trans ⟨And.left, fun hj => ⟨hj, ?_⟩⟩, rfl⟩
  exact nextSignificant_eq_none hn hj (h.sig j hj).1

/-- The coefficient of position `i` is staged (R123). -/
theorem CoefsFrom.stage_coef {i : Nat} (h : CoefsFrom b S (i + 1)) (hi : S.sigmap.getLsbD i = true) {v : Word} (hv : v ≠ 0)
    (signmap : BitVec 64) (abslm1 : Vector Word 64) :
    CoefsFrom b { S with abslm1 := abslm1, signmap := signmap, coef := S.coef.setIfInBounds i v } i := by
  have hlt : i < 64 := (((h.sig i hi).2).trans h.le_stop).trans_lt h.stop_lt
  refine ⟨⟨h.toCabacQuiet.stage rfl, h.stop_lt, h.start_le, h.le_stop, h.sig, h.sig_last, h.last⟩,
    fun j => ?_⟩
  dsimp only
  rw [getD_setIfInBounds _ hlt]
  by_cases hj : j = i
  · subst hj
    rw [if_pos rfl]
    exact ⟨fun _ => ⟨hi, le_rfl⟩, fun _ => hv⟩
  · rw [if_neg hj, h.coef j]
    exact and_congr_right fun _ => by omega

/-- COEF counts as many entries as SIGMAP has bits. -/
theorem countNonzero_eq_countBits {m : BitVec 64} {v : Vector Word 64} (h : ∀ j, v.getD j 0 ≠ 0 ↔ m.getLsbD j = true) :
    countNonzero v = countBits m := by
  have hlist : v.toList = (List.range 64).map fun j => v.getD j 0 := by
    apply List.ext_getElem
    · simp
    · intro j hj _
      rw [List.getElem_map, List.getElem_range, getD_eq_toList, List.getD_eq_getElem _ _ hj]
  rw [countNonzero, hlist, List.filter_map, List.length_map, countBits]
  congr 1
  apply List.filter_congr
  intro j _
  exact Bool.eq_iff_iff.2 (by simpa using h j)

theorem countBits_le (m : BitVec 64) : countBits m ≤ 64 :=
  (List.length_filter_le _ _).trans (List.length_range).le

/-- TOTALCOEFF counts the significant positions, and there is one (R23, R126). -/
theorem CabacComplete.total_eq (h : CabacComplete b S) :
    countNonzero S.coef = S.totalcoeff.toNat ∧ 1 ≤ S.totalcoeff.toNat := by
  have htotal : S.totalcoeff.toNat = countBits S.sigmap := by
    have := countBits_le S.sigmap
    rw [h.total, BitVec.toNat_ofNat]
    omega
  rw [htotal]
  refine ⟨countNonzero_eq_countBits h.coef, ?_⟩
  have hlt : S.lastpos.toNat < 64 := h.le_stop.trans_lt h.stop_lt
  exact List.length_pos_of_mem (List.mem_filter.2 ⟨List.mem_range.2 hlt, h.sig_last⟩)

end

/-! ### A running CABAC_BLOCK -/

/-- What is true of a running CABAC_BLOCK in this phase. -/
def CabacAt (r : Run) : Phase → Prop
  | .check c => r.staged = Results.zero
    ∧ ∃ start stop maxc btype cat, c = some (.cabacBlock start stop maxc btype cat)
        ∧ r.cmd = encode (.cabacBlock start stop maxc btype cat)
  | .bin .codedBlockFlag => r.staged = Results.zero ∧ r.block.start ≤ r.block.stop
  | .bin (.significant i n) => Scanning r.block r.staged i ∧ r.block.start ≤ i ∧ i + 1 < n ∧ n = r.block.stop + 1
  | .bin (.last i n) => Scanning r.block r.staged (i + 1) ∧ r.block.start ≤ i ∧ i + 1 < n ∧ n = r.block.stop + 1
  | .bin (.absUnary i bin _ _) =>
    CoefsFrom r.block r.staged (i + 1) ∧ r.staged.sigmap.getLsbD i = true ∧ bin < 14
  | .bin (.sufUnary i k suf _ _) =>
    CoefsFrom r.block r.staged (i + 1) ∧ r.staged.sigmap.getLsbD i = true ∧ k ≤ 29 ∧ suf + 1 = 2 ^ k
  | .bin (.sufBits i k suf _ _) =>
    CoefsFrom r.block r.staged (i + 1) ∧ r.staged.sigmap.getLsbD i = true ∧ suf + 2 ^ k ≤ 2 ^ 30
  | .bin (.sign i v _ _) => CoefsFrom r.block r.staged (i + 1) ∧ r.staged.sigmap.getLsbD i = true ∧ v ≤ 2 ^ 30 + 14
  | .bit _ => False
  | .place _ _ => False
  | .commit => CabacQuiet r.staged ∧ r.staged.reqs = BitVec.ofNat 32 r.reqs
      ∧ (r.staged.cbf = 1 → CabacComplete r.block r.staged)
  | .abort _ => True

/-- A running CABAC_BLOCK, which reads no bit. -/
def CabacInv (r : Run) : Prop := r.pos = r.posStart.toNat ∧ CabacAt r r.phase

section
variable {r : Run}

theorem cabacInv_raise (hpos : r.pos = r.posStart.toNat) (e : ErrorKind) : CabacInv (r.raise e) := ⟨hpos, trivial⟩

theorem cabacInv_nextCoef {n g e : Nat} (hpos : r.pos = r.posStart.toNat) (h : CoefsFrom r.block r.staged n) :
    CabacInv (nextCoef n g e r) := by
  unfold nextCoef
  split
  · rename_i i hi
    obtain ⟨hnext, hsig⟩ := h.next hi
    exact ⟨hpos, hnext, hsig, by decide⟩
  · rename_i hnone
    have hdone := h.complete hnone (BitVec.ofNat 32 r.reqs)
    exact ⟨hpos, hdone.toCabacQuiet, rfl, fun _ => hdone⟩

theorem cabacInv_afterSign {i v : Nat} (hpos : r.pos = r.posStart.toNat) (h : CoefsFrom r.block r.staged (i + 1))
    (hsig : r.staged.sigmap.getLsbD i = true) (hv : v ≤ 2 ^ 30 + 14) (g e : Nat) (b : Bool) :
    CabacInv (afterSign i v g e b r) := by
  have hword : (BitVec.ofInt 32 (((v : Int) + 1) * (1 - 2 * (b.toNat : Int))) : Word) ≠ 0 := by
    cases b <;> simp only [Bool.toNat_false, Bool.toNat_true] <;> exact ofInt_ne_zero (by omega) (by omega) (by omega)
  exact cabacInv_nextCoef hpos (h.stage_coef hsig hword _ _)

theorem cabacInv_afterAbsUnary {i bin : Nat} (hpos : r.pos = r.posStart.toNat) (h : CoefsFrom r.block r.staged (i + 1))
    (hsig : r.staged.sigmap.getLsbD i = true) (hbin : bin < 14) (g e : Nat) (b : Bool) :
    CabacInv (afterAbsUnary i bin g e b r) := by
  unfold afterAbsUnary
  split
  · split
    · rename_i hlt
      exact ⟨hpos, h, hsig, hlt⟩
    · exact ⟨hpos, h, hsig, by decide, rfl⟩
  · exact ⟨hpos, h, hsig, by omega⟩

theorem cabacInv_afterSufUnary {i k suf : Nat} (hpos : r.pos = r.posStart.toNat) (h : CoefsFrom r.block r.staged (i + 1))
    (hsig : r.staged.sigmap.getLsbD i = true) (hk : k ≤ 29) (hsuf : suf + 1 = 2 ^ k) (g e : Nat) (b : Bool) :
    CabacInv (afterSufUnary i k suf g e b r) := by
  have hdouble : 2 ^ (k + 1) = 2 * 2 ^ k := Nat.pow_succ'
  have hmax : 2 ^ (k + 1) ≤ 2 ^ 30 := Nat.pow_le_pow_right (by decide) (by omega)
  unfold afterSufUnary
  split
  · split
    · exact cabacInv_raise hpos _
    · rename_i hnext
      exact ⟨hpos, h, hsig, Nat.le_of_not_lt hnext, show suf + 2 ^ k + 1 = 2 ^ (k + 1) by omega⟩
  · split
    · exact ⟨hpos, h, hsig, show 14 + suf ≤ _ by omega⟩
    · exact ⟨hpos, h, hsig, show suf + 2 ^ k ≤ 2 ^ 30 by omega⟩

theorem cabacInv_afterSufBits {i k suf : Nat} (hpos : r.pos = r.posStart.toNat) (h : CoefsFrom r.block r.staged (i + 1))
    (hsig : r.staged.sigmap.getLsbD i = true) (hsuf : suf + 2 ^ k ≤ 2 ^ 30) (g e : Nat) (b : Bool) :
    CabacInv (afterSufBits i k suf g e b r) := by
  have hbit : b.toNat * 2 ^ (k - 1) ≤ 2 ^ (k - 1) := by cases b <;> simp
  unfold afterSufBits
  dsimp only
  split
  · have hhalf : 2 ^ (k - 1) ≤ 2 ^ k := Nat.pow_le_pow_right (by decide) (Nat.sub_le _ _)
    exact ⟨hpos, h, hsig, show 14 + (suf + b.toNat * 2 ^ (k - 1)) ≤ _ by omega⟩
  · have hdouble : 2 ^ k = 2 * 2 ^ (k - 1) := by
      rw [← Nat.pow_succ', Nat.succ_eq_add_one, Nat.sub_add_cancel (by omega)]
    exact ⟨hpos, h, hsig, show suf + b.toNat * 2 ^ (k - 1) + 2 ^ (k - 1) ≤ 2 ^ 30 by omega⟩

theorem cabacInv_finalPosition {fin : Nat} (hpos : r.pos = r.posStart.toNat) (h : Scanned r.block r.staged fin) :
    CabacInv (finalPosition fin r) := cabacInv_nextCoef hpos h.stage_final

/-- The scan goes on at `i`, which has no last position yet. -/
theorem cabacInv_scanFrom {i n : Nat} (hpos : r.pos = r.posStart.toNat) (h : Scanning r.block r.staged i)
    (hstart : r.block.start ≤ i) (hi : i < n) (hn : n = r.block.stop + 1) : CabacInv (scanFrom i n r) := by
  subst hn
  unfold scanFrom
  split
  · rename_i hlt
    exact ⟨hpos, h, hstart, hlt, rfl⟩
  · exact cabacInv_finalPosition hpos ((h.mono (by omega)).scanned (by omega))

theorem cabacInv_afterSignificant {i n : Nat} (hpos : r.pos = r.posStart.toNat) (h : Scanning r.block r.staged i)
    (hstart : r.block.start ≤ i) (hi : i + 1 < n) (hn : n = r.block.stop + 1) (b : Bool) :
    CabacInv (afterSignificant i n b r) := by
  unfold afterSignificant
  split
  · exact ⟨hpos, h.stage_sig hstart (by omega), hstart, hi, hn⟩
  · exact cabacInv_scanFrom hpos (h.mono (Nat.le_succ _)) (by omega) hi hn

theorem cabacInv_afterLast {i n : Nat} (hpos : r.pos = r.posStart.toNat) (h : Scanning r.block r.staged (i + 1))
    (hstart : r.block.start ≤ i) (hi : i + 1 < n) (hn : n = r.block.stop + 1) (b : Bool) :
    CabacInv (afterLast i n b r) := by
  unfold afterLast
  split
  · rw [scanFrom, if_neg (by omega)]
    exact cabacInv_finalPosition hpos (h.stage_last hstart (by omega))
  · exact cabacInv_scanFrom hpos h (by omega) hi hn

theorem cabacInv_withCbf (hpos : r.pos = r.posStart.toNat) (hS : r.staged = Results.zero)
    (hspan : r.block.start ≤ r.block.stop) (b : Bool) : CabacInv (withCbf b r) := by
  have hquiet : CabacQuiet r.staged := hS ▸ cabacQuiet_zero
  unfold withCbf
  dsimp only
  split
  · have hscan : Scanning r.block { r.staged with cbf := BitVec.ofNat 32 b.toNat } r.block.start :=
      ⟨hquiet.stage rfl, r.stop_lt, fun j hj => by
        rw [hS] at hj
        exact absurd hj (by simp [Results.zero]), by rw [hS]; rfl, by rw [hS]; rfl⟩
    exact cabacInv_scanFrom hpos hscan le_rfl (Nat.lt_succ_of_le hspan) rfl
  · rename_i hb
    obtain rfl : b = false := by simpa using hb
    exact ⟨hpos, hquiet.stage rfl, rfl, fun hcbf => absurd (show (0 : Word) = 1 from hcbf) (by decide)⟩

theorem cabacInv_checkCommand (hpos : r.pos = r.posStart.toNat) (hS : r.staged = Results.zero) {start stop : BitVec 6}
    {maxc : BitVec 3} {btype : BitVec 5} {cat : BitVec 2} (hcmd : r.cmd = encode (.cabacBlock start stop maxc btype cat))
    (rule : CbfRule) : CabacInv (checkCommand rule (some (.cabacBlock start stop maxc btype cat)) r) := by
  obtain ⟨hstart, hstop⟩ := Run.block_span hcmd
  rw [checkCommand]
  split
  · rename_i hlegal
    have hspan : r.block.start ≤ r.block.stop := by
      simp only [legal, Instr.wellFormed, Instr.spanOrdered, Bool.and_eq_true, decide_eq_true_eq] at hlegal
      omega
    show CabacInv (beginCabac rule r)
    unfold beginCabac
    split
    · exact cabacInv_withCbf hpos hS hspan true
    · exact ⟨hpos, hS, hspan⟩
  · exact cabacInv_raise hpos _

theorem cabacInv_afterBin {p : BinPhase} (hpos : r.pos = r.posStart.toNat) (h : CabacAt r (.bin p)) (b : Bool) :
    CabacInv (afterBin p b r) := by
  cases p with
  | codedBlockFlag =>
    obtain ⟨hS, hspan⟩ := h
    exact cabacInv_withCbf hpos hS hspan b
  | significant i n =>
    obtain ⟨h, hstart, hi, hn⟩ := h
    exact cabacInv_afterSignificant hpos h hstart hi hn b
  | last i n =>
    obtain ⟨h, hstart, hi, hn⟩ := h
    exact cabacInv_afterLast hpos h hstart hi hn b
  | absUnary i bin g e =>
    obtain ⟨h, hsig, hbin⟩ := h
    exact cabacInv_afterAbsUnary hpos h hsig hbin g e b
  | sufUnary i k suf g e =>
    obtain ⟨h, hsig, hk, hsuf⟩ := h
    exact cabacInv_afterSufUnary hpos h hsig hk hsuf g e b
  | sufBits i k suf g e =>
    obtain ⟨h, hsig, hsuf⟩ := h
    exact cabacInv_afterSufBits hpos h hsig hsuf g e b
  | sign i v g e =>
    obtain ⟨h, hsig, hv⟩ := h
    exact cabacInv_afterSign hpos h hsig hv g e b

/-- What is true in a phase that issues a request does not depend on the count of requests. -/
theorem cabacAt_ask {p : BinPhase} (h : CabacAt r (.bin p)) : CabacAt { r with reqs := r.reqs + 1 } (.bin p) := by
  cases p <;> exact h

/-- Each step of a CABAC_BLOCK keeps `CabacInv`. -/
theorem cabacInv_advances {rule : CbfRule} {r' : Run} (h : CabacInv r) (hadv : Advances rule r r') : CabacInv r' := by
  obtain ⟨hpos, hat⟩ := h
  cases hadv with
  | check hp =>
    rw [hp] at hat
    obtain ⟨hS, start, stop, maxc, btype, cat, rfl, hcmd⟩ := hat
    exact cabacInv_checkCommand hpos hS hcmd rule
  | bit hp => rw [hp] at hat; exact absurd hat id
  | endOfStream hp => rw [hp] at hat; exact absurd hat id
  | bin hp b =>
    rw [hp] at hat
    exact cabacInv_afterBin (r := { r with reqs := r.reqs + 1 }) hpos (cabacAt_ask hat) b
  | exhausted => exact cabacInv_raise (r := { r with reqs := r.reqs + 1 }) hpos _
  | place hp => rw [hp] at hat; exact absurd hat id

end

/-- What a CABAC_BLOCK leaves, and its staging copy where it has committed. -/
theorem exec_cabacBlock {s t : State} {start stop : BitVec 6} {maxc : BitVec 3} {btype : BitVec 5} {cat : BitVec 2}
    (hidle : s.run = none) (ht : exec (.cabacBlock start stop maxc btype cat) s = .next t) :
    ∃ r eng, r.pos = r.posStart.toNat
      ∧ (t.status.valid = true → CabacQuiet t.results ∧ t.results.reqs = BitVec.ofNat 32 r.reqs
          ∧ (t.results.cbf = 1 → CabacComplete r.block t.results))
      ∧ Underway (encode (.cabacBlock start stop maxc btype cat)) s r eng
      ∧ Leaves (encode (.cabacBlock start stop maxc btype cat)) s r eng t := by
  obtain ⟨r, eng, ⟨hpos, hat⟩, hunder, hleaves⟩ := exec_leaves hidle ht (P := CabacInv)
    (fun _ _ h hadv => cabacInv_advances h hadv) ⟨rfl, rfl, start, stop, maxc, btype, cat, rfl, rfl⟩
  refine ⟨r, eng, hpos, fun hv => ?_, hunder, hleaves⟩
  obtain ⟨hp, hresults, -, -⟩ := hleaves.of_valid hv
  rw [hp] at hat
  rw [hresults]
  exact hat

/-- A CABAC_BLOCK leaves POS and the draw counter as they were, however it ends (R132). -/
theorem Leaves.pos_draws_of_cabac {w : Word} {s t : State} {r : Run} {eng : Engine} (h : Leaves w s r eng t)
    (hunder : Underway w s r eng) (hpos : r.pos = r.posStart.toNat) (hcabac : r.isCabac = true) :
    t.pos = s.pos ∧ t.draws = s.draws := by
  cases h with
  | running => exact ⟨rfl, rfl⟩
  | committed hp =>
    refine ⟨?_, rfl⟩
    rw [commitRun_pos, hpos, hunder.posStart, BitVec.ofNat_toNat, BitVec.setWidth_eq]
  | @aborted e hp =>
    have hkeeps : keepsPos e r = true := by rw [keepsPos, hcabac, Bool.or_true]
    rw [abortRun_keepsPos (s := onTheWay w s r eng) hkeeps hunder.posStart]
    exact ⟨rfl, rfl⟩

/-- Settles O59: the registers of `CabacQuiet` are staged as 0 throughout, and each answer is taken for one request. -/
theorem cabacFrame : Obligations.CabacFrame := by
  intro s t start stop maxc btype cat hidle ht
  obtain ⟨r, eng, hpos, hcommitted, hunder, hleaves⟩ := exec_cabacBlock hidle ht
  have hcabac : r.isCabac = true := by
    rw [Run.isCabac, hunder.cmd]
    exact decide_eq_true (fieldOp_packWord ..)
  obtain ⟨hkeptPos, hdraws⟩ := hleaves.pos_draws_of_cabac hunder hpos hcabac
  obtain ⟨hcmd, harg, hdropped, hbits, heng, hrule, hreads, hinbox⟩ := hleaves.frame
  obtain ⟨a, q, ha, hq, hlen, hreqs⟩ := hunder.answered
  refine ⟨hcmd, harg, hkeptPos, hdropped, fun p => by rw [hbits], by rw [hbits], hdraws, hrule, hreads, hinbox,
    ⟨a, q, by rw [heng, ha], by rw [heng, hq], hlen, fun hv => ?_⟩, fun hv => ?_, hleaves.results_of_not_valid⟩
  · obtain ⟨-, hreg, -⟩ := hcommitted hv
    rw [hreg, hreqs]
  · obtain ⟨hquiet, -, -⟩ := hcommitted hv
    have hzero : ∀ i : Fin 16, (Vector.replicate 16 (0 : Word))[i] = 0 := fun i => by
      rw [← getD_fin, getD_replicate_zero]
    refine ⟨hquiet.value, hquiet.trailingones, hquiet.totalzeros, hquiet.t1signs, hquiet.bits, hquiet.rbmask, fun i => ?_⟩
    rw [hquiet.level, hquiet.run, hquiet.levelprefix, hquiet.levelsuffix, hquiet.runbefore]
    exact ⟨hzero i, hzero i, hzero i, hzero i, hzero i⟩

/-- Settles O57: `CabacComplete`, over the word's own span. -/
theorem cabacGuarantees : Obligations.CabacGuarantees := by
  intro s t start stop maxc btype cat hidle ht hv hcbf
  obtain ⟨r, eng, -, hcommitted, hunder, -⟩ := exec_cabacBlock hidle ht
  obtain ⟨-, -, hcoded⟩ := hcommitted hv
  have hdone := hcoded hcbf
  obtain ⟨hstart, hstop⟩ := Run.block_span hunder.cmd
  obtain ⟨htotal, hpos⟩ := hdone.total_eq
  refine ⟨fun j hj => ?_, fun j => by rw [← getD_fin]; exact hdone.coef j, htotal, hpos, hdone.last⟩
  obtain ⟨hlo, hhi⟩ := hdone.sig j hj
  exact ⟨hstart ▸ hlo, hhi, hstop ▸ hdone.le_stop⟩

end Sys2Proof.Machine

/-! The statements of 20_memory.md: what a Host access does to the window, the order of the agents' steps, a bitstream that changes,
and POS saved and restored. A word's atomic run is its start and `Config.coreBudget` Core steps because a word that decodes is
its command's encoding (`encode_of_decode`). -/

namespace Sys2Proof

/-! ### A word that decodes is its command's encoding (R63, R68) -/

/-- The word of an Exp-Golomb command is its OP, since every other field is 0 (R68). -/
theorem packWord_of_stray_zero {w : Word} (hrsv : fieldRsv w = 0) (hstray : fieldStray w = 0) :
    packWord (fieldOp w) 0 0 0 0 0 = w := by
  obtain ⟨hstart, hend, hmaxc, hbtype, hcat⟩ := fields_of_stray_zero hstray
  have h := packWord_fields hrsv
  rwa [hstart, hend, hmaxc, hbtype, hcat] at h

theorem decodeRead_eq_ok {i j : Instr} {w : Word} (h : decodeRead i w = .ok j) : fieldStray w = 0 ∧ i = j := by
  unfold decodeRead at h
  split at h
  · rename_i hstray
    exact ⟨hstray, Except.ok.inj h⟩
  · cases h

theorem encode_of_decodeRead {i j : Instr} {w : Word} {op : BitVec 4} (hrsv : fieldRsv w = 0) (hop : (fieldOp w).toNat = op.toNat)
    (hi : encode i = packWord op 0 0 0 0 0) (h : decodeRead i w = .ok j) : encode j = w := by
  obtain ⟨hstray, rfl⟩ := decodeRead_eq_ok h
  rw [hi, ← BitVec.eq_of_toNat_eq hop, packWord_of_stray_zero hrsv hstray]

/-- OP by OP: the fields a form does not list are 0, the others are the command's operands. -/
theorem encode_of_decode {w : Word} {i : Instr} (h : decode w = .ok i) : encode i = w := by
  unfold decode at h
  split at h
  · cases h
  · rename_i hne
    have hrsv : fieldRsv w = 0 := not_not.1 hne
    split at h <;> rename_i hop
    · exact encode_of_decodeRead (op := 1) hrsv hop rfl h
    · exact encode_of_decodeRead (op := 2) hrsv hop rfl h
    · exact encode_of_decodeRead (op := 3) hrsv hop rfl h
    · exact encode_of_decodeRead (op := 4) hrsv hop rfl h
    · split at h
      · rename_i hcat
        cases h
        rw [encode, ← BitVec.eq_of_toNat_eq (y := 5) hop, ← hcat, packWord_fields hrsv]
      · cases h
    · cases h
      rw [encode, ← BitVec.eq_of_toNat_eq (y := 6) hop, packWord_fields hrsv]
    · cases h

end Sys2Proof

namespace Sys2Proof.Machine

/-! ### Host accesses (R50, R54, R55) -/

theorem writeSlot_arg_idle {s : State} (h : s.run = none) (v : Word) : writeSlot 0x004 v s = { s with arg := v } := by
  simp [writeSlot, State.busy, h]

theorem writeSlot_pos_idle {s : State} (h : s.run = none) (v : Word) : writeSlot 0x008 v s = { s with pos := v } := by
  simp [writeSlot, State.busy, h]

/-- Settles O10: a read appends the slot to what the Host has read, and a write does what `writeSlot` does at its offset. -/
theorem hostAccessSideEffects : Obligations.HostAccessSideEffects := by
  intro s rest off v hoff ha
  refine ⟨step_read hoff ha s rest, fun hcmd harg hpos => ?_, fun hidle => ⟨?_, ?_⟩⟩
  · rw [step_write hoff ha, writeSlot_readOnly hcmd harg hpos]
  · rw [step_write (by decide) rfl, writeSlot_arg_idle (s := { s with inbox := rest }) hidle]
  · rw [step_write (by decide) rfl, writeSlot_pos_idle (s := { s with inbox := rest }) hidle]

/-- Each of R50's conditions alone makes an access unsupported. -/
theorem not_supportedAccess {off width : Nat} (h : 0x400 ≤ off ∨ off % 4 ≠ 0 ∨ width ≠ 32) :
    ¬ supportedAccess off width = true := by
  intro hs
  obtain ⟨hlt, ha, hw⟩ := of_decide_eq_true hs
  omega

/-- Settles O11: a read and a write ask the same check first. -/
theorem unsupportedAccessesAreRefused : Obligations.UnsupportedAccessesAreRefused := by
  intro s rest off width v h
  have hs := not_supportedAccess h
  exact ⟨by rw [step_event, takeEvent, if_neg hs], by rw [step_event, takeEvent, if_neg hs]⟩

/-! ### The order of the agents' steps (R59, R130, R131) -/

/-- A word written with all the Core's steps of its command, whether it decodes or not. -/
theorem runWord_eq_runCommand (w : Word) (s : State) :
    runWord w s = .next (runCommand w (decode w).toOption s) := by
  unfold runWord
  split
  · rename_i i hdecode
    rw [exec_eq_runCommand, encode_of_decode hdecode, hdecode]
    rfl
  · rename_i hdecode
    rw [hdecode]
    rfl

/-- Core steps do the same whatever the inbox holds. -/
theorem iterate_inbox (n : Nat) (s : State) (q : List Event) :
    coreStep^[n] { s with inbox := q } = { coreStep^[n] s with inbox := q } := by
  induction n generalizing s with
  | zero => rfl
  | succ n ih => rw [Function.iterate_succ_apply, Function.iterate_succ_apply, coreStep_inbox, ih]

/-- Settles O24: both start the word's command, and the listed Core steps are those of `runCore`. -/
theorem runEqualsWriteThenCoreSteps : Obligations.RunEqualsWriteThenCoreSteps := by
  intro s w rest hidle
  refine ⟨Config.coreBudget, le_rfl, ?_⟩
  have hwrite : ∀ q, step { s with inbox := .write 0x000 32 w :: q }
      = .next { startCommand w (decode w).toOption s with inbox := q } := fun q => by
    rw [step_write (by decide) rfl, writeSlot_cmd_idle (s := { s with inbox := q }) hidle]
    rfl
  have hrun : step { s with inbox := .run w :: rest }
      = .next { coreStep^[Config.coreBudget] (startCommand w (decode w).toOption s) with inbox := rest } := by
    rw [step_event, takeEvent, runWord_eq_runCommand, runCommand_idle (s := { s with inbox := rest }) hidle,
      runCore_eq_iterate]
    exact congrArg Host.Outcome.next (iterate_inbox _ (startCommand w (decode w).toOption s) rest)
  rw [core_run_succ (hwrite _), core_run_replicate]
  exact hrun.symm

/-! ### A changing bitstream (R58, R152) -/

/-- Under a running command, a change that leaves BSLEN and every position from POS_start on as they were leaves no record. -/
theorem changeBits_below_start {s : State} {r : Run} {bs : List Bool} (hr : s.run = some r)
    (hlen : bs.length = s.bits.length) (hsame : ∀ p : Nat, r.posStart.toNat ≤ p → bs[p]? = s.bits[p]?) :
    changeBits bs s = { s with bits := bs } := by
  have hrecord : ((List.range bs.length).filter fun p => decide (r.posStart.toNat ≤ p) && bs[p]? != s.bits[p]?) = [] := by
    refine List.filter_eq_nil_iff.2 fun p _ hp => ?_
    obtain ⟨hge, hne⟩ := Bool.and_eq_true_iff.1 hp
    exact bne_iff_ne.1 hne (hsame p (of_decide_eq_true hge))
  rw [changeBits, hr, Option.map_some, hrecord, List.append_nil, hlen, bne_self_eq_false, Bool.or_false]

theorem changeBits_idle {s : State} (h : s.run = none) (bs : List Bool) : changeBits bs s = { s with bits := bs } := by
  rw [changeBits, h]
  rfl

theorem step_bitstream {bs : List Bool} (h : bs.length ≤ Config.maxBsLen) (s : State) (rest : List Event) :
    step { s with inbox := .bitstream bs :: rest } = .next (changeBits bs { s with inbox := rest }) := by
  rw [step_event, takeEvent, if_pos h]

/-- Settles O60: an idle Core keeps no record of changes, and a running one none below POS_start. -/
theorem bitstreamChangesAreSeen : Obligations.BitstreamChangesAreSeen := by
  intro s bs rest hbs
  refine ⟨fun hidle => ?_, fun r hr hlen hsame => ?_⟩
  · rw [step_bitstream hbs, changeBits_idle (s := { s with inbox := rest }) hidle]
  · rw [step_bitstream hbs, changeBits_below_start (s := { s with inbox := rest }) hr hlen hsame]

/-! ### POS saved and restored (R55, R56) -/

/-- What each of the five commands that read bits leaves. -/
theorem exec_bitCommand {s t : State} {i : Instr} (hidle : s.run = none)
    (hi : i = .readUe ∨ i = .readSe ∨ i = .readTe ∨ i = .readCe ∨ ∃ start stop maxc btype, i = .cavlcBlock start stop maxc btype)
    (ht : exec i s = .next t) : ∃ r, LeavesBits (encode i) s r t := by
  have hread : IsRead i → ∃ r, LeavesBits (encode i) s r t := fun hread => by
    obtain ⟨r, -, h⟩ := exec_leavesBits hidle ht readInv_bitCommand ⟨rfl, rfl, i, rfl, hread⟩
    exact ⟨r, h⟩
  rcases hi with hi | hi | hi | hi | ⟨start, stop, maxc, btype, rfl⟩
  · exact hread (.inl hi)
  · exact hread (.inr (.inl hi))
  · exact hread (.inr (.inr (.inl hi)))
  · exact hread (.inr (.inr (.inr hi)))
  · obtain ⟨r, h, -⟩ := exec_cavlcBlock hidle ht
    exact ⟨r, h⟩

/-- A committed bit-reading command changes CMD, POS, STATUS and the results alone. -/
theorem LeavesBits.eq_of_valid {w : Word} {s t : State} {r : Run} (h : LeavesBits w s r t) (hv : t.status.valid = true) :
    t = { s with cmd := w, pos := t.pos, status := t.status, results := t.results, run := none } := by
  obtain ⟨-, -, -, hdraws⟩ := h.committed hv
  rw [← h.cmd, ← h.arg, ← h.run, ← h.bits, ← h.engine, ← h.cbfRule, ← h.reads, ← h.inbox, ← hdraws]

/-- Settles O30: the second run starts from the same inputs, so it commits the same POS, STATUS and results (R45), and all that the
first run left besides is already there. -/
theorem restoringPosReadsTheSameBits : Obligations.RestoringPosReadsTheSameBits := by
  intro s t i hidle hi ht hv
  obtain ⟨r, h⟩ := exec_bitCommand hidle hi ht
  obtain ⟨t', ht'⟩ : ∃ t', exec i { t with pos := s.pos } = .next t' := ⟨_, exec_eq_runCommand i _⟩
  obtain ⟨r', h'⟩ := exec_bitCommand (s := { t with pos := s.pos }) h.run hi ht'
  obtain ⟨hstatus, hcommitted, -⟩ := resultsDependOnlyOnTheInputs s { t with pos := s.pos } t t' i hidle h.run h.arg.symm rfl
    h.bits.symm (congrArg Engine.answers h.engine.symm) h.cbfRule.symm ht ht'
  obtain ⟨hresults, hpos⟩ := hcommitted hv
  have hsame : t' = t := by
    rw [h'.eq_of_valid (hstatus ▸ hv), ← hstatus, ← hresults, ← hpos, ← h.cmd, ← h.run]
  rw [ht', hsame]

end Sys2Proof.Machine

/-! The statements of 30_encoding.md: encoding and decoding are inverse, illegal words end with InvalidCommand, the code tables are
unambiguous and complete, and the Exp-Golomb reads and the Host programs of R71 do what they are for. -/

namespace Sys2Proof

/-! ### Encoding and decoding are inverse (R63, R64, R68, R70) -/

theorem fieldStray_packWord_op (op : BitVec 4) : fieldStray (packWord op 0 0 0 0 0) = 0 := by
  revert op
  decide

/-- A word with RSV = 0 selects its command by OP alone. -/
theorem decodeRead_packWord_op (i : Instr) (op : BitVec 4) : decodeRead i (packWord op 0 0 0 0 0) = .ok i := by
  rw [decodeRead, if_pos (fieldStray_packWord_op op)]

/-- A read's word has no operand, and a block's operands are the fields of its packed word. -/
theorem decode_encode (i : Instr) : decode (encode i) = .ok i := by
  cases i with
  | readUe | readSe | readTe | readCe =>
    simp only [encode, decode, fieldRsv_packWord, fieldOp_packWord, decodeRead_packWord_op]
    rfl
  | cavlcBlock | cabacBlock =>
    simp only [encode, decode, fieldRsv_packWord, fieldOp_packWord, fieldStart_packWord, fieldEnd_packWord,
      fieldMaxc_packWord, fieldBtype_packWord, fieldCat_packWord]
    rfl

/-- Settles O1: see `decode_encode`. -/
theorem decodeReadsBackEveryEncoding : Obligations.DecodeReadsBackEveryEncoding := decode_encode

/-- Settles O2: see `encode_of_decode`. -/
theorem everyDecodedWordIsItsEncoding : Obligations.EveryDecodedWordIsItsEncoding := fun _ _ => encode_of_decode

theorem decode_eq_ok_iff {w : Word} {i : Instr} : decode w = .ok i ↔ encode i = w :=
  ⟨encode_of_decode, fun h => h ▸ decode_encode i⟩

/-- A packed word is the sum of its fields at their places, since no two of them overlap. -/
theorem packWord_toNat (op : BitVec 4) (start stop : BitVec 6) (maxc : BitVec 3) (btype : BitVec 5) (cat : BitVec 2) :
    (packWord op start stop maxc btype cat).toNat
      = op.toNat + start.toNat * 2 ^ 4 + stop.toNat * 2 ^ 10 + maxc.toNat * 2 ^ 16 + btype.toNat * 2 ^ 19
        + cat.toNat * 2 ^ 24 := by
  simp only [packWord_eq_append, toNat_append_eq, BitVec.toNat_ofNat]
  ring

/-- Settles O3: the fields a form does not list add 0. -/
theorem encodingPlacesTheFields : Obligations.EncodingPlacesTheFields := by
  refine ⟨rfl, rfl, rfl, rfl, fun start stop maxc btype => ?_, fun start stop maxc btype cat => ?_⟩
  · rw [encode, packWord_toNat]
    simp
  · rw [encode, packWord_toNat]
    simp

/-- Settles O4: each word is its command's encoding. -/
theorem specWordsDecode : Obligations.SpecWordsDecode := by
  unfold Obligations.SpecWordsDecode
  simp only [decode_eq_ok_iff]
  decide

/-! ### The fields of a word as parts of its number (R63) -/

section
variable (w : Word)

theorem toNat_fieldOp : (fieldOp w).toNat = w.toNat % 16 := by simp [fieldOp]
theorem toNat_fieldStart : (fieldStart w).toNat = w.toNat / 2 ^ 4 % 64 := by simp [fieldStart, Nat.shiftRight_eq_div_pow]
theorem toNat_fieldEnd : (fieldEnd w).toNat = w.toNat / 2 ^ 10 % 64 := by simp [fieldEnd, Nat.shiftRight_eq_div_pow]
theorem toNat_fieldMaxc : (fieldMaxc w).toNat = w.toNat / 2 ^ 16 % 8 := by simp [fieldMaxc, Nat.shiftRight_eq_div_pow]
theorem toNat_fieldCat : (fieldCat w).toNat = w.toNat / 2 ^ 24 % 4 := by simp [fieldCat, Nat.shiftRight_eq_div_pow]
theorem toNat_fieldStray : (fieldStray w).toNat = w.toNat / 2 ^ 4 % 2 ^ 22 := by
  simp [fieldStray, Nat.shiftRight_eq_div_pow]
theorem toNat_fieldRsv : (fieldRsv w).toNat = w.toNat / 2 ^ 26 := by
  have h := w.isLt
  simp [fieldRsv, Nat.shiftRight_eq_div_pow]
  omega

end

/-- `maxCoefficients` as R65's list of the codes 0 to 4. -/
theorem maxCoefficients_eq (code : BitVec 3) : Tables.maxCoefficients code = [4, 8, 15, 16, 64][code.toNat]? := by
  revert code
  decide

end Sys2Proof

namespace Sys2Proof.Machine

/-! ### The block operands of a word (R65, R66) -/

/-- Settles O53: the fields of the packed word. -/
theorem blockAddressFromTheWord : Obligations.BlockAddressFromTheWord := by
  intro start stop maxc btype cat m hm
  have hmaxc : (Tables.maxCoefficients maxc).getD 0 = m := by rw [maxCoefficients_eq, hm, Option.getD_some]
  constructor
  all_goals
    simp only [blockOf, encode, fieldBtype_packWord, fieldStart_packWord, fieldEnd_packWord, fieldMaxc_packWord,
      fieldCat_packWord, hmaxc]
  rfl

/-! ### Illegal words (R68, R69, R96) -/

/-- A word that selects no command is illegal by its form alone. -/
theorem illegalWord_of_error {w : Word} {e : DecodeError} (h : decode w = .error e) (arg : Word) : IllegalWord w arg := by
  have hzero : ∀ {n : Nat} {b : BitVec n}, b ≠ 0 → b.toNat ≠ 0 := fun hb h0 => hb (BitVec.eq_of_toNat_eq h0)
  have hstray : ∀ {i}, decodeRead i w = .error e → (fieldStray w).toNat ≠ 0 := by
    intro i hi
    unfold decodeRead at hi
    split at hi
    · cases hi
    · exact hzero ‹_›
  simp only [IllegalWord, ← toNat_fieldOp, ← toNat_fieldCat, ← toNat_fieldRsv, ← toNat_fieldStray]
  unfold decode at h
  split at h
  · exact .inr (.inr (.inl (hzero ‹_›)))
  · split at h <;> rename_i hop
    iterate 4 exact .inr (.inr (.inr (.inl ⟨by omega, hstray h⟩)))
    · split at h
      · cases h
      · exact .inr (.inr (.inr (.inr (.inl ⟨hop, hzero ‹_›⟩))))
    · cases h
    · rename_i h1 h2 h3 h4 h5
      have hreserved : (fieldOp w).toNat = 0 ∨ 7 ≤ (fieldOp w).toNat := by
        simp only [imp_false] at h1 h2 h3 h4 h5 hop
        omega
      exact hreserved.imp_right .inl

/-- The operands of a block command that R68 refuses by themselves. -/
theorem cavlcBlock_not_wellFormed_iff (start stop : BitVec 6) (maxc : BitVec 3) (btype : BitVec 5) :
    (Instr.cavlcBlock start stop maxc btype).wellFormed = false
      ↔ 5 ≤ maxc.toNat ∨ start.toNat > stop.toNat ∨ stop.toNat + 1 > [4, 8, 15, 16, 64].getD maxc.toNat 0 := by
  simp only [Instr.wellFormed, Instr.maxcDefined, Instr.spanOrdered, Instr.spanFits, maxCoefficients_eq]
  by_cases hm : maxc.toNat < 5
  · rw [List.getElem?_eq_getElem hm, List.getD_eq_getElem _ _ hm]
    simp
    omega
  · rw [List.getElem?_eq_none (Nat.le_of_not_lt hm)]
    simp
    omega

theorem cabacBlock_wellFormed (start stop : BitVec 6) (maxc : BitVec 3) (btype : BitVec 5) (cat : BitVec 2) :
    (Instr.cabacBlock start stop maxc btype cat).wellFormed = (Instr.cavlcBlock start stop maxc btype).wellFormed := rfl

/-- R96 as R68's list has it. -/
theorem cavlcAccepts_eq_false_iff (m : Nat) (nC : Int) :
    cavlcAccepts m nC = false ↔ m = 64 ∨ nC < -2 ∨ (nC = -1 ∧ m ≠ 4) ∨ (nC = -2 ∧ m ≠ 8)
        ∨ (0 ≤ nC ∧ m ≠ 15 ∧ m ≠ 16) := by
  unfold cavlcAccepts
  split_ifs <;> simp <;> omega

/-- A command's word is illegal by its operands alone. -/
theorem illegalWord_encode_iff (i : Instr) (arg : Word) : IllegalWord (encode i) arg ↔ legal i arg = false := by
  simp only [IllegalWord, ← toNat_fieldOp, ← toNat_fieldCat, ← toNat_fieldRsv, ← toNat_fieldStray, ← toNat_fieldStart,
    ← toNat_fieldEnd, ← toNat_fieldMaxc]
  cases i with
  | readUe | readSe | readTe | readCe =>
    simp only [encode, fieldOp_packWord, fieldRsv_packWord, fieldStray_packWord_op, legal]
    simp [Instr.wellFormed, Instr.maxcDefined, Instr.spanOrdered, Instr.spanFits, argumentLegal]
  | cavlcBlock start stop maxc btype =>
    rw [legal, Bool.and_eq_false_iff, cavlcBlock_not_wellFormed_iff, argumentLegal, cavlcAccepts_eq_false_iff,
      maxCoefficients_eq]
    simp [encode, fieldOp_packWord, fieldRsv_packWord, fieldStart_packWord, fieldEnd_packWord, fieldMaxc_packWord,
      fieldCat_packWord]
  | cabacBlock start stop maxc btype cat =>
    rw [legal, Bool.and_eq_false_iff, cabacBlock_wellFormed, cavlcBlock_not_wellFormed_iff, argumentLegal]
    simp [encode, fieldOp_packWord, fieldRsv_packWord, fieldStart_packWord, fieldEnd_packWord, fieldMaxc_packWord]

/-- Settles O5: a word that decodes is its command's encoding, so only its operands decide. -/
theorem illegalExactlyWhenNoLegalCommand : Obligations.IllegalExactlyWhenNoLegalCommand := by
  intro w arg
  cases h : decode w with
  | error e => simp [illegalWord_of_error h arg]
  | ok i =>
    obtain rfl := encode_of_decode h
    simp [illegalWord_encode_iff]

/-- Settles O6: the legality check refuses the word's command, whether there is one or not. -/
theorem illegalCommandsAbort : Obligations.IllegalCommandsAbort := by
  intro s w rest hidle hbad
  have hrefused : ∀ i, (decode w).toOption = some i → legal i s.arg = false := by
    intro i hi
    cases hdecode : decode w with
    | error e => rw [hdecode] at hi; cases hi
    | ok j =>
      rw [hdecode] at hi
      cases hi
      rw [← illegalWord_encode_iff, encode_of_decode hdecode]
      exact hbad
  rw [step_event, takeEvent, runWord_eq_runCommand, runCommand_illegal (s := { s with inbox := rest }) hidle hrefused]

/-! ### Host programs (R71) -/

/-- Between two polls the Core steps, unless it waits for the Engine. -/
theorem betweenPolls_running {s : State} (h : waiting s = false) (rest : List Event) :
    betweenPolls s rest = .core :: .wait :: rest := by
  simp [betweenPolls, h]

/-- With steps of the Host alone listed, the Core's step falls there, waiting or not. -/
theorem betweenPolls_hostOnly (s : State) {rest : List Event} (h : ∀ e ∈ rest, isHostStep e = true) :
    betweenPolls s rest = .core :: .wait :: rest := by
  simp [betweenPolls, firstOtherStep_none h]

/-- While the Core waits for the Engine, the first listed step of another agent falls there. -/
theorem betweenPolls_waiting {s : State} (hw : waiting s = true) {own others : List Event} {e : Event}
    (hown : ∀ x ∈ own, isHostStep x = true) (he : isHostStep e = false) :
    betweenPolls s (own ++ e :: others) = e :: .wait :: (own ++ others) := by
  rw [betweenPolls, if_pos hw, firstOtherStep_some hown he]

/-- A poll and the Core's step after it, where the Core waits: STATUS is read and nothing else changes. -/
theorem core_run_poll {s : State} (hw : waiting s = true) {rest : List Event} (hhost : ∀ e ∈ rest, isHostStep e = true)
    (n : Nat) :
    Sys2Proof.core.run (n + 2) { s with inbox := .wait :: rest }
      = Sys2Proof.core.run n { s with inbox := .wait :: rest, reads := s.reads ++ [readSlot 0x00C s] } := by
  have hpoll := step_wait_busy (run_of_waiting hw) rest
  rw [betweenPolls_hostOnly s hhost] at hpoll
  have hcore := step_core { s with reads := s.reads ++ [readSlot 0x00C s] } (.wait :: rest)
  rw [coreStep_inbox, coreStep_reads, coreStep_stalled (stalled_of_waiting hw)] at hcore
  rw [core_run_succ hpoll, core_run_succ hcore]

/-- Under an Engine that does not answer, `n` polls read the same STATUS `n` times. -/
theorem core_run_polls (n : Nat) {s : State} (hw : waiting s = true) {rest : List Event}
    (hhost : ∀ e ∈ rest, isHostStep e = true) :
    Sys2Proof.core.run (2 * n) { s with inbox := .wait :: rest }
      = .next { s with inbox := .wait :: rest, reads := s.reads ++ List.replicate n (readSlot 0x00C s) } := by
  induction n generalizing s with
  | zero => simp [core_run_zero]
  | succ n ih =>
    rw [Nat.mul_succ, core_run_poll hw hhost,
      ih (s := { s with reads := s.reads ++ [readSlot 0x00C s] }) hw, List.replicate_succ, List.append_assoc]
    rfl

/-- Settles O26: the cases of `betweenPolls`, and for the last clause its polls one after another. -/
theorem waitPollsUntilIdle : Obligations.WaitPollsUntilIdle := by
  intro s rest
  refine ⟨fun hidle => step_wait_idle hidle rest, fun hbusy hw => ?_, fun hw own others e hown he hrest => ?_,
    fun hw hhost n => core_run_polls n hw hhost⟩
  · rw [step_wait_busy hbusy, betweenPolls_running hw]
  · rw [step_wait_busy (run_of_waiting hw), hrest, betweenPolls_waiting hw hown he]

/-- The writes of `run c` on an idle machine: ARG where the program has one, then CMD, which starts the command. -/
theorem core_run_runProgram {s : State} (hidle : s.run = none) (c : Instr) (arg : Option Word) (rest : List Event) :
    ∃ m, ∀ n, Sys2Proof.core.run (n + m) { s with inbox := runProgram c arg ++ rest }
      = Sys2Proof.core.run n
          { startCommand (encode c) (some c) { s with arg := arg.getD s.arg } with inbox := .wait :: rest } := by
  have hcmd : ∀ u : State, u.run = none → step { u with inbox := hostWrite 0x000 (encode c) :: .wait :: rest }
      = .next { startCommand (encode c) (some c) u with inbox := .wait :: rest } := fun u hu => by
    rw [hostWrite, step_write (by decide) rfl, writeSlot_cmd_idle (s := { u with inbox := .wait :: rest }) hu, decode_encode]
    rfl
  cases arg with
  | none => exact ⟨1, fun n => core_run_succ (hcmd s hidle) n⟩
  | some a =>
    refine ⟨2, fun n => ?_⟩
    have harg : step { s with inbox := hostWrite 0x004 a :: hostWrite 0x000 (encode c) :: .wait :: rest }
        = .next { s with arg := a, inbox := hostWrite 0x000 (encode c) :: .wait :: rest } := by
      rw [hostWrite, step_write (by decide) rfl]
      exact congrArg _ (writeSlot_arg_idle (s := { s with inbox := hostWrite 0x000 (encode c) :: .wait :: rest }) hidle a)
    exact (core_run_succ harg (n + 1)).trans (core_run_succ (hcmd { s with arg := a } hidle) n)

/-- Settles O27: the command's Core steps fall between the polls, and they end it (`core_run_wait`). -/
theorem runProgramEndsWithItsCommand : Obligations.RunProgramEndsWithItsCommand := by
  intro s t c arg rest hidle ht hend
  obtain ⟨m, hwrites⟩ := core_run_runProgram hidle c arg rest
  have hsteps : coreStep^[Config.coreBudget] (startCommand (encode c) (some c) { s with arg := arg.getD s.arg }) = t := by
    rw [exec_eq_runCommand, runCommand_idle (s := { s with arg := arg.getD s.arg }) hidle, runCore_eq_iterate] at ht
    exact Host.Outcome.next.inj ht
  obtain ⟨n, k, hwait⟩ := core_run_wait rest Config.coreBudget _ (fun _ => startCommand_status (encode c) (some c) _)
    (hsteps ▸ hend)
  exact ⟨n + m, k, by rw [hwrites, hwait, hsteps]; rfl⟩

/-! ### The Exp-Golomb reads (R73 to R76, R89 to R93) -/

/-- A code of `L` zeros, a 1 and `L` bits has `2L + 1` bits. -/
theorem egCode_length (suffix : List Bool) : (egCode suffix).length = 2 * suffix.length + 1 := by
  rw [egCode, List.length_append, List.length_replicate, List.length_cons]
  omega

/-- What is staged where `n` bits have been read from the start of a command that has staged VALUE alone (R89). -/
theorem finishBits_staged_value {r : Run} (hS : r.staged = Results.zero) (v : Word) {n : Nat}
    (hn : r.pos - r.posStart.toNat = n) :
    (r.stage fun S => { S with value := v }).finishBits.staged
      = { Results.zero with value := v, bits := BitVec.ofNat 32 n } := by
  rw [Run.finishBits_staged, Run.stage_staged, Run.stage_pos, Run.stage_posStart, hn, hS]

/-- A command that begins with an Exp-Golomb code commits its code number, as its own form maps it. -/
theorem exec_egCode {s : State} {i : Instr} {kind : EgKind} {suffix : List Bool} (hidle : s.run = none) (hfits : s.streamFits)
    (hlegal : legal i s.arg = true)
    (hbegun : begunRun (encode i) i s = (freshRun (encode i) (some i) s).goto (.bit (.egZeros kind 0)))
    (hlen : suffix.length ≤ 31) (hstream : s.streamHas (egCode suffix)) :
    exec i s = .next (committed (encode i)
      { Results.zero with
        value := egValue kind (egNumber suffix), bits := BitVec.ofNat 32 (2 * suffix.length + 1) }
      (2 * suffix.length + 1) s) := by
  have hreads := reads_egCode kind suffix _ hlen (congrArg Run.phase hbegun)
  have hrun := runCommand_reads (m := 0) hidle hfits hlegal hreads hstream (fun _ => rfl) rfl (egDone_phase ..)
    (by rw [egCode_length, Config.coreBudget]; omega)
  rw [exec_eq_runCommand, hrun, egCode_length, egDone, hbegun]
  congr 2
  exact finishBits_staged_value rfl _ (Nat.add_sub_cancel_left _ _)

/-- Settles O31: UE returns the code number. -/
theorem readUeReturnsTheCodeNumber : Obligations.ReadUeReturnsTheCodeNumber :=
  fun _ _ hidle hfits hlen hstream => exec_egCode (i := .readUe) (kind := .ue) hidle hfits rfl rfl hlen hstream

/-- Settles O34: CE returns the code number. -/
theorem readCeReturnsTheUeValue : Obligations.ReadCeReturnsTheUeValue :=
  fun _ _ hidle hfits hlen hstream => exec_egCode (i := .readCe) (kind := .ce) hidle hfits rfl rfl hlen hstream

/-- The map of R74, its two parities in one formula. -/
theorem seMap_eq (k : Nat) : seMap k = (-1) ^ (k + 1) * (((k + 1) / 2 : Nat) : Int) := by
  unfold seMap
  rcases Nat.even_or_odd k with hk | hk
  · rw [if_neg (by have := Nat.even_iff.1 hk; omega), Odd.neg_one_pow hk.add_one]
    have := Nat.even_iff.1 hk
    omega
  · rw [if_pos (Nat.odd_iff.1 hk), Even.neg_one_pow hk.add_one]
    omega

/-- Settles O32: SE returns the signed value of the code number. -/
theorem readSeReturnsTheSignedNumber : Obligations.ReadSeReturnsTheSignedNumber := by
  intro s suffix hidle hfits hlen hstream
  rw [← seMap_eq]
  exact exec_egCode (i := .readSe) (kind := .se) hidle hfits rfl rfl hlen hstream

/-- READ_TE with range 1 commits the inverted bit. -/
theorem exec_readTe_one {s : State} {b : Bool} (hidle : s.run = none) (hfits : s.streamFits) (harg : s.arg = 1)
    (hstream : s.streamHas [b]) :
    exec .readTe s = .next (committed (encode .readTe)
      { Results.zero with value := BitVec.ofNat 32 (1 - b.toNat), bits := BitVec.ofNat 32 1 } 1 s) := by
  have hlegal : legal .readTe s.arg = true := by rw [harg]; rfl
  have hbegun : begunRun (encode .readTe) .readTe s = (freshRun (encode .readTe) (some .readTe) s).goto (.bit .teBit) :=
    if_pos (congrArg BitVec.toNat harg)
  have hreads := Reads.one (congrArg Run.phase hbegun) b
  have hrun := runCommand_reads (m := 0) hidle hfits hlegal hreads hstream (fun _ => rfl) rfl rfl
    (show 1 + 0 + 2 ≤ Config.coreBudget by decide)
  rw [exec_eq_runCommand, hrun, hbegun]
  congr 2
  exact finishBits_staged_value (r := { (freshRun _ _ s).goto _ with pos := s.pos.toNat + 1 }) rfl _
    (Nat.add_sub_cancel_left _ _)

/-- Settles O33: range 1 reads one bit, and a larger range a UE code. -/
theorem readTeFollowsItsRange : Obligations.ReadTeFollowsItsRange := by
  refine ⟨fun s b hidle hfits harg hstream => ?_, fun s suffix hidle hfits hrange hlen hstream => ?_⟩
  · rw [exec_readTe_one hidle hfits harg hstream]
    cases b <;> rfl
  · have hlegal : legal .readTe s.arg = true := decide_eq_true (by omega)
    exact exec_egCode (i := .readTe) (kind := .te) hidle hfits hlegal (if_neg (Nat.ne_of_gt hrange)) hlen hstream

/-! ### The code tables (R78, R79, R87, R88) -/

/-- Settles O48: see the lemmas `prefixFree_…` of the three kinds of tables. -/
theorem tablesArePrefixFree : Obligations.TablesArePrefixFree :=
  ⟨prefixFree_coeffToken, fun tc => prefixFree_totalZeros 16 tc, fun tc => prefixFree_totalZeros 4 tc,
    fun tc => prefixFree_totalZeros 8 tc, prefixFree_runBefore⟩

/-- The largest TotalCoeff of a column (R78, R79). -/
def maxTotalCoeff : Tables.CtColumn → Nat
  | .chroma420 => 4
  | .chroma422 => 8
  | _ => 16

/-- The pairs that a column codes, one for each code. -/
def tokenPairs (c : Tables.CtColumn) : List (Nat × Nat) := (Tables.coeffToken c).map Prod.snd

/-- No pair has two codes. -/
theorem tokenPairs_nodup (c : Tables.CtColumn) : (tokenPairs c).Nodup := by
  cases c <;> decide

theorem tokenPairs_bounds (c : Tables.CtColumn) :
    ∀ p ∈ tokenPairs c, p.2 ≤ min p.1 3 ∧ p.1 ≤ maxTotalCoeff c := by
  cases c <;> decide

theorem mem_tokenPairs_of_bounds (c : Tables.CtColumn) :
    ∀ tc ≤ maxTotalCoeff c, ∀ t1 ≤ min tc 3, (tc, t1) ∈ tokenPairs c := by
  cases c <;> decide

theorem mem_tokenPairs_iff (c : Tables.CtColumn) (tc t1 : Nat) :
    (tc, t1) ∈ tokenPairs c ↔ t1 ≤ min tc 3 ∧ tc ≤ maxTotalCoeff c :=
  ⟨fun h => tokenPairs_bounds c _ h, fun ⟨ht1, htc⟩ => mem_tokenPairs_of_bounds c tc htc t1 ht1⟩

/-- Settles O49: in a list without duplicates a pair counts 1 where it is a member, else 0. -/
theorem everyTokenPairHasOneCode : Obligations.EveryTokenPairHasOneCode := by
  intro c tc t1
  have hcount : ((Tables.coeffToken c).filter fun e => e.2 = (tc, t1)).length = (tokenPairs c).count (tc, t1) := by
    rw [tokenPairs, List.count, List.countP_map, List.countP_eq_length_filter]
    simp only [Function.comp_def, beq_eq_decide]
  rw [hcount, List.Nodup.count (tokenPairs_nodup c)]
  exact if_congr (mem_tokenPairs_iff c tc t1) rfl rfl

/-- The bits that follow `b` in the patterns that begin with it. -/
def patternsAfter (b : Bool) (ps : List (List Bool)) : List (List Bool) :=
  ps.filterMap fun p =>
    match p with
    | [] => none
    | x :: rest => if x = b then some rest else none

/-- Every stream of `n` bits begins with one of these patterns: bit by bit, until a pattern has ended on each branch. -/
def coversStreams : Nat → List (List Bool) → Bool
  | 0, ps => ps.contains []
  | n + 1, ps => ps.contains [] || coversStreams n (patternsAfter false ps) && coversStreams n (patternsAfter true ps)

theorem mem_patternsAfter {b : Bool} {ps : List (List Bool)} {q : List Bool} : q ∈ patternsAfter b ps ↔ b :: q ∈ ps := by
  rw [patternsAfter, List.mem_filterMap]
  constructor
  · rintro ⟨p, hp, hq⟩
    cases p with
    | nil => cases hq
    | cons x rest =>
      dsimp only at hq
      split at hq
      · obtain rfl := Option.some.inj hq
        rename_i hx
        rwa [← hx]
      · cases hq
  · exact fun h => ⟨_, h, if_pos rfl⟩

theorem exists_prefix_of_coversStreams {n : Nat} {ps : List (List Bool)} (h : coversStreams n ps = true) {l : List Bool}
    (hl : n ≤ l.length) : ∃ p ∈ ps, p <+: l := by
  induction n generalizing ps l with
  | zero => exact ⟨[], by simpa [coversStreams] using h, List.nil_prefix⟩
  | succ n ih =>
    rw [coversStreams, Bool.or_eq_true, Bool.and_eq_true] at h
    rcases h with hnil | ⟨hfalse, htrue⟩
    · exact ⟨[], by simpa using hnil, List.nil_prefix⟩
    · cases l with
      | nil => cases hl
      | cons b l =>
        have hb : coversStreams n (patternsAfter b ps) = true := by cases b <;> assumption
        obtain ⟨q, hq, hprefix⟩ := ih hb (Nat.le_of_succ_le_succ hl)
        exact ⟨b :: q, mem_patternsAfter.1 hq, List.cons_prefix_cons.2 ⟨rfl, hprefix⟩⟩

/-- The unused patterns of a coeff_token column (R87). -/
def unusedPatterns : Tables.CtColumn → List (List Bool)
  | .nc0 => [List.replicate 15 false]
  | .nc2 => [List.replicate 13 false]
  | .nc4 => [List.replicate 10 false]
  | .nc8 => [[false, false, false, false, true, false], [false, false, false, true, true, true]]
  | .chroma420 => []
  | .chroma422 =>
    [List.replicate 11 false, List.replicate 10 false ++ [true, false], List.replicate 10 false ++ [true, true, false]]

/-- Codes and unused patterns together leave no stream out. -/
theorem coversStreams_column (c : Tables.CtColumn) :
    coversStreams 16 ((Tables.coeffToken c).map Prod.fst ++ unusedPatterns c) = true := by
  cases c <;> decide

/-- No unused pattern begins a code, nor a code such a pattern. -/
theorem unusedPatterns_absent (c : Tables.CtColumn) : ∀ p ∈ unusedPatterns c, absentFrom p (Tables.coeffToken c) := by
  cases c <;> decide

/-- Settles O50: a stream begins with a code or an unused pattern (`coversStreams_column`), and not with both, since then one of
them would begin the other (`unusedPatterns_absent`). -/
theorem unusedTokenPatterns : Obligations.UnusedTokenPatterns := by
  intro c l hl
  show (∃ e ∈ Tables.coeffToken c, e.1 <+: l) ↔ ¬ ∃ p ∈ unusedPatterns c, p <+: l
  constructor
  · rintro ⟨e, he, hcode⟩ ⟨p, hp, hunused⟩
    obtain ⟨hnot, hnot'⟩ := unusedPatterns_absent c p hp e he
    exact (List.prefix_or_prefix_of_prefix hunused hcode).elim hnot hnot'
  · intro hno
    obtain ⟨p, hp, hprefix⟩ := exists_prefix_of_coversStreams (coversStreams_column c) hl
    rcases List.mem_append.1 hp with hcode | hunused
    · obtain ⟨e, he, rfl⟩ := List.mem_map.1 hcode
      exact ⟨e, he, hprefix⟩
    · exact absurd ⟨p, hunused, hprefix⟩ hno

end Sys2Proof.Machine

/-! The statement of 40_expgolomb.md on bounds: how many bits and requests a command takes at most. It is proved through
`inputsLeft`, a bound on what a phase still takes that every bit read and every request makes smaller. -/

namespace Sys2Proof.Machine

/-! ### How many bits and requests a command still takes (R94, R114, R126) -/

/-- The most bits (R94, R114) or requests (R126) a command takes from its start to its end. -/
def inputLimit : Instr → Nat
  | .cavlcBlock _ _ _ _ => 1153
  | .cabacBlock _ _ _ _ _ => 4863
  | _ => 63

/-- A bound on the bits and requests still taken from a phase on. A level of CAVLC_BLOCK has at most 60 bits (31 zeros, a 1, 28
suffix bits), and 174 bits follow the levels (9 of total_zeros, 11 for each of 15 run_befores). A coefficient of CABAC_BLOCK
has at most 74 bins (14 of the unary part, 30 and 29 of the suffix, a sign). -/
def inputsLeft : Phase → Nat
  | .check none => 0
  | .check (some i) => inputLimit i
  | .bit (.egZeros _ zeros) => 32 + (31 - zeros)
  | .bit (.egSuffix _ _ left _) => 1 + (left - 1)
  | .bit .teBit => 1
  | .bit (.coeffToken code) => 1 + (15 - code.length) + 16 * 60 + 174
  | .bit (.trailingOne i _) => (16 - i) * 60 + 174
  | .bit (.levelZeros i _ zeros) => 1 + (31 - zeros) + 28 + (15 - i) * 60 + 174
  | .bit (.levelSuffix i _ _ left _) => 1 + (left - 1) + (15 - i) * 60 + 174
  | .bit (.totalZeros code) => 1 + (8 - code.length) + 15 * 11
  | .bit (.runBefore i _ code) => 1 + (10 - code.length) + (14 - i) * 11
  | .bin .codedBlockFlag => 1 + 63 * 2 + 64 * 74
  | .bin (.significant i _) => (63 - i) * 2 + 64 * 74
  | .bin (.last i _) => 1 + (62 - i) * 2 + 64 * 74
  | .bin (.absUnary i bin _ _) => (14 - bin) + 60 + i * 74
  | .bin (.sufUnary i k _ _ _) => 1 + (29 - k) + 30 + i * 74
  | .bin (.sufBits i k _ _ _) => 1 + (k - 1) + 1 + i * 74
  | .bin (.sign i _ _ _) => 1 + i * 74
  | .place _ _ => 0
  | .commit => 0
  | .abort _ => 0

section
variable {r : Run}

/-! ### The four reads -/

theorem inputsLeft_afterEgZeros (kind : EgKind) {zeros : Nat} (hz : zeros ≤ 31) (b : Bool) :
    inputsLeft (afterEgZeros kind zeros b r).phase < inputsLeft (.bit (.egZeros kind zeros)) := by
  unfold afterEgZeros
  split
  · split
    · simp only [egDone_phase, inputsLeft]
      omega
    · simp only [Run.goto_phase, inputsLeft]
      omega
  · split
    · simp only [Run.raise_phase, inputsLeft]
      omega
    · rename_i z hcount
      obtain ⟨rfl, hle⟩ := countZero_eq_some hcount
      simp only [Run.goto_phase, inputsLeft]
      omega

theorem inputsLeft_afterEgSuffix (kind : EgKind) (zeros left acc : Nat) (b : Bool) :
    inputsLeft (afterEgSuffix kind zeros left acc b r).phase < inputsLeft (.bit (.egSuffix kind zeros left acc)) := by
  unfold afterEgSuffix
  split
  · simp only [egDone_phase, inputsLeft]
    omega
  · simp only [Run.goto_phase, inputsLeft]
    omega

/-! ### CAVLC_BLOCK -/

theorem inputsLeft_nextRun (htc : r.tc ≤ 16) (i zl : Nat) : inputsLeft (nextRun i zl r).phase ≤ (15 - i) * 11 := by
  unfold nextRun
  split
  · simp only [Run.goto_phase, inputsLeft, List.length_nil]
    omega
  · exact Nat.zero_le _

theorem inputsLeft_withTotalZeros (htc : r.tc ≤ 16) (tz : Nat) : inputsLeft (withTotalZeros tz r).phase ≤ 15 * 11 := by
  unfold withTotalZeros
  split
  · exact Nat.zero_le _
  · refine inputsLeft_nextRun ?_ 0 tz
    exact htc

theorem inputsLeft_nextLevel (htc : r.tc ≤ 16) (i sl : Nat) : inputsLeft (nextLevel i sl r).phase ≤ (16 - i) * 60 + 174 := by
  unfold nextLevel
  split
  · split
    · exact le_rfl
    · simp only [Run.goto_phase, inputsLeft]
      omega
  · split
    · exact Nat.le_add_left _ _
    · have := inputsLeft_withTotalZeros htc 0
      omega

theorem inputsLeft_afterRunBefore (htc : r.tc ≤ 16) {i : Nat} (hi : i + 1 < r.tc) (zl : Nat) (code : List Bool) (b : Bool) :
    inputsLeft (afterRunBefore i zl code b r).phase < inputsLeft (.bit (.runBefore i zl code)) := by
  unfold afterRunBefore
  split
  · rename_i hmore
    have hlen := readVlc_more_length hmore (runBefore_code_length zl)
    simp only [Run.goto_phase, inputsLeft, List.length_append, List.length_singleton]
    omega
  · simp only [Run.raise_phase, inputsLeft]
    omega
  · dsimp only
    split
    · simp only [Run.raise_phase, inputsLeft]
      omega
    · refine (inputsLeft_nextRun ?_ (i + 1) _).trans_lt ?_
      · exact htc
      · simp only [inputsLeft]
        omega

theorem inputsLeft_afterTotalZeros (htc : r.tc ≤ 16) (code : List Bool) (b : Bool) :
    inputsLeft (afterTotalZeros code b r).phase < inputsLeft (.bit (.totalZeros code)) := by
  unfold afterTotalZeros
  split
  · rename_i hmore
    have hlen := readVlc_more_length hmore (totalZeros_code_length _ _)
    simp only [Run.goto_phase, inputsLeft, List.length_append, List.length_singleton]
    omega
  · simp only [Run.raise_phase, inputsLeft]
    omega
  · refine (inputsLeft_withTotalZeros htc _).trans_lt ?_
    simp only [inputsLeft]
    omega

theorem inputsLeft_afterTrailingOne (htc : r.tc ≤ 16) {i : Nat} (hi : i < r.tc) (sl : Nat) (b : Bool) :
    inputsLeft (afterTrailingOne i sl b r).phase < inputsLeft (.bit (.trailingOne i sl)) := by
  refine (inputsLeft_nextLevel ?_ (i + 1) sl).trans_lt ?_
  · exact htc
  · simp only [inputsLeft]
    omega

theorem inputsLeft_levelDone (htc : r.tc ≤ 16) (i sl p suf : Nat) :
    inputsLeft (levelDone i sl p suf r).phase ≤ (15 - i) * 60 + 174 := by
  refine (inputsLeft_nextLevel ?_ (i + 1) _).trans ?_
  · exact htc
  · omega

theorem inputsLeft_afterLevelZeros (htc : r.tc ≤ 16) (i : Nat) {sl zeros : Nat} (hsl : sl ≤ 6) (hz : zeros ≤ 31) (b : Bool) :
    inputsLeft (afterLevelZeros i sl zeros b r).phase < inputsLeft (.bit (.levelZeros i sl zeros)) := by
  have hsize := levelSuffixSize_le hz hsl
  unfold afterLevelZeros
  split
  · dsimp only
    split
    · refine (inputsLeft_levelDone ?_ i sl zeros 0).trans_lt ?_
      · exact htc
      · simp only [inputsLeft]
        omega
    · simp only [Run.goto_phase, inputsLeft]
      omega
  · split
    · simp only [Run.raise_phase, inputsLeft]
      omega
    · rename_i z hcount
      obtain ⟨rfl, hle⟩ := countZero_eq_some hcount
      simp only [Run.goto_phase, inputsLeft]
      omega

theorem inputsLeft_afterLevelSuffix (htc : r.tc ≤ 16) (i sl zeros left acc : Nat) (b : Bool) :
    inputsLeft (afterLevelSuffix i sl zeros left acc b r).phase < inputsLeft (.bit (.levelSuffix i sl zeros left acc)) := by
  unfold afterLevelSuffix
  split
  · refine (inputsLeft_levelDone htc i sl zeros (shiftIn acc b)).trans_lt ?_
    simp only [inputsLeft]
    omega
  · simp only [Run.goto_phase, inputsLeft]
    omega

theorem inputsLeft_withToken {tc : Nat} (htc : tc ≤ 16) (t1 : Nat) :
    inputsLeft (withToken tc t1 r).phase ≤ 16 * 60 + 174 := by
  have hword : (BitVec.ofNat 32 tc : Word).toNat ≤ 16 := (Nat.mod_le _ _).trans htc
  unfold withToken
  split
  · exact Nat.zero_le _
  · dsimp only
    split
    · exact Nat.zero_le _
    · refine inputsLeft_nextLevel ?_ 0 _
      exact hword

theorem inputsLeft_afterCoeffToken (code : List Bool) (b : Bool) :
    inputsLeft (afterCoeffToken code b r).phase < inputsLeft (.bit (.coeffToken code)) := by
  unfold afterCoeffToken
  split
  · rename_i hmore
    have hlen := readVlc_more_length hmore (n := 16) fun e he => by
      obtain ⟨c, hc⟩ := mem_tokenTable he
      exact coeffToken_code_length c e hc
    simp only [Run.goto_phase, inputsLeft, List.length_append, List.length_singleton]
    omega
  · simp only [Run.raise_phase, inputsLeft]
    omega
  · rename_i tc t1 hfound
    obtain ⟨c, hc⟩ := mem_tokenTable (readVlc_found hfound)
    obtain ⟨-, -, -, h16⟩ := token_bounds hc
    refine (inputsLeft_withToken h16 t1).trans_lt ?_
    simp only [inputsLeft]
    omega

/-! ### CABAC_BLOCK -/

theorem inputsLeft_nextCoef (n g e : Nat) : inputsLeft (nextCoef n g e r).phase ≤ n * 74 := by
  unfold nextCoef
  split
  · rename_i i hi
    obtain ⟨-, hlt, -⟩ := nextSignificant_eq_some hi
    simp only [Run.goto_phase, inputsLeft]
    omega
  · exact Nat.zero_le _

theorem inputsLeft_scanFrom (i : Nat) {n : Nat} (hn : 0 < n) (hle : n ≤ 64) :
    inputsLeft (scanFrom i n r).phase ≤ (63 - i) * 2 + 64 * 74 := by
  unfold scanFrom
  split
  · exact le_rfl
  · refine (inputsLeft_nextCoef (n - 1 + 1) 0 0).trans ?_
    omega

theorem inputsLeft_afterSignificant {i n : Nat} (hi : i + 1 < n) (hn : n ≤ 64) (b : Bool) :
    inputsLeft (afterSignificant i n b r).phase < inputsLeft (.bin (.significant i n)) := by
  unfold afterSignificant
  split
  · simp only [Run.goto_phase, inputsLeft]
    omega
  · refine (inputsLeft_scanFrom (i + 1) (by omega) hn).trans_lt ?_
    simp only [inputsLeft]
    omega

theorem inputsLeft_afterLast {i n : Nat} (hi : i + 1 < n) (hn : n ≤ 64) (b : Bool) :
    inputsLeft (afterLast i n b r).phase < inputsLeft (.bin (.last i n)) := by
  have hscan : ∀ m r', 0 < m → m ≤ 64 →
      inputsLeft (scanFrom (i + 1) m r').phase < inputsLeft (.bin (.last i n)) := fun m r' hm hle => by
    refine (inputsLeft_scanFrom (i + 1) hm hle).trans_lt ?_
    simp only [inputsLeft]
    omega
  unfold afterLast
  split
  · exact hscan _ _ (by omega) (by omega)
  · exact hscan _ _ (by omega) hn

theorem inputsLeft_withCbf (b : Bool) : inputsLeft (withCbf b r).phase ≤ 63 * 2 + 64 * 74 := by
  unfold withCbf
  dsimp only
  split
  · refine (inputsLeft_scanFrom _ (Nat.succ_pos _) r.stop_lt).trans ?_
    omega
  · exact Nat.zero_le _

theorem inputsLeft_afterAbsUnary (i : Nat) {bin : Nat} (hbin : bin < 14) (g e : Nat) (b : Bool) :
    inputsLeft (afterAbsUnary i bin g e b r).phase < inputsLeft (.bin (.absUnary i bin g e)) := by
  unfold afterAbsUnary
  split
  · split
    all_goals
      simp only [Run.goto_phase, inputsLeft]
      omega
  · simp only [Run.goto_phase, inputsLeft]
    omega

theorem inputsLeft_afterSufUnary (i : Nat) {k : Nat} (hk : k ≤ 29) (suf g e : Nat) (b : Bool) :
    inputsLeft (afterSufUnary i k suf g e b r).phase < inputsLeft (.bin (.sufUnary i k suf g e)) := by
  unfold afterSufUnary
  split
  · split
    · simp only [Run.raise_phase, inputsLeft]
      omega
    · rename_i hnext
      have hlt : k + 1 ≤ 29 := Nat.le_of_not_lt hnext
      simp only [Run.goto_phase, inputsLeft]
      omega
  · split
    · simp only [Run.goto_phase, inputsLeft]
      omega
    · simp only [Run.goto_phase, inputsLeft]
      omega

theorem inputsLeft_afterSufBits (i k suf g e : Nat) (b : Bool) :
    inputsLeft (afterSufBits i k suf g e b r).phase < inputsLeft (.bin (.sufBits i k suf g e)) := by
  unfold afterSufBits
  dsimp only
  split
  · simp only [Run.goto_phase, inputsLeft]
    omega
  · simp only [Run.goto_phase, inputsLeft]
    omega

theorem inputsLeft_afterSign (i v g e : Nat) (b : Bool) :
    inputsLeft (afterSign i v g e b r).phase < inputsLeft (.bin (.sign i v g e)) := by
  refine (inputsLeft_nextCoef i _ _).trans_lt ?_
  simp only [inputsLeft]
  omega

/-! ### One step of a command -/

theorem inputsLeft_checkCommand (rule : CbfRule) (c : Option Instr) :
    inputsLeft (checkCommand rule c r).phase ≤ inputsLeft (.check c) := by
  cases c with
  | none => exact le_rfl
  | some i =>
    rw [checkCommand]
    split
    · cases i with
      | readUe | readSe | readCe => exact le_rfl
      | readTe =>
        show inputsLeft (beginReadTe r).phase ≤ 63
        unfold beginReadTe
        split
        · exact Nat.le_add_left 1 62
        · exact le_rfl
      | cavlcBlock => exact Nat.le_add_left 1150 3
      | cabacBlock =>
        show inputsLeft (beginCabac rule r).phase ≤ 4863
        unfold beginCabac
        split
        · exact (inputsLeft_withCbf true).trans (Nat.le_add_left _ 1)
        · exact le_rfl
    · exact Nat.zero_le _

/-- What is true of a read in a phase that reads a bit does not depend on the working position. -/
theorem readAt_advance {p : BitPhase} (h : ReadAt r (.bit p)) : ReadAt { r with pos := r.pos + 1 } (.bit p) := by
  cases p <;> exact h

/-- A bit read leaves fewer to come. -/
theorem inputsLeft_afterBit {p : BitPhase} (h : ReadAt r (.bit p) ∨ CavlcAt r (.bit p)) (b : Bool) :
    inputsLeft (afterBit p b r).phase < inputsLeft (.bit p) := by
  rcases h with h | h
  · cases p with
    | egZeros kind zeros => exact inputsLeft_afterEgZeros kind h.2 b
    | egSuffix kind zeros left acc => exact inputsLeft_afterEgSuffix kind zeros left acc b
    | teBit => exact Nat.zero_lt_one
    | coeffToken | trailingOne | levelZeros | levelSuffix | totalZeros | runBefore => exact absurd h id
  · cases p with
    | coeffToken code => exact inputsLeft_afterCoeffToken code b
    | trailingOne i sl =>
      obtain ⟨h, hi, -⟩ := h
      exact inputsLeft_afterTrailingOne h.tc_le hi sl b
    | levelZeros i sl zeros =>
      obtain ⟨h, -, hsl, hz⟩ := h
      exact inputsLeft_afterLevelZeros h.tc_le i hsl hz b
    | levelSuffix i sl zeros left acc =>
      obtain ⟨h, -⟩ := h
      exact inputsLeft_afterLevelSuffix h.tc_le i sl zeros left acc b
    | totalZeros code => exact inputsLeft_afterTotalZeros h.tc_le code b
    | runBefore i zl code =>
      obtain ⟨h, hi⟩ := h
      exact inputsLeft_afterRunBefore h.tc_le hi zl code b
    | egZeros | egSuffix | teBit => exact absurd h id

/-- A bin answered leaves fewer requests to come. -/
theorem inputsLeft_afterBin {p : BinPhase} (h : CabacAt r (.bin p)) (b : Bool) :
    inputsLeft (afterBin p b r).phase < inputsLeft (.bin p) := by
  have hstop : r.block.stop + 1 ≤ 64 := r.stop_lt
  cases p with
  | codedBlockFlag =>
    refine (inputsLeft_withCbf b).trans_lt ?_
    simp only [inputsLeft]
    omega
  | significant i n =>
    obtain ⟨-, -, hi, rfl⟩ := h
    exact inputsLeft_afterSignificant hi hstop b
  | last i n =>
    obtain ⟨-, -, hi, rfl⟩ := h
    exact inputsLeft_afterLast hi hstop b
  | absUnary i bin g e =>
    obtain ⟨-, -, hbin⟩ := h
    exact inputsLeft_afterAbsUnary i hbin g e b
  | sufUnary i k suf g e =>
    obtain ⟨-, -, hk, -⟩ := h
    exact inputsLeft_afterSufUnary i hk suf g e b
  | sufBits i k suf g e => exact inputsLeft_afterSufBits i k suf g e b
  | sign i v g e => exact inputsLeft_afterSign i v g e b

/-- What is known of a running command of one of the three kinds. -/
def CommandInv (r : Run) : Prop := ReadInv r ∨ CavlcInv r ∨ CabacInv r

theorem CommandInv.bit {p : BitPhase} (h : CommandInv r) (hp : r.phase = .bit p) : ReadAt r (.bit p) ∨ CavlcAt r (.bit p) := by
  rcases h with ⟨-, hat⟩ | ⟨-, hat⟩ | ⟨-, hat⟩ <;> rw [hp] at hat
  · exact .inl hat
  · exact .inr hat
  · exact absurd hat id

theorem CommandInv.bin {p : BinPhase} (h : CommandInv r) (hp : r.phase = .bin p) : CabacAt r (.bin p) := by
  rcases h with ⟨-, hat⟩ | ⟨-, hat⟩ | ⟨-, hat⟩ <;> rw [hp] at hat
  · exact absurd hat id
  · exact absurd hat id
  · exact hat

/-- The bits and requests taken, and those that may still come, are together at most `n`. -/
def WithinLimit (n : Nat) (r : Run) : Prop := r.pos + r.reqs + inputsLeft r.phase ≤ r.posStart.toNat + n

/-- A step that takes nothing. -/
theorem WithinLimit.of_keeps {n : Nat} {r' : Run} (h : WithinLimit n r) (hk : Keeps r r')
    (hleft : inputsLeft r'.phase ≤ inputsLeft r.phase) : WithinLimit n r' := by
  unfold WithinLimit at h ⊢
  rw [hk.pos, hk.reqs, hk.posStart]
  omega

/-- A step that takes a bit. -/
theorem WithinLimit.of_bit {n : Nat} {r' : Run} (h : WithinLimit n r) (hk : Keeps { r with pos := r.pos + 1 } r')
    (hleft : inputsLeft r'.phase < inputsLeft r.phase) : WithinLimit n r' := by
  unfold WithinLimit at h ⊢
  rw [hk.pos, hk.reqs, hk.posStart]
  dsimp only
  omega

/-- A step that takes a request. -/
theorem WithinLimit.of_bin {n : Nat} {r' : Run} (h : WithinLimit n r) (hk : Keeps { r with reqs := r.reqs + 1 } r')
    (hleft : inputsLeft r'.phase < inputsLeft r.phase) : WithinLimit n r' := by
  unfold WithinLimit at h ⊢
  rw [hk.pos, hk.reqs, hk.posStart]
  dsimp only
  omega

theorem withinLimit_advances {n : Nat} {rule : CbfRule} {r' : Run} (hinv : CommandInv r) (h : WithinLimit n r)
    (hadv : Advances rule r r') : WithinLimit n r' := by
  cases hadv with
  | @check c hp =>
    refine h.of_keeps (goes_checkCommand rule c r).1 ?_
    rw [hp]
    exact inputsLeft_checkCommand rule c
  | @bit p hp b =>
    refine h.of_bit (goes_afterBit p b _).1 ?_
    rw [hp]
    refine inputsLeft_afterBit ?_ b
    exact (hinv.bit hp).imp readAt_advance cavlcAt_advance
  | endOfStream hp => exact h.of_keeps (keeps_raise _ r) (Nat.zero_le _)
  | @bin p hp b =>
    refine h.of_bin (goes_afterBin p b _).1 ?_
    rw [hp]
    exact inputsLeft_afterBin (cabacAt_ask (hinv.bin hp)) b
  | @exhausted p hp =>
    refine h.of_bin (keeps_raise _ _) ?_
    rw [hp]
    exact (Nat.zero_le _).trans_lt (inputsLeft_afterBin (hinv.bin hp) false)
  | @place n c hp =>
    refine h.of_keeps (goes_placeStep n c r).1 ?_
    rw [hp]
    cases n <;> exact le_rfl

end

/-- A command that commits publishes a staging copy, and its bits and requests keep to its limit. -/
theorem exec_withinLimit {s t : State} {i : Instr} (hidle : s.run = none) (ht : exec i s = .next t)
    (hv : t.status.valid = true) {P : Run → Prop} (hinv : ∀ r, P r → CommandInv r)
    (hP : ∀ r r', P r → Advances s.cbfRule r r' → P r') (hstart : P (freshRun (encode i) (some i) s)) :
    ∃ r, P r ∧ r.phase = .commit ∧ t.results = r.staged ∧ r.pos - r.posStart.toNat ≤ inputLimit i ∧ r.reqs ≤ inputLimit i := by
  obtain ⟨r, eng, ⟨hr, hlimit⟩, hunder, hleaves⟩ := exec_leaves hidle ht (P := fun r => P r ∧ WithinLimit (inputLimit i) r)
    (fun r r' h hadv => ⟨hP r r' h.1 hadv, withinLimit_advances (hinv r h.1) h.2 hadv⟩)
    ⟨hstart, le_rfl⟩
  obtain ⟨hp, hresults, -⟩ := hleaves.of_valid hv
  have hpos : r.posStart.toNat ≤ r.pos := hunder.posStart ▸ hunder.pos_ge
  unfold WithinLimit at hlimit
  exact ⟨r, hr, hp, hresults, by omega, by omega⟩

/-- A word that holds a bounded number is bounded. -/
theorem toNat_ofNat_le {k n : Nat} (h : k ≤ n) : (BitVec.ofNat 32 k : Word).toNat ≤ n := (Nat.mod_le _ _).trans h

/-- Settles O28: BITS and REQS hold what the command took, which `WithinLimit` bounds at every point of it. -/
theorem commandsAreBounded : Obligations.CommandsAreBounded := by
  intro s t i hidle _ ht hv
  refine ⟨fun hread => ?_, ?_, ?_⟩
  · obtain ⟨r, ⟨-, hat⟩, hp, hresults, hbits, -⟩ := exec_withinLimit hidle ht hv (P := ReadInv) (fun _ => .inl)
      (fun _ _ h hadv => (readInv_advances h hadv).1) ⟨rfl, rfl, i, rfl, hread⟩
    rw [hp] at hat
    have hstaged : r.staged.bits = BitVec.ofNat 32 (r.pos - r.posStart.toNat) := congrArg Results.bits hat
    rw [hresults, hstaged]
    refine toNat_ofNat_le (hbits.trans_eq ?_)
    rcases hread with rfl | rfl | rfl | rfl <;> rfl
  · rintro ⟨start, stop, maxc, btype, rfl⟩
    obtain ⟨r, ⟨-, hat⟩, hp, hresults, hbits, -⟩ := exec_withinLimit hidle ht hv (P := CavlcInv) (fun _ h => .inr (.inl h))
      (fun _ _ h hadv => (cavlcInv_advances h hadv).1) ⟨rfl, rfl, start, stop, maxc, btype, rfl⟩
    rw [hp] at hat
    obtain ⟨-, hstaged⟩ := hat
    rw [hresults, hstaged]
    exact toNat_ofNat_le hbits
  · rintro ⟨start, stop, maxc, btype, cat, rfl⟩
    obtain ⟨r, ⟨-, hat⟩, hp, hresults, -, hreqs⟩ := exec_withinLimit hidle ht hv (P := CabacInv) (fun _ h => .inr (.inr h))
      (fun _ _ h hadv => cabacInv_advances h hadv) ⟨rfl, rfl, start, stop, maxc, btype, cat, rfl, rfl⟩
    rw [hp] at hat
    obtain ⟨-, hstaged, -⟩ := hat
    rw [hresults, hstaged]
    exact toNat_ofNat_le hreqs

end Sys2Proof.Machine

/-! The statements of 41_cavlc.md: what CAVLC_BLOCK commits, the fields that make it abort, and the arithmetic of levels and
suffixLength. -/

namespace Sys2Proof.Machine

/-! ### A token without coefficients (R98) -/

/-- At a code of its column, a coeff_token is read. -/
theorem reads_token {r : Run} {c : Tables.CtColumn} {token : List Bool} {tc t1 : Nat}
    (hc : Tables.tableSelect r.nC = some c) (hm : (token, (tc, t1)) ∈ Tables.coeffToken c)
    (hp : r.phase = .bit (.coeffToken [])) :
    ∃ q, Reads r token (withToken tc t1 { r with pos := r.pos + token.length, phase := q }) := by
  have htable : r.tokenTable = Tables.coeffToken c := by rw [Run.tokenTable, hc]
  obtain ⟨q, hreads⟩ := reads_vlc (tablesFree.token r) (vlcPhase_coeffToken r) token [] r.pos
    (by rw [htable]; exact hm) (token_bounds hm).1
  rw [← hp] at hreads
  exact ⟨q, hreads⟩

/-- TC = 0 is the end of the block, whatever the span. -/
theorem withToken_zero (r : Run) :
    withToken 0 0 r = (r.stage fun S => { S with value := 0, totalcoeff := 0, trailingones := 0 }).finishBits := by
  rw [withToken, if_neg (Nat.not_lt_zero _)]
  rfl

/-- Settles O41: the command commits right after the token, with BITS alone staged. -/
theorem cavlcZeroTokenGivesAZeroBlock : Obligations.CavlcZeroTokenGivesAZeroBlock := by
  intro s start stop maxc btype c token hidle hfits hlegal hc hm hstream
  obtain ⟨q, hreads⟩ := reads_token (r := cavlcRun start stop maxc btype s) hc hm rfl
  rw [withToken_zero] at hreads
  have hlen := coeffToken_code_length c _ hm
  have hrun := runCommand_reads (m := 0) hidle hfits hlegal hreads hstream (fun _ => rfl) rfl rfl
    ((Nat.add_le_add_right hlen 2).trans (by decide))
  rw [exec_eq_runCommand, hrun]
  congr 2
  show ({ Results.zero with bits := BitVec.ofNat 32 (s.pos.toNat + token.length - s.pos.toNat) } : Results) = _
  rw [Nat.add_sub_cancel_left]

/-! ### The runs and levels of a block, one for each coefficient (R100 to R109) -/

theorem levelValues_length (lv : List (Nat × List Bool)) (sl : Nat) (first : Bool) :
    (levelValues sl first lv).length = lv.length := by
  induction lv generalizing sl first with
  | nil => rfl
  | cons c lv ih => rw [levelValues, List.length_cons, List.length_cons, ih]

/-- The runs that are coded take no more than the zeros left (R110). -/
theorem runSum_le (rs : List (List Bool × Nat)) {zl : Nat} (h : runsOk zl rs = true) : (rs.map Prod.snd).sum ≤ zl := by
  induction rs generalizing zl with
  | nil => exact Nat.zero_le _
  | cons c rs ih =>
    obtain ⟨code, run⟩ := c
    simp only [runsOk, Bool.and_eq_true] at h
    obtain ⟨hcode, hrest⟩ := h
    have hrun : run ≤ zl := by
      split at hcode
      · obtain ⟨-, rfl⟩ := of_decide_eq_true hcode
        exact Nat.zero_le _
      · exact (of_decide_eq_true hcode).2
    have := ih hrest
    rw [List.map_cons, List.sum_cons]
    omega

section
variable {f : CavlcFields} {nC : Int} {m count : Nat}

theorem allLevels_length (h : f.ok nC m count = true) : f.allLevels.length = f.tc := by
  obtain ⟨hhead, hlv, -⟩ := ok_iff.1 h
  obtain ⟨⟨c, -, hm⟩, -, hsigns, -⟩ := headOk_iff.1 hhead
  obtain ⟨-, hle, -⟩ := token_bounds hm
  rw [CavlcFields.allLevels, List.length_append, List.length_map, levelValues_length]
  omega

theorem allRuns_length (h : f.ok nC m count = true) : f.allRuns.length = f.tc := by
  obtain ⟨-, -, -, hruns, -⟩ := ok_iff.1 h
  rw [CavlcFields.allRuns]
  split
  · rename_i h0
    rw [h0]
    rfl
  · rw [List.length_append, List.length_map, hruns]
    exact Nat.sub_add_cancel (by omega)

/-- No run is longer than TZ. -/
theorem allRuns_le (h : f.ok nC m count = true) : ∀ n ∈ f.allRuns, n ≤ f.tz := by
  obtain ⟨-, -, -, -, hruns⟩ := ok_iff.1 h
  intro n hn
  rw [CavlcFields.allRuns] at hn
  split at hn
  · cases hn
  · rcases List.mem_append.1 hn with hn | hn
    · exact (List.single_le_sum (fun _ _ => Nat.zero_le _) n hn).trans (runSum_le f.runs hruns)
    · rw [List.mem_singleton.1 hn]
      exact Nat.sub_le _ _

theorem tc_le_sixteen (h : f.ok nC m count = true) : f.tc ≤ 16 := by
  obtain ⟨hhead, -⟩ := ok_iff.1 h
  obtain ⟨⟨c, -, hm⟩, -⟩ := headOk_iff.1 hhead
  obtain ⟨-, -, -, h16⟩ := token_bounds hm
  exact h16

end

/-! ### Placement (R111) -/

/-- The number of positions that the coefficients from `i` on take. -/
def CavlcFields.positions (f : CavlcFields) (i : Nat) : Nat := ((f.allRuns.drop i).map (· + 1)).sum

theorem CavlcFields.index_eq (f : CavlcFields) (start i : Nat) : f.index start i = start + f.positions i - 1 := rfl

theorem positions_succ {f : CavlcFields} {i : Nat} (hi : i < f.allRuns.length) :
    f.positions i = f.allRuns.getD i 0 + 1 + f.positions (i + 1) := by
  rw [CavlcFields.positions, List.drop_eq_getElem_cons hi, List.map_cons, List.sum_cons, List.getD_eq_getElem _ _ hi]
  rfl

theorem coefAt_eq (f : CavlcFields) (start j : Nat) :
    f.coefAt start j = ((List.range f.tc).find? fun i => f.index start i == j).elim 0 fun i => f.allLevels.getD i 0 := by
  unfold CavlcFields.coefAt
  cases (List.range f.tc).find? fun i => f.index start i == j <;> rfl

/-- COEF where the coefficients from `left` on are placed: of two placed at one index, the later one, which is the lower, stays. -/
def CavlcFields.coefFrom (f : CavlcFields) (start left : Nat) : Vector Word 64 :=
  Vector.ofFn fun j =>
    BitVec.ofInt 32
      (((List.range' left (f.tc - left)).find? fun i => f.index start i == j.val).elim 0 fun i => f.allLevels.getD i 0)

theorem coefFrom_tc (f : CavlcFields) (start : Nat) : f.coefFrom start f.tc = Vector.replicate 64 0 := by
  ext j hj
  simp [CavlcFields.coefFrom]

theorem coefFrom_zero (f : CavlcFields) (start : Nat) :
    f.coefFrom start 0 = Vector.ofFn fun j => BitVec.ofInt 32 (f.coefAt start j.val) := by
  simp only [CavlcFields.coefFrom, coefAt_eq, Nat.sub_zero, List.range_eq_range']

/-- Coefficient `i` is placed after those above it. -/
theorem coefFrom_succ {f : CavlcFields} {i : Nat} (hi : i < f.tc) (start : Nat) :
    (f.coefFrom start (i + 1)).setIfInBounds (f.index start i) (BitVec.ofInt 32 (f.allLevels.getD i 0))
      = f.coefFrom start i := by
  have hrange : List.range' i (f.tc - i) = i :: List.range' (i + 1) (f.tc - (i + 1)) := by
    rw [show f.tc - i = f.tc - (i + 1) + 1 by omega, List.range'_succ]
  apply Vector.ext
  intro j hj
  rw [Vector.getElem_setIfInBounds hj, CavlcFields.coefFrom, CavlcFields.coefFrom, Vector.getElem_ofFn,
    Vector.getElem_ofFn, hrange]
  by_cases h : f.index start i = j
  · rw [if_pos h, List.find?_cons_of_pos (by simpa using h)]
    rfl
  · rw [if_neg h, List.find?_cons_of_neg (by simpa using h)]

/-- The staging copy holds the runs and levels of the block's coefficients. -/
structure Unplaced (f : CavlcFields) (S : Results) : Prop where
  allRuns : f.allRuns.length = f.tc
  run : ∀ i < f.tc, (S.run.getD i 0).toNat = f.allRuns.getD i 0
  level : ∀ i < f.tc, S.level.getD i 0 = BitVec.ofInt 32 (f.allLevels.getD i 0)

/-- The running command with the coefficients from `left` on placed in the staging copy `S`. -/
def CavlcFields.placing (f : CavlcFields) (r : Run) (n : Nat) (S : Results) (left : Nat) : Run :=
  r.at n { S with coef := f.coefFrom r.block.start left } (.place left ((f.positions left : Int) - 1))

/-- One placement: `c` is the coefficient's place in the span. -/
theorem placeStep_succ (i : Nat) (coeffNum c : Int) (r : Run) (n : Nat) (S : Results) (p : Phase)
    (hc : coeffNum + (S.run.getD i 0).toNat + 1 = c) :
    placeStep (i + 1) coeffNum (r.at n S p)
      = r.at n { S with coef := S.coef.setIfInBounds (r.block.start + c).toNat (S.level.getD i 0) } (.place i c) := by
  subst hc
  rfl

section
variable {f : CavlcFields} {S : Results}

/-- One coefficient more is placed. -/
theorem placeStep_placing (h : Unplaced f S) {i : Nat} (hi : i < f.tc) (r : Run) (n : Nat) :
    placeStep (i + 1) ((f.positions (i + 1) : Int) - 1) (f.placing r n S (i + 1)) = f.placing r n S i := by
  have hpos := positions_succ (h.allRuns ▸ hi)
  have hnum : (f.positions (i + 1) : Int) - 1 + (S.run.getD i 0).toNat + 1 = (f.positions i : Int) - 1 := by
    rw [h.run i hi]
    omega
  have hindex : ((r.block.start : Int) + ((f.positions i : Int) - 1)).toNat = f.index r.block.start i := by
    rw [f.index_eq]
    omega
  refine (placeStep_succ i _ _ r n { S with coef := f.coefFrom r.block.start (i + 1) } _ hnum).trans ?_
  dsimp only
  rw [hindex, h.level i hi, coefFrom_succ hi, CavlcFields.placing]

/-- All coefficients are placed, from the last one down to the first. -/
theorem iterate_placing (h : Unplaced f S) (r : Run) (n left : Nat) (hleft : left ≤ f.tc) (u : State) :
    coreStep^[left] { u with run := some (f.placing r n S left) } = { u with run := some (f.placing r n S 0) } := by
  induction left with
  | zero => rfl
  | succ i ih =>
    rw [Function.iterate_succ_apply, coreStep_place (s := { u with run := _ }) rfl rfl, placeStep_placing h hleft]
    exact ih (Nat.le_of_succ_le hleft)

end

/-! ### A whole block (R95 to R112) -/

/-- The staging copy when placement begins. -/
def CavlcFields.runsKnown (f : CavlcFields) : Results :=
  { runsStaged f.zerosStaged f.runs with run := wordsOf (f.allRuns.map (BitVec.ofNat 32)) }

section
variable {f : CavlcFields}

theorem wordsOf_getD_map {α : Type} {l : List α} {i : Nat} (hi : i < l.length) (h16 : i < 16) (g : α → Word) (d : α) :
    (wordsOf (l.map g) : Vector Word 16).getD i 0 = g (l.getD i d) := by
  have hget := getD_fin (wordsOf (l.map g) : Vector Word 16) ⟨i, h16⟩
  rw [hget]
  show (wordsOf (l.map g) : Vector Word 16)[i] = _
  rw [wordsOf_get _ _ h16, List.getD_eq_getElem _ _ (by rwa [List.length_map]), List.getElem_map,
    List.getD_eq_getElem _ _ hi]

theorem unplaced_runsKnown {nC : Int} {m count : Nat} (h : f.ok nC m count = true) (hcount : count ≤ 64) :
    Unplaced f f.runsKnown := by
  have h16 := tc_le_sixteen h
  have hruns := allRuns_length h
  have hlevels := allLevels_length h
  obtain ⟨-, -, hzeros, -⟩ := ok_iff.1 h
  obtain ⟨-, hroom⟩ := zerosOk_iff.1 hzeros
  refine ⟨hruns, fun i hi => ?_, fun i hi => ?_⟩
  · have hle : f.allRuns.getD i 0 ≤ f.tz := by
      rw [List.getD_eq_getElem _ _ (by omega)]
      exact allRuns_le h _ (List.getElem_mem _)
    show ((wordsOf (f.allRuns.map (BitVec.ofNat 32)) : Vector Word 16).getD i 0).toNat = _
    rw [wordsOf_getD_map (by omega) (by omega) _ 0, BitVec.toNat_ofNat]
    omega
  · exact wordsOf_getD_map (by omega) (by omega) _ 0

theorem headStaged_tc (h : f.tc ≤ 16) : f.headStaged.totalcoeff.toNat = f.tc := Nat.mod_eq_of_lt (by omega)

/-- The bits of a block with coefficients lead to its placement. -/
theorem reads_to_placement {r : Run} (h : f.ok r.nC r.block.maxc r.count = true) (htc : 0 < f.tc)
    (hp : r.phase = .bit (.coeffToken [])) (hS : r.staged = Results.zero) :
    Reads r f.bits (f.placing r (r.pos + f.bits.length) f.runsKnown f.tc) := by
  have h16 := tc_le_sixteen h
  obtain ⟨hhead, hlv, hzeros, hruns, hrunsOk⟩ := ok_iff.1 h
  obtain ⟨q, hreads⟩ := reads_fields tablesFree hhead htc hlv hzeros hruns.le hrunsOk hp hS
  have htcStaged : (runsStaged f.zerosStaged f.runs).totalcoeff.toNat = f.tc := headStaged_tc h16
  have hrun : (runsStaged f.zerosStaged f.runs).run.setIfInBounds (f.tc - 1) (BitVec.ofNat 32 (f.tz - f.runSum))
      = wordsOf (f.allRuns.map (BitVec.ofNat 32)) := by
    have hset := wordsOf_set (n := 16) (f.runs.map fun c => BitVec.ofNat 32 c.2) (BitVec.ofNat 32 (f.tz - f.runSum))
    rw [List.length_map, hruns] at hset
    rw [CavlcFields.allRuns, if_neg (by omega), List.map_append, List.map_map]
    exact hset
  have hlast : nextRun f.runs.length (f.tz - f.runSum)
      (r.at (r.pos + f.bits.length) (runsStaged f.zerosStaged f.runs) q)
      = f.placing r (r.pos + f.bits.length) f.runsKnown f.tc := by
    have hnone : f.positions f.tc = 0 := by
      rw [CavlcFields.positions, List.drop_of_length_le (allRuns_length h).le]
      rfl
    rw [nextRun, Run.at_tc, htcStaged, hruns, if_neg (by omega), CavlcFields.placing, hnone, coefFrom_tc,
      CavlcFields.runsKnown, ← hrun]
    show _ = r.at _ _ (.place f.tc (-1))
    rw [← htcStaged]
    rfl
  rwa [hlast] at hreads

/-- LASTPOS is the index of the first coefficient. -/
theorem lastpos_eq_index {nC : Int} {m count : Nat} (h : f.ok nC m count = true) (htc : 0 < f.tc) (start : Nat) :
    (BitVec.ofInt 32 (start + ((f.positions 0 : Int) - 1)) : Word) = BitVec.ofNat 32 (f.index start 0) := by
  have hpos := positions_succ (f := f) (i := 0) (by rw [allRuns_length h]; exact htc)
  rw [f.index_eq, show (start : Int) + ((f.positions 0 : Int) - 1) = ((start + f.positions 0 - 1 : Nat) : Int) by omega,
    BitVec.ofInt_natCast]

/-- What the command stages last is the results of the block's fields. -/
theorem placeStep_zero_staged {nC : Int} {m count n : Nat} (h : f.ok nC m count = true) (htc : 0 < f.tc) (r : Run)
    (hn : n - r.posStart.toNat = f.bits.length) :
    (placeStep 0 ((f.positions 0 : Int) - 1) (f.placing r n f.runsKnown 0)).staged = f.results r.block.start := by
  rw [CavlcFields.results, if_neg (by omega), ← coefFrom_zero, ← lastpos_eq_index h htc, ← hn]
  rfl

end

/-- A block with coefficients: its fields lead to the placement, and the placement to its results. -/
theorem exec_codedBlock {s : State} {start stop : BitVec 6} {maxc : BitVec 3} {btype : BitVec 5} {m : Nat} {f : CavlcFields}
    (hidle : s.run = none) (hfits : s.streamFits) (hlegal : legal (.cavlcBlock start stop maxc btype) s.arg = true)
    (hm : Tables.maxCoefficients maxc = some m) (hok : f.ok s.arg.toInt m (stop.toNat + 1 - start.toNat) = true)
    (hstream : s.streamHas f.bits) (htc : 0 < f.tc) :
    exec (.cavlcBlock start stop maxc btype) s
      = .next (committed (encode (.cavlcBlock start stop maxc btype)) (f.results start.toNat) f.bits.length s) := by
  have hbegun : f.ok (cavlcRun start stop maxc btype s).nC (cavlcRun start stop maxc btype s).block.maxc
      (cavlcRun start stop maxc btype s).count = true := by
    rw [cavlcRun_nC, cavlcRun_maxc, cavlcRun_count, hm]
    exact hok
  have hreads := reads_to_placement hbegun htc (cavlcRun_phase ..) (cavlcRun_staged ..)
  have hunplaced := unplaced_runsKnown hok (by omega)
  obtain ⟨r, hr⟩ : ∃ r, r = cavlcRun start stop maxc btype s := ⟨_, rfl⟩
  rw [← hr] at hreads
  have hplace : ∀ u : State, coreStep^[f.tc + 1]
      { u with run := some (f.placing r (r.pos + f.bits.length) f.runsKnown f.tc) }
      = { u with run := some (placeStep 0 ((f.positions 0 : Int) - 1)
          (f.placing r (r.pos + f.bits.length) f.runsKnown 0)) } := fun u => by
    rw [Nat.add_comm, Function.iterate_add_apply, Function.iterate_one, iterate_placing hunplaced r _ f.tc le_rfl u]
    exact coreStep_place rfl rfl
  have hpos : r.pos + f.bits.length - r.posStart.toNat = f.bits.length := by
    rw [hr]
    exact Nat.add_sub_cancel_left _ _
  have hstart : r.block.start = start.toNat := hr ▸ (Run.block_span rfl).1
  have hstaged := placeStep_zero_staged hok htc r hpos
  have hbits := bits_length_le hok
  have h16 := tc_le_sixteen hok
  have hrun := runCommand_reads (w := encode (.cavlcBlock start stop maxc btype)) hidle hfits hlegal
    (by rw [show begunRun _ _ s = r from hr.symm]; exact hreads) hstream hplace rfl rfl (by rw [Config.coreBudget]; omega)
  rw [exec_eq_runCommand, hrun, hstaged, hstart]

/-- A block without coefficients is its token alone. -/
theorem eq_of_tc_zero {f : CavlcFields} {nC : Int} {m count : Nat} (h : f.ok nC m count = true) (htc : f.tc = 0) :
    f = ⟨f.token, 0, 0, [], [], [], 0, []⟩ := by
  obtain ⟨token, tc, t1, signs, levels, tzCode, tz, runs⟩ := f
  obtain ⟨hhead, hlv, hzeros, hruns, -⟩ := ok_iff.1 h
  obtain ⟨⟨c, -, hm⟩, -, hsigns, -⟩ := headOk_iff.1 hhead
  obtain ⟨-, hle, -⟩ := token_bounds hm
  dsimp only at *
  subst htc
  obtain rfl : t1 = 0 := Nat.le_zero.1 hle
  obtain rfl : signs = [] := List.eq_nil_of_length_eq_zero hsigns
  obtain rfl : levels = [] := List.eq_nil_of_length_eq_zero hlv
  obtain rfl : runs = [] := List.eq_nil_of_length_eq_zero hruns
  rcases (zerosOk_iff.1 hzeros).1 with ⟨-, hcode, htz⟩ | ⟨hcoded, -⟩
  · dsimp only at hcode htz
    rw [hcode, htz]
  · exact absurd (.inl rfl) hcoded

theorem results_token_only (token : List Bool) (start : Nat) :
    CavlcFields.results ⟨token, 0, 0, [], [], [], 0, []⟩ start
      = { Results.zero with bits := BitVec.ofNat 32 token.length } := by
  have hbits : CavlcFields.bits ⟨token, 0, 0, [], [], [], 0, []⟩ = token := by
    simp [CavlcFields.bits, CavlcFields.headBits, levelBits]
  rw [CavlcFields.results, hbits, ← coefFrom_zero]
  have hcoef := coefFrom_tc ⟨token, 0, 0, [], [], [], 0, []⟩ start
  dsimp only at hcoef
  rw [hcoef]
  simp only [CavlcFields.allLevels, CavlcFields.allRuns, levelValues, List.map_nil, List.append_nil, List.replicate_zero,
    if_true, wordsOf_nil, maskOf_nil]
  rfl

/-- Settles O39: with coefficients see `exec_codedBlock`, without see O41. -/
theorem cavlcDecodesEveryBlock : Obligations.CavlcDecodesEveryBlock := by
  intro s start stop maxc btype m f hidle hfits hlegal hm hok hstream
  rcases Nat.eq_zero_or_pos f.tc with htc | htc
  · obtain ⟨hhead, -⟩ := ok_iff.1 hok
    obtain ⟨⟨c, hc, hmem⟩, -⟩ := headOk_iff.1 hhead
    have hf := eq_of_tc_zero hok htc
    rw [hf] at hmem
    rw [bits_of_tc_zero hok htc] at hstream ⊢
    rw [cavlcZeroTokenGivesAZeroBlock s start stop maxc btype c f.token hidle hfits hlegal hc hmem hstream, hf,
      results_token_only]
  · exact exec_codedBlock hidle hfits hlegal hm hok hstream htc

/-! ### Readings that fail (R11, R94, R132) -/

/-- Somewhere in the bits `l` the command raises `e`. -/
def Raises (e : ErrorKind) (r : Run) (l : List Bool) : Prop := ∃ l' r', l' <+: l ∧ Reads r l' r' ∧ r'.phase = .abort e

/-- On a stream that holds the bits `l` and no more, the command raises an error or is still reading at the end. -/
def Fails (r : Run) (l : List Bool) : Prop := (∃ e, Raises e r l) ∨ ∃ r' p, Reads r l r' ∧ r'.phase = .bit p

section
variable {r r' : Run} {l l' : List Bool}

theorem Reads.raises {e : ErrorKind} (h : Reads r l r') (h' : Raises e r' l') : Raises e r (l ++ l') := by
  obtain ⟨l0, r0, hpre, hreads, hp⟩ := h'
  exact ⟨l ++ l0, r0, (List.prefix_append_right_inj l).2 hpre, h.append hreads, hp⟩

theorem Reads.fails (h : Reads r l r') (h' : Fails r' l') : Fails r (l ++ l') := by
  rcases h' with ⟨e, h'⟩ | ⟨r0, p, hreads, hp⟩
  · exact .inl ⟨e, h.raises h'⟩
  · exact .inr ⟨r0, p, h.append hreads, hp⟩

/-- A stream that ends inside bits which the command would read. -/
theorem Reads.fails_of_cut (h : Reads r l r') (hpre : l' <+: l) (hne : l' ≠ l) : Fails r l' := by
  obtain ⟨r1, p, hreads, hp⟩ := h.of_properPrefix hpre hne
  exact .inr ⟨r1, p, hreads, hp⟩

/-- `stepsLeft` bounds the bits that a CAVLC_BLOCK still reads. -/
theorem Reads.length_le_stepsLeft (h : Reads r l r') (hr : CavlcInv r) : l.length ≤ stepsLeft r.phase := by
  induction h with
  | nil r => exact Nat.zero_le _
  | @cons r r' p b l hp _ ih =>
    obtain ⟨hinv, hless⟩ := cavlcInv_advances (rule := .doc) hr (.bit hp b)
    exact (Nat.succ_le_succ (ih hinv)).trans hless

end

section
variable {α : Type} {t : Tables.Vlc α} {P : List Bool → BitPhase} {k : α → Run → Run} {r : Run} {l : List Bool}

/-- A code is read after which the command raises `e`. -/
theorem raises_of_code (hfree : PrefixFree t) (hP : VlcPhase t P k r) {e : ErrorKind} {code : List Bool} {v : α}
    (hm : (code, v) ∈ t) (hne : code ≠ []) (hl : code <+: l)
    (hk : ∀ n p, (k v { r with pos := n, phase := p }).phase = .abort e) (n : Nat) :
    Raises e { r with pos := n, phase := .bit (P []) } l := by
  obtain ⟨q, hreads⟩ := reads_vlc hfree hP code [] n hm hne
  exact ⟨code, _, hl, hreads, hk _ _⟩

/-- A pattern absent from a table that has codes is refused (R11). -/
theorem raises_of_absent (hP : VlcPhase t P k r) (ht : t ≠ []) (habsent : absentFrom l t) (n : Nat) :
    Raises .malformedSyntax { r with pos := n, phase := .bit (P []) } l := by
  have hne : l ≠ [] := by
    obtain ⟨e, he⟩ := List.exists_mem_of_ne_nil _ ht
    rintro rfl
    exact (habsent e he).1 List.nil_prefix
  exact reads_vlc_absent hP l [] n hne habsent

/-- Bits that begin with no code are absent from the table, or end too early. -/
theorem fails_of_no_code (hfree : PrefixFree t) (hcodes : ∀ e ∈ t, e.1 ≠ []) (hP : VlcPhase t P k r)
    (hno : ∀ e ∈ t, ¬ e.1 <+: l) (n : Nat) : Fails { r with pos := n, phase := .bit (P []) } l := by
  by_cases hnil : l = []
  · subst hnil
    exact .inr ⟨_, _, .nil _, rfl⟩
  · by_cases hcut : ∃ e ∈ t, l <+: e.1
    · obtain ⟨⟨code, v⟩, hm, hl⟩ := hcut
      obtain ⟨q, hreads⟩ := reads_vlc hfree hP code [] n hm (hcodes _ hm)
      exact hreads.fails_of_cut hl fun heq => hno _ hm (heq ▸ List.prefix_rfl)
    · obtain ⟨l', r', hraises⟩ := reads_vlc_absent hP l [] n hnil fun e he => ⟨fun hl => hcut ⟨e, he, hl⟩, hno e he⟩
      exact .inl ⟨_, l', r', hraises⟩

end

/-! ### Where the fields of a block lead (R97, R107, R109) -/

/-- A token that does not fit the span is refused (R97). -/
theorem withToken_unfit {r : Run} {tc : Nat} (h : r.count < tc) (t1 : Nat) :
    (withToken tc t1 r).phase = .abort .malformedSyntax := by
  rw [withToken, if_pos h, Run.raise_phase]

/-- A total_zeros for which the block has no room is refused (R108). -/
theorem withTotalZeros_unfit {r : Run} {tz : Nat} (h : r.count - r.tc < tz) :
    (withTotalZeros tz r).phase = .abort .malformedSyntax := by
  rw [withTotalZeros, if_pos h, Run.raise_phase]

/-- A run_before above the zeros left is refused (R110). -/
theorem withRunBefore_unfit {zl rb : Nat} (h : zl < rb) (i : Nat) (r : Run) :
    (withRunBefore i zl rb r).phase = .abort .malformedSyntax := by
  rw [withRunBefore, if_pos h, Run.raise_phase]

section
variable {f : CavlcFields} {r : Run}

/-- After the levels of a block with room for zeros, total_zeros is read (R107). -/
theorem reads_to_totalZeros (hf : f.headOk r.nC r.count = true) (htc : 0 < f.tc) (hlv : f.levels.length = f.tc - f.t1)
    (hroom : f.tc < r.count) (hp : r.phase = .bit (.coeffToken [])) (hS : r.staged = Results.zero) :
    ∃ r1 : Run, r1.tc = f.tc ∧ r1.count = r.count ∧ r1.block = r.block
      ∧ Reads r f.headBits { r1 with pos := r1.pos, phase := .bit (.totalZeros []) } := by
  obtain ⟨⟨c, -, hm⟩, -⟩ := headOk_iff.1 hf
  obtain ⟨-, hle, -, h16⟩ := token_bounds hm
  obtain ⟨q, sl, hreads⟩ := reads_head hf htc hlv.le hp hS (tablesFree.token r)
  refine ⟨r.at (r.pos + f.headBits.length) f.headStaged q, headStaged_tc h16, rfl, rfl, ?_⟩
  rw [hlv, Nat.add_sub_cancel' hle, nextLevel, Run.at_tc, headStaged_tc h16, if_neg (lt_irrefl _), Run.at_count,
    if_pos hroom] at hreads
  exact hreads

/-- While zeros are left and a coefficient but the last is to come, run_before is read (R109). -/
theorem reads_to_runBefore (hf : f.headOk r.nC r.count = true) (hlv : f.levels.length = f.tc - f.t1)
    (hz : f.zerosOk r.block.maxc r.count = true) (hruns : f.runs.length < f.tc - 1) (hok : runsOk f.tz f.runs = true)
    (hleft : f.runSum < f.tz) (hp : r.phase = .bit (.coeffToken [])) (hS : r.staged = Results.zero) :
    ∃ r1 : Run, Reads r f.bits { r1 with
      pos := r1.pos, phase := .bit (.runBefore f.runs.length (f.tz - f.runSum) []) } := by
  obtain ⟨⟨c, -, hm⟩, -⟩ := headOk_iff.1 hf
  obtain ⟨-, -, -, h16⟩ := token_bounds hm
  obtain ⟨q, hreads⟩ := reads_fields tablesFree hf (by omega) hlv hz hruns.le hok hp hS
  have htcStaged : (runsStaged f.zerosStaged f.runs).totalcoeff.toNat = f.tc := headStaged_tc h16
  refine ⟨r.at (r.pos + f.bits.length) (runsStaged f.zerosStaged f.runs) q, ?_⟩
  rw [nextRun, Run.at_tc, htcStaged, if_pos (by omega)] at hreads
  exact hreads

end

/-! ### Fields that do not fit (R97, R107, R108, R110) -/

section
variable {s : State} {start stop : BitVec 6} {maxc : BitVec 3} {btype : BitVec 5}

theorem cavlcInv_cavlcRun : CavlcInv (cavlcRun start stop maxc btype s) := ⟨rfl, cavlcRun_staged ..⟩

/-- A CAVLC_BLOCK that reads these bits reads few enough for the budget. -/
theorem cavlcRun_reads_length {l : List Bool} {r : Run} (h : Reads (cavlcRun start stop maxc btype s) l r) :
    l.length + 3 ≤ Config.coreBudget := by
  have hle : l.length ≤ 1516 := h.length_le_stepsLeft cavlcInv_cavlcRun
  exact (Nat.add_le_add_right hle 3).trans (by decide)

/-- A legal CAVLC_BLOCK that raises an error on its stream aborts with it. -/
theorem exec_raises {e : ErrorKind} {l : List Bool} (hidle : s.run = none) (hfits : s.streamFits)
    (hlegal : legal (.cavlcBlock start stop maxc btype) s.arg = true) (h : Raises e (cavlcRun start stop maxc btype s) l)
    (hstream : s.streamHas l) :
    ∃ t, exec (.cavlcBlock start stop maxc btype) s = .next t
      ∧ AbortedRead (encode (.cavlcBlock start stop maxc btype)) e s t := by
  obtain ⟨l', r, hpre, hreads, hp⟩ := h
  exact ⟨_, exec_eq_runCommand _ s, runCommand_raises hidle hfits hlegal hreads (hpre.trans hstream) hp
    (Nat.le_of_succ_le (cavlcRun_reads_length hreads))⟩

/-- The spans and columns of a legal CAVLC_BLOCK (R68, R96). -/
theorem legal_cavlcBlock {m : Nat} {arg : Word} (hlegal : legal (.cavlcBlock start stop maxc btype) arg = true)
    (hm : Tables.maxCoefficients maxc = some m) :
    (m = 4 ∨ m = 8 ∨ m = 15 ∨ m = 16) ∧ stop.toNat + 1 - start.toNat ≤ m := by
  rw [legal, Bool.and_eq_true, Instr.wellFormed, Bool.and_eq_true] at hlegal
  obtain ⟨⟨-, hspan⟩, haccepts⟩ := hlegal
  rw [Instr.spanFits, hm, decide_eq_true_eq, Option.getD_some] at hspan
  rw [argumentLegal, hm, Option.getD_some] at haccepts
  have hrefused := (cavlcAccepts_eq_false_iff m arg.toInt).not.1 (by rw [haccepts]; decide)
  omega

end

/-- Every total_zeros column that a block can select has codes (R83, R84). -/
theorem totalZeros_ne_nil {m tc : Nat} (hm : m = 4 ∨ m = 8 ∨ m = 15 ∨ m = 16) (htc : 0 < tc) (hlt : tc < m) :
    Tables.totalZeros m tc ≠ [] := by
  rcases hm with rfl | rfl | rfl | rfl
  all_goals
    interval_cases tc
    all_goals exact List.cons_ne_nil _ _

/-- Every run_before column has codes while zeros are left (R86). -/
theorem runBefore_ne_nil {zl : Nat} (h : 0 < zl) : Tables.runBefore zl ≠ [] := by
  have hlo : 1 ≤ min zl 7 := le_min h (by decide)
  have hhi : min zl 7 ≤ 7 := min_le_right _ _
  unfold Tables.runBefore
  interval_cases min zl 7
  all_goals exact List.cons_ne_nil _ _

section
variable {f : CavlcFields} {r : Run} {l : List Bool}

/-- A total_zeros that does not fit, or is no code, is refused after the levels. -/
theorem raises_at_totalZeros (hf : f.headOk r.nC r.count = true) (htc : 0 < f.tc) (hlv : f.levels.length = f.tc - f.t1)
    (hroom : f.tc < r.count) (hp : r.phase = .bit (.coeffToken [])) (hS : r.staged = Results.zero)
    (ht : Tables.totalZeros r.block.maxc f.tc ≠ []) {tz : Nat}
    (h : (l, tz) ∈ Tables.totalZeros r.block.maxc f.tc ∧ r.count - f.tc < tz
      ∨ absentFrom l (Tables.totalZeros r.block.maxc f.tc)) : Raises .malformedSyntax r (f.headBits ++ l) := by
  obtain ⟨r1, hr1, hcount1, hblock1, hreads⟩ := reads_to_totalZeros hf htc hlv hroom hp hS
  rw [← hr1, ← hblock1] at ht
  rw [← hr1, ← hcount1, ← hblock1] at h
  refine hreads.raises ?_
  rcases h with ⟨hm, hbig⟩ | habsent
  · exact raises_of_code (tablesFree.2.1 _ _) (vlcPhase_totalZeros r1) hm (totalZeros_code _ _ _ hm) List.prefix_rfl
      (fun _ _ => withTotalZeros_unfit (by exact hbig)) _
  · exact raises_of_absent (vlcPhase_totalZeros r1) ht habsent _

/-- A run_before that exceeds the zeros left, or is no code, is refused after the runs before it. -/
theorem raises_at_runBefore (hf : f.headOk r.nC r.count = true) (hlv : f.levels.length = f.tc - f.t1)
    (hz : f.zerosOk r.block.maxc r.count = true) (hruns : f.runs.length < f.tc - 1) (hok : runsOk f.tz f.runs = true)
    (hleft : f.runSum < f.tz) (hp : r.phase = .bit (.coeffToken [])) (hS : r.staged = Results.zero) {rb : Nat}
    (h : (l, rb) ∈ Tables.runBefore (f.tz - f.runSum) ∧ f.tz - f.runSum < rb
      ∨ absentFrom l (Tables.runBefore (f.tz - f.runSum))) : Raises .malformedSyntax r (f.bits ++ l) := by
  obtain ⟨r1, hreads⟩ := reads_to_runBefore hf hlv hz hruns hok hleft hp hS
  have hP := vlcPhase_runBefore f.runs.length (f.tz - f.runSum) r1
  refine hreads.raises ?_
  rcases h with ⟨hm, hbig⟩ | habsent
  · exact raises_of_code (tablesFree.2.2 _) hP hm (runBefore_code _ _ hm) List.prefix_rfl
      (fun _ _ => withRunBefore_unfit hbig _ _) _
  · exact raises_of_absent hP (runBefore_ne_nil (Nat.sub_pos_of_lt hleft)) habsent _

end

/-- Settles O43: the token, or the first field after the levels or runs so far, is refused. -/
theorem unfittingFieldsAreMalformed : Obligations.UnfittingFieldsAreMalformed := by
  intro s start stop maxc btype m count hidle hfits hlegal hm hcount hcase
  obtain ⟨hcolumns, hspan⟩ := legal_cavlcBlock hlegal hm
  obtain ⟨r, hr⟩ : ∃ r, r = cavlcRun start stop maxc btype s := ⟨_, rfl⟩
  have hp : r.phase = .bit (.coeffToken []) := hr ▸ cavlcRun_phase ..
  have hS : r.staged = Results.zero := hr ▸ cavlcRun_staged ..
  have hnC : s.arg.toInt = r.nC := hr ▸ (cavlcRun_nC ..).symm
  have hmaxc : m = r.block.maxc := by rw [hr, cavlcRun_maxc, hm, Option.getD_some]
  rw [← hcount] at hspan
  obtain rfl : count = r.count := by rw [hcount, hr, cavlcRun_count]
  rw [hmaxc, hnC] at hcase
  have hraises : ∃ l, s.streamHas l ∧ Raises .malformedSyntax r l := by
    rcases hcase with ⟨c, token, tc, t1, hc, hmem, hstream, hbig⟩ | ⟨f, hhead, hlv, htc, hroom, hcase⟩
        | ⟨f, hhead, hlv, hz, hruns, hok, hleft, hcase⟩
    · obtain ⟨q, hreads⟩ := reads_token hc hmem hp
      exact ⟨token, hstream, token, _, List.prefix_rfl, hreads, withToken_unfit (by exact hbig) t1⟩
    · have ht := totalZeros_ne_nil hcolumns htc (by omega)
      rw [hmaxc] at ht
      rcases hcase with ⟨hmem, hbig, hstream⟩ | ⟨p, habsent, hstream⟩
      · exact ⟨_, hstream, raises_at_totalZeros hhead htc hlv hroom hp hS ht (.inl ⟨hmem, hbig⟩)⟩
      · exact ⟨_, hstream, raises_at_totalZeros (tz := 0) hhead htc hlv hroom hp hS ht (.inr habsent)⟩
    · rcases hcase with ⟨code, rb, hmem, hbig, hstream⟩ | ⟨p, habsent, hstream⟩
      · exact ⟨_, hstream, raises_at_runBefore hhead hlv hz hruns hok hleft hp hS (.inl ⟨hmem, hbig⟩)⟩
      · exact ⟨_, hstream, raises_at_runBefore (rb := 0) hhead hlv hz hruns hok hleft hp hS (.inr habsent)⟩
  obtain ⟨l, hstream, hraises⟩ := hraises
  exact exec_raises hidle hfits hlegal (hr ▸ hraises) hstream

/-! ### Every stream begins with a block or makes the command fail (R95 to R110) -/

theorem exists_leading_zeros (l : List Bool) :
    ∃ k rest, l = List.replicate k false ++ rest ∧ (rest = [] ∨ ∃ rest', rest = true :: rest') := by
  induction l with
  | nil => exact ⟨0, [], rfl, .inl rfl⟩
  | cons b l ih =>
    cases b with
    | true => exact ⟨0, true :: l, rfl, .inr ⟨l, rfl⟩⟩
    | false =>
      obtain ⟨k, rest, rfl, h⟩ := ih
      exact ⟨k + 1, rest, rfl, h⟩

/-- A list is long enough to be split at `n`, or it can be filled up to `n` bits. -/
theorem split_or_fill (n : Nat) (l : List Bool) :
    (∃ l1 l2, l1.length = n ∧ l = l1 ++ l2) ∨ ∃ l1, l1.length = n ∧ l <+: l1 ∧ l ≠ l1 := by
  by_cases h : n ≤ l.length
  · exact .inl ⟨l.take n, l.drop n, List.length_take_of_le h, (List.take_append_drop n l).symm⟩
  · have hlen : (l ++ List.replicate (n - l.length) false).length = n := by
      rw [List.length_append, List.length_replicate]
      omega
    exact .inr ⟨_, hlen, List.prefix_append _ _, fun heq => h ((congrArg List.length heq).trans hlen).ge⟩

theorem levelsOk_cons {sl p : Nat} {first : Bool} {suf : List Bool} {lv : List (Nat × List Bool)} :
    levelsOk sl first ((p, suf) :: lv) = true ↔
      (p ≤ 31 ∧ suf.length = levelSuffixSize p sl)
        ∧ levelsOk (nextSuffixLength sl (levelOf (levelCode p sl (bitsValue suf) first))) false lv = true := by
  simp only [levelsOk, Bool.and_eq_true, decide_eq_true_eq]
  rfl

theorem levelBits_cons (p : Nat) (suf : List Bool) (lv : List (Nat × List Bool)) :
    levelBits ((p, suf) :: lv) = levelBits [(p, suf)] ++ levelBits lv := by
  simp [levelBits]

/-- The bits begin with a level code, end inside one, or begin with 32 zeros (R101, R102). -/
theorem levelCode_cases (sl : Nat) (l : List Bool) :
    (∃ p suf rest, (p ≤ 31 ∧ suf.length = levelSuffixSize p sl) ∧ l = levelBits [(p, suf)] ++ rest)
    ∨ (∃ p suf, (p ≤ 31 ∧ suf.length = levelSuffixSize p sl) ∧ l <+: levelBits [(p, suf)] ∧ l ≠ levelBits [(p, suf)])
    ∨ List.replicate 32 false <+: l := by
  have hbits : ∀ p suf, levelBits [(p, suf)] = List.replicate p false ++ true :: suf := fun p suf => by simp [levelBits]
  simp only [hbits]
  obtain ⟨k, rest, rfl, hrest⟩ := exists_leading_zeros l
  by_cases hk : k ≤ 31
  · rcases hrest with rfl | ⟨rest, rfl⟩
    · refine .inr (.inl ⟨k, List.replicate (levelSuffixSize k sl) false, ⟨hk, List.length_replicate⟩, ?_, ?_⟩)
      · exact (List.prefix_append_right_inj _).2 List.nil_prefix
      · exact fun heq => List.cons_ne_nil _ _ (List.append_cancel_left heq).symm
    · rcases split_or_fill (levelSuffixSize k sl) rest with ⟨suf, rest, hlen, rfl⟩ | ⟨suf, hlen, hpre, hne⟩
      · exact .inl ⟨k, suf, rest, ⟨hk, hlen⟩, by simp⟩
      · refine .inr (.inl ⟨k, suf, ⟨hk, hlen⟩, ?_, ?_⟩)
        · exact (List.prefix_append_right_inj _).2 (List.cons_prefix_cons.2 ⟨rfl, hpre⟩)
        · exact fun heq => hne (List.cons.inj (List.append_cancel_left heq)).2
  · refine .inr (.inr (List.IsPrefix.trans ?_ (List.prefix_append _ _)))
    rw [show k = 32 + (k - 32) by omega, List.replicate_add]
    exact List.prefix_append _ _

/-- The bits end inside one of `k` level codes, or hold 32 zeros in place of one. -/
def LevelsStuck (k sl : Nat) (first : Bool) (l : List Bool) : Prop :=
  ∃ lv, levelsOk sl first lv = true
    ∧ (lv.length ≤ k ∧ l <+: levelBits lv ∧ l ≠ levelBits lv
      ∨ lv.length < k ∧ levelBits lv ++ List.replicate 32 false <+: l)

theorem levels_or_stuck (k : Nat) : ∀ (sl : Nat) (first : Bool) (l : List Bool),
    (∃ lv rest, lv.length = k ∧ levelsOk sl first lv = true ∧ l = levelBits lv ++ rest) ∨ LevelsStuck k sl first l := by
  induction k with
  | zero => exact fun sl first l => .inl ⟨[], l, rfl, rfl, rfl⟩
  | succ k ih =>
    intro sl first l
    rcases levelCode_cases sl l with ⟨p, suf, l, hcode, rfl⟩ | ⟨p, suf, hcode, hpre, hne⟩ | hzeros
    · rcases ih (nextSuffixLength sl (levelOf (levelCode p sl (bitsValue suf) first))) false l with
        ⟨lv, rest, hlen, hok, rfl⟩ | ⟨lv, hok, hstuck⟩
      · refine .inl ⟨(p, suf) :: lv, rest, congrArg Nat.succ hlen, levelsOk_cons.2 ⟨hcode, hok⟩, ?_⟩
        rw [levelBits_cons p suf lv, List.append_assoc]
      · refine .inr ⟨(p, suf) :: lv, levelsOk_cons.2 ⟨hcode, hok⟩, ?_⟩
        rw [levelBits_cons p suf lv, List.append_assoc]
        rcases hstuck with ⟨hlen, hpre, hne⟩ | ⟨hlen, hpre⟩
        · exact .inl ⟨Nat.succ_le_succ hlen, (List.prefix_append_right_inj _).2 hpre,
            fun heq => hne (List.append_cancel_left heq)⟩
        · exact .inr ⟨Nat.succ_lt_succ hlen, (List.prefix_append_right_inj _).2 hpre⟩
    · exact .inr ⟨[(p, suf)], levelsOk_cons.2 ⟨hcode, rfl⟩, .inl ⟨Nat.le_add_left 1 k, hpre, hne⟩⟩
    · exact .inr ⟨[], rfl, .inr ⟨Nat.succ_pos k, hzeros⟩⟩

/-- The bits begin with no code of the table, or with one whose value exceeds `room`. -/
def Unfit (t : Tables.Vlc Nat) (room : Nat) (l : List Bool) : Prop :=
  (∃ code v, (code, v) ∈ t ∧ code <+: l ∧ room < v) ∨ ∀ e ∈ t, ¬ e.1 <+: l

theorem code_or_unfit (t : Tables.Vlc Nat) (room : Nat) (l : List Bool) :
    (∃ code v rest, (code, v) ∈ t ∧ v ≤ room ∧ l = code ++ rest) ∨ Unfit t room l := by
  by_cases h : ∃ e ∈ t, e.1 <+: l
  · obtain ⟨⟨code, v⟩, hm, hpre⟩ := h
    by_cases hv : v ≤ room
    · obtain ⟨rest, rfl⟩ := hpre
      exact .inl ⟨code, v, rest, hm, hv, rfl⟩
    · exact .inr (.inl ⟨code, v, hm, hpre, Nat.lt_of_not_le hv⟩)
  · exact .inr (.inr fun e he hpre => h ⟨e, he, hpre⟩)

/-- Such bits make the phase that reads the code fail. -/
theorem fails_of_unfit {t : Tables.Vlc Nat} {P : List Bool → BitPhase} {k : Nat → Run → Run} {r : Run} {l : List Bool}
    {room : Nat} (hfree : PrefixFree t) (hcodes : ∀ e ∈ t, e.1 ≠ []) (hP : VlcPhase t P k r)
    (hk : ∀ v, room < v → ∀ n p, (k v { r with pos := n, phase := p }).phase = .abort .malformedSyntax)
    (h : Unfit t room l) (n : Nat) : Fails { r with pos := n, phase := .bit (P []) } l := by
  rcases h with ⟨code, v, hm, hpre, hv⟩ | hno
  · exact .inl ⟨_, raises_of_code hfree hP hm (hcodes _ hm) hpre (hk v hv) n⟩
  · exact fails_of_no_code hfree hcodes hP hno n

theorem runs_or_unfit (k : Nat) : ∀ (zl : Nat) (l : List Bool),
    (∃ rs rest, rs.length = k ∧ runsOk zl rs = true ∧ l = rs.flatMap Prod.fst ++ rest)
    ∨ ∃ rs rest, rs.length < k ∧ runsOk zl rs = true ∧ (rs.map Prod.snd).sum < zl ∧ l = rs.flatMap Prod.fst ++ rest
        ∧ Unfit (Tables.runBefore (zl - (rs.map Prod.snd).sum)) (zl - (rs.map Prod.snd).sum) rest := by
  induction k with
  | zero => exact fun zl l => .inl ⟨[], l, rfl, rfl, rfl⟩
  | succ k ih =>
    intro zl l
    rcases Nat.eq_zero_or_pos zl with rfl | hzl
    · rcases ih 0 l with ⟨rs, rest, hlen, hok, rfl⟩ | ⟨rs, rest, -, -, hlt, -⟩
      · exact .inl ⟨([], 0) :: rs, rest, congrArg Nat.succ hlen, by simpa [runsOk] using hok, rfl⟩
      · exact absurd hlt (Nat.not_lt_zero _)
    · rcases code_or_unfit (Tables.runBefore zl) zl l with ⟨code, v, l, hm, hv, rfl⟩ | hunfit
      · have hcons : ∀ rs, runsOk (zl - v) rs = true → runsOk zl ((code, v) :: rs) = true := fun rs hok => by
          simp [runsOk, hzl.ne', hm, hv, hok]
        rcases ih (zl - v) l with ⟨rs, rest, hlen, hok, rfl⟩ | ⟨rs, rest, hlen, hok, hlt, rfl, hunfit⟩
        · refine .inl ⟨(code, v) :: rs, rest, congrArg Nat.succ hlen, hcons rs hok, ?_⟩
          rw [List.flatMap_cons, List.append_assoc]
        · refine .inr ⟨(code, v) :: rs, rest, Nat.succ_lt_succ hlen, hcons rs hok, ?_, ?_, ?_⟩
          · rw [List.map_cons, List.sum_cons]
            omega
          · rw [List.flatMap_cons, List.append_assoc]
          · rw [List.map_cons, List.sum_cons, ← Nat.sub_sub]
            exact hunfit
      · exact .inr ⟨[], l, Nat.succ_pos k, rfl, hzl, rfl, hunfit⟩

section
variable {r : Run}

theorem mem_tokenTable_iff {e : List Bool × Nat × Nat} :
    e ∈ r.tokenTable ↔ ∃ c, Tables.tableSelect r.nC = some c ∧ e ∈ Tables.coeffToken c := by
  unfold Run.tokenTable
  cases Tables.tableSelect r.nC with
  | none => simp
  | some c => simp

theorem tokenTable_code (r : Run) : ∀ e ∈ r.tokenTable, e.1 ≠ [] := by
  intro e he
  obtain ⟨c, -, hm⟩ := mem_tokenTable_iff.1 he
  exact (token_bounds hm).1

/-- The stream begins with a token that fits the span, or the command fails (R97). -/
theorem token_or_fails (hp : r.phase = .bit (.coeffToken [])) (l : List Bool) :
    (∃ c token tc t1 rest, Tables.tableSelect r.nC = some c ∧ (token, (tc, t1)) ∈ Tables.coeffToken c ∧ tc ≤ r.count
      ∧ l = token ++ rest) ∨ Fails r l := by
  by_cases h : ∃ e ∈ r.tokenTable, e.1 <+: l
  · obtain ⟨⟨token, tc, t1⟩, he, hpre⟩ := h
    obtain ⟨c, hc, hm⟩ := mem_tokenTable_iff.1 he
    by_cases hfit : tc ≤ r.count
    · obtain ⟨rest, rfl⟩ := hpre
      exact .inl ⟨c, token, tc, t1, rest, hc, hm, hfit, rfl⟩
    · obtain ⟨q, hreads⟩ := reads_token hc hm hp
      refine .inr (.inl ⟨_, token, _, hpre, hreads, withToken_unfit ?_ t1⟩)
      exact Nat.lt_of_not_le hfit
  · have hfails := fails_of_no_code (tablesFree.token r) (tokenTable_code r) (vlcPhase_coeffToken r)
      (fun e he hpre => h ⟨e, he, hpre⟩) r.pos
    rw [← hp] at hfails
    exact .inr hfails

/-- The fields of a block's head alone. -/
def headFields (token : List Bool) (tc t1 : Nat) (signs : List Bool) (lv : List (Nat × List Bool)) : CavlcFields :=
  ⟨token, tc, t1, signs, lv, [], 0, []⟩

/-- After a token there are its signs, or the command fails (R100). -/
theorem signs_or_fails {token : List Bool} {tc t1 : Nat} (hle : t1 ≤ tc)
    (hhead : ∀ signs, signs.length = t1 → (headFields token tc t1 signs []).headOk r.nC r.count = true)
    (hp : r.phase = .bit (.coeffToken [])) (hS : r.staged = Results.zero) (l : List Bool) :
    (∃ signs rest, signs.length = t1 ∧ l = signs ++ rest) ∨ Fails r (token ++ l) := by
  rcases split_or_fill t1 l with hsigns | ⟨signs, hsigns, hpre, hne⟩
  · exact .inl hsigns
  · have htc : 0 < tc := by
      by_contra h0
      obtain rfl : signs = [] := List.eq_nil_of_length_eq_zero (by omega)
      exact hne (List.prefix_nil.1 hpre)
    obtain ⟨q, sl, hreads⟩ := reads_head (hhead signs hsigns) htc (Nat.zero_le _) hp hS (tablesFree.token r)
    simp only [headFields, CavlcFields.headBits, levelBits, List.append_nil] at hreads
    exact .inr (hreads.fails_of_cut ((List.prefix_append_right_inj _).2 hpre) fun heq => hne (List.append_cancel_left heq))

/-- After its signs a block has its levels, or the command fails (R101, R102). -/
theorem levels_or_fails {token signs : List Bool} {tc t1 : Nat}
    (hhead : ∀ lv, levelsOk (initialSuffixLength tc t1) (decide (t1 < 3)) lv = true →
      (headFields token tc t1 signs lv).headOk r.nC r.count = true)
    (hp : r.phase = .bit (.coeffToken [])) (hS : r.staged = Results.zero) (l : List Bool) :
    (∃ lv rest, lv.length = tc - t1 ∧ levelsOk (initialSuffixLength tc t1) (decide (t1 < 3)) lv = true
      ∧ l = levelBits lv ++ rest) ∨ Fails r (token ++ signs ++ l) := by
  rcases levels_or_stuck (tc - t1) (initialSuffixLength tc t1) (decide (t1 < 3)) l with
    hlevels | ⟨lv, hok, ⟨hlen, hpre, hne⟩ | ⟨hlen, hpre⟩⟩
  · exact .inl hlevels
  · have htc : 0 < tc := by
      by_contra h0
      obtain rfl : lv = [] := List.eq_nil_of_length_eq_zero (by omega)
      exact hne (List.prefix_nil.1 hpre)
    obtain ⟨q, sl, hreads⟩ := reads_head (hhead lv hok) htc hlen hp hS (tablesFree.token r)
    exact .inr (hreads.fails_of_cut ((List.prefix_append_right_inj _).2 hpre) fun heq => hne (List.append_cancel_left heq))
  · obtain ⟨r', hreads, habort⟩ := reads_head_unbounded (hhead lv hok) hlen hp hS
    refine .inr (.inl ⟨_, _, r', ?_, hreads, habort⟩)
    simp only [headFields, CavlcFields.headBits, List.append_assoc, List.prefix_append_right_inj]
    exact hpre

/-- The stream begins with a token, its signs and its levels, or the command fails (R97 to R102). -/
theorem head_or_fails (hp : r.phase = .bit (.coeffToken [])) (hS : r.staged = Results.zero) (l : List Bool) :
    (∃ (f : CavlcFields) (rest : List Bool), f.headOk r.nC r.count = true ∧ f.levels.length = f.tc - f.t1
      ∧ l = f.headBits ++ rest) ∨ Fails r l := by
  rcases token_or_fails hp l with ⟨c, token, tc, t1, l, hc, hm, hfit, rfl⟩ | hfails
  · obtain ⟨-, hle, -, -⟩ := token_bounds hm
    have hhead : ∀ signs lv, signs.length = t1 → levelsOk (initialSuffixLength tc t1) (decide (t1 < 3)) lv = true →
        (headFields token tc t1 signs lv).headOk r.nC r.count = true := fun signs lv hsigns hlevels =>
      headOk_iff.2 ⟨⟨c, hc, hm⟩, hfit, hsigns, hlevels⟩
    rcases signs_or_fails hle (fun signs hsigns => hhead signs [] hsigns rfl) hp hS l with ⟨signs, l, hsigns, rfl⟩ | hfails
    · rcases levels_or_fails (fun lv => hhead signs lv hsigns) hp hS l with ⟨lv, rest, hlen, hok, rfl⟩ | hfails
      · refine .inl ⟨headFields token tc t1 signs lv, rest, hhead signs lv hsigns hok, hlen, ?_⟩
        simp only [headFields, CavlcFields.headBits, List.append_assoc]
      · rw [← List.append_assoc]
        exact .inr hfails
    · exact .inr hfails
  · exact .inr hfails

/-- After its levels a block has its total_zeros, or the command fails (R107, R108). -/
theorem zeros_or_fails {f : CavlcFields} (hf : f.headOk r.nC r.count = true) (htc : 0 < f.tc)
    (hlv : f.levels.length = f.tc - f.t1) (hp : r.phase = .bit (.coeffToken [])) (hS : r.staged = Results.zero)
    (l : List Bool) :
    (∃ code tz rest, CavlcFields.zerosOk { f with tzCode := code, tz := tz } r.block.maxc r.count = true
      ∧ l = code ++ rest) ∨ Fails r (f.headBits ++ l) := by
  obtain ⟨-, hfit, -⟩ := headOk_iff.1 hf
  by_cases hroom : f.tc = r.count
  · exact .inl ⟨[], 0, l, zerosOk_iff.2 ⟨.inl ⟨.inr hroom, rfl, rfl⟩, Nat.zero_le _⟩, rfl⟩
  · rcases code_or_unfit (Tables.totalZeros r.block.maxc f.tc) (r.count - f.tc) l with ⟨code, tz, rest, hm, hle, rfl⟩ | hunfit
    · refine .inl ⟨code, tz, rest, zerosOk_iff.2 ⟨.inr ⟨?_, hm⟩, hle⟩, rfl⟩
      exact fun h => h.elim htc.ne' hroom
    · obtain ⟨r1, hr1, hcount1, hblock1, hreads⟩ := reads_to_totalZeros hf htc hlv (lt_of_le_of_ne hfit hroom) hp hS
      rw [← hr1, ← hcount1, ← hblock1] at hunfit
      refine .inr (hreads.fails (fails_of_unfit (tablesFree.2.1 _ _) (totalZeros_code _ _) (vlcPhase_totalZeros r1)
        (fun v hv n p => ?_) hunfit _))
      exact withTotalZeros_unfit (by exact hv)

/-- After its total_zeros a block has its runs, or the command fails (R109, R110). -/
theorem runs_or_fails {f : CavlcFields} (hf : f.headOk r.nC r.count = true) (hlv : f.levels.length = f.tc - f.t1)
    (hz : f.zerosOk r.block.maxc r.count = true) (hp : r.phase = .bit (.coeffToken [])) (hS : r.staged = Results.zero)
    (l : List Bool) :
    (∃ rs rest, rs.length = f.tc - 1 ∧ runsOk f.tz rs = true ∧ l = rs.flatMap Prod.fst ++ rest)
      ∨ Fails r (f.headBits ++ f.tzCode ++ l) := by
  rcases runs_or_unfit (f.tc - 1) f.tz l with hruns | ⟨rs, rest, hlen, hok, hlt, rfl, hunfit⟩
  · exact .inl hruns
  · obtain ⟨r1, hreads⟩ := reads_to_runBefore (f := { f with runs := rs }) hf hlv hz hlen hok hlt hp hS
    have hfails := hreads.fails (fails_of_unfit (tablesFree.2.2 _) (runBefore_code _)
      (vlcPhase_runBefore rs.length (f.tz - (rs.map Prod.snd).sum) r1) (fun v hv _ _ => withRunBefore_unfit hv _ _) hunfit _)
    refine .inr ?_
    rw [← List.append_assoc]
    exact hfails

/-- The stream begins with a block, or the command fails. -/
theorem block_or_fails (hp : r.phase = .bit (.coeffToken [])) (hS : r.staged = Results.zero) (l : List Bool) :
    (∃ f : CavlcFields, f.ok r.nC r.block.maxc r.count = true ∧ f.bits <+: l) ∨ Fails r l := by
  rcases head_or_fails hp hS l with ⟨f, l, hf, hlv, rfl⟩ | hfails
  · rcases Nat.eq_zero_or_pos f.tc with htc | htc
    · refine .inl ⟨{ f with tzCode := [], tz := 0, runs := [] }, ok_iff.2 ⟨hf, hlv, zerosOk_iff.2 ⟨.inl ⟨.inl htc, rfl, rfl⟩,
        Nat.zero_le _⟩, by rw [htc]; rfl, rfl⟩, ?_⟩
      simp only [CavlcFields.bits, List.flatMap_nil, List.append_nil]
      exact List.prefix_append _ _
    · rcases zeros_or_fails hf htc hlv hp hS l with ⟨code, tz, l, hz, rfl⟩ | hfails
      · rcases runs_or_fails (f := { f with tzCode := code, tz := tz }) hf hlv hz hp hS l with
          ⟨rs, rest, hlen, hok, rfl⟩ | hfails
        · refine .inl ⟨{ f with tzCode := code, tz := tz, runs := rs }, ok_iff.2 ⟨hf, hlv, hz, hlen, hok⟩, rest, ?_⟩
          simp only [CavlcFields.bits, List.append_assoc]
          rfl
        · rw [← List.append_assoc]
          exact .inr hfails
      · exact .inr hfails
  · exact .inr hfails

end

/-! ### What a CAVLC_BLOCK commits is a block -/

theorem AbortedRead.not_valid {w : Word} {e : ErrorKind} {s t : State} (h : AbortedRead w e s t) :
    t.status.valid = false := by
  obtain ⟨ht, -⟩ := h
  rw [ht]
  rfl

/-- A CAVLC_BLOCK that fails on its stream does not commit. -/
theorem not_valid_of_fails {s t : State} {start stop : BitVec 6} {maxc : BitVec 3} {btype : BitVec 5} (hidle : s.run = none)
    (hfits : s.streamFits) (hlegal : legal (.cavlcBlock start stop maxc btype) s.arg = true)
    (h : Fails (cavlcRun start stop maxc btype s) (s.bits.drop s.pos.toNat))
    (ht : exec (.cavlcBlock start stop maxc btype) s = .next t) : t.status.valid = false := by
  rcases h with ⟨e, h⟩ | ⟨r, p, hreads, hp⟩
  · obtain ⟨t', ht', habort⟩ := exec_raises hidle hfits hlegal h List.prefix_rfl
    obtain rfl : t' = t := Host.Outcome.next.inj (ht'.symm.trans ht)
    exact habort.not_valid
  · rw [exec_eq_runCommand] at ht
    cases ht
    exact (runCommand_exhausts hidle hfits hlegal hreads rfl hp (cavlcRun_reads_length hreads)).not_valid

/-- A command that commits is legal (R68, R69). -/
theorem legal_of_valid {s t : State} {i : Instr} (hidle : s.run = none) (ht : exec i s = .next t)
    (hv : t.status.valid = true) : legal i s.arg = true := by
  by_contra hbad
  rw [exec_eq_runCommand, runCommand_illegal hidle fun j hj => by
    obtain rfl := Option.some.inj hj
    exact Bool.eq_false_iff.2 hbad] at ht
  cases ht
  cases hv

theorem maxCoefficients_of_legal {start stop : BitVec 6} {maxc : BitVec 3} {btype : BitVec 5} {arg : Word}
    (h : legal (.cavlcBlock start stop maxc btype) arg = true) : ∃ m, Tables.maxCoefficients maxc = some m := by
  simp only [legal, Instr.wellFormed, Instr.maxcDefined, Bool.and_eq_true] at h
  exact Option.isSome_iff_exists.1 h.1.1.1

/-- Settles O40: the stream begins with a block, since the command has not failed, and the block's results are what the command
commits (O39). -/
theorem cavlcCommitsOnlyBlocks : Obligations.CavlcCommitsOnlyBlocks := by
  intro s t start stop maxc btype hidle hfits ht hv
  have hlegal := legal_of_valid hidle ht hv
  obtain ⟨m, hm⟩ := maxCoefficients_of_legal hlegal
  rcases block_or_fails (cavlcRun_phase start stop maxc btype s) (cavlcRun_staged start stop maxc btype s)
    (s.bits.drop s.pos.toNat) with ⟨f, hok, hstream⟩ | hfails
  · rw [cavlcRun_nC, cavlcRun_maxc, cavlcRun_count, hm] at hok
    refine ⟨m, f, hm, hok, hstream, ?_⟩
    rw [cavlcDecodesEveryBlock s start stop maxc btype m f hidle hfits hlegal hm hok hstream] at ht
    exact (Host.Outcome.next.inj ht).symm
  · rw [not_valid_of_fails hidle hfits hlegal hfails ht] at hv
    cases hv

/-! ### suffixLength (R99, R105) -/

theorem initialSuffixLength_eq_one_iff (tc t1 : Nat) : initialSuffixLength tc t1 = 1 ↔ tc > 10 ∧ t1 < 3 := by
  simp [initialSuffixLength]

/-- A suffixLength of 0 counts as 1 before its threshold is applied. -/
theorem nextSuffixLength_zero (level : Int) : nextSuffixLength 0 level = if level.natAbs ≤ 3 then 1 else 2 := by
  unfold nextSuffixLength
  dsimp only
  split_ifs <;> omega

theorem nextSuffixLength_of_pos {sl : Nat} (hpos : 1 ≤ sl) (hlt : sl < 6) (level : Int) :
    nextSuffixLength sl level = if level.natAbs ≤ 3 * 2 ^ (sl - 1) then sl else sl + 1 := by
  simp only [nextSuffixLength, if_neg (show ¬ sl = 0 by omega)]
  split_ifs <;> omega

theorem nextSuffixLength_six (level : Int) : nextSuffixLength 6 level = 6 := if_neg fun h => lt_irrefl 6 h.2

/-- Settles O47: the three cases of `nextSuffixLength` give its bounds. -/
theorem suffixLengthStaysInRange : Obligations.SuffixLengthStaysInRange := by
  refine ⟨fun tc t1 => ?_, initialSuffixLength_eq_one_iff, fun sl level hsl => ?_, nextSuffixLength_zero,
    fun sl level hpos hle => nextSuffixLength_of_pos hpos (Nat.lt_succ_of_le hle) level, nextSuffixLength_six⟩
  · unfold initialSuffixLength
    split <;> decide
  · rcases Nat.eq_zero_or_pos sl with rfl | hpos
    · rw [nextSuffixLength_zero]
      split <;> decide
    · rcases Nat.lt_or_eq_of_le hsl with hlt | rfl
      · rw [nextSuffixLength_of_pos hpos hlt]
        split <;> omega
      · rw [nextSuffixLength_six]
        decide

/-! ### Levels (R102 to R106) -/

/-- The size of a level_suffix below the escapes (R102). -/
theorem levelSuffixSize_of_le {p : Nat} (h : p ≤ 13) (sl : Nat) : levelSuffixSize p sl = sl := by
  rw [levelSuffixSize, if_neg (by omega), if_neg (by omega)]

theorem levelSuffixSize_fourteen {sl : Nat} (h : 0 < sl) : levelSuffixSize 14 sl = sl := by
  rw [levelSuffixSize, if_neg (by omega), if_neg (by omega)]

theorem levelSuffixSize_escape {p : Nat} (h : 15 ≤ p) (sl : Nat) : levelSuffixSize p sl = p - 3 := by
  rw [levelSuffixSize, if_neg (by omega), if_pos h]

/-- Below the escape at 15 only level_prefix and level_suffix count (R103). -/
theorem levelCode_of_le {p : Nat} (h : p ≤ 14) (sl suf : Nat) : levelCode p sl suf false = p * 2 ^ sl + suf := by
  rw [levelCode, min_eq_right (by omega), if_neg (by omega), if_neg (by omega), if_neg Bool.false_ne_true]
  ring

/-- With suffixLength 0 the escapes add 15 (R103). -/
theorem levelCode_escape_zero {p : Nat} (h : 15 ≤ p) (suf : Nat) :
    levelCode p 0 suf false = 30 + (if p ≥ 16 then 2 ^ (p - 3) - 4096 else 0) + suf := by
  rw [levelCode, min_eq_left h, if_pos ⟨h, rfl⟩, if_neg Bool.false_ne_true]
  push_cast
  ring

theorem levelCode_escape_pos {p sl : Nat} (h : 15 ≤ p) (hsl : 0 < sl) (suf : Nat) :
    levelCode p sl suf false = 15 * 2 ^ sl + (if p ≥ 16 then 2 ^ (p - 3) - 4096 else 0) + suf := by
  rw [levelCode, min_eq_left h, if_neg (by omega), if_neg Bool.false_ne_true]
  push_cast
  ring

theorem levelCode_first (p sl suf : Nat) : levelCode p sl suf true = levelCode p sl suf false + 2 := by
  simp [levelCode]

theorem levelOf_even (m : Int) : levelOf (2 * m) = m + 1 := by
  rw [levelOf, if_pos (by omega)]
  omega

theorem levelOf_odd (m : Int) : levelOf (2 * m + 1) = -(m + 1) := by
  rw [levelOf, if_neg (by omega)]
  omega

/-- A level is about half its levelCode in magnitude, and never 0 (R104, R106). -/
theorem levelOf_range {code bound : Int} (hlo : 0 ≤ code) (hhi : code ≤ 2 * bound - 1) :
    -bound ≤ levelOf code ∧ levelOf code ≤ bound ∧ levelOf code ≠ 0 := by
  unfold levelOf
  split <;> omega

/-- What level_prefix and the escape of suffixLength 0 add is at most `15 * 2^6`, the "+2" of R103 among it. -/
theorem levelCode_base_le {p sl : Nat} {first : Bool} (hsl : sl ≤ 6) (hfirst : first = true → sl ≤ 1) :
    ((min 15 p : Nat) : Int) * 2 ^ sl + (if p ≥ 15 ∧ sl = 0 then 15 else 0) + (if first then 2 else 0) ≤ 960 := by
  have hprefix : min 15 p * 2 ^ sl ≤ 15 * 2 ^ sl := Nat.mul_le_mul_right _ (min_le_left _ _)
  have hcast : ((min 15 p : Nat) : Int) * 2 ^ sl = ((min 15 p * 2 ^ sl : Nat) : Int) := by push_cast; rfl
  rw [hcast]
  rcases Nat.lt_or_ge 1 sl with hlt | hle
  · have hpow : 2 ^ sl ≤ 2 ^ 6 := Nat.pow_le_pow_right (by decide) hsl
    rw [if_neg (by omega), if_neg fun h => absurd (hfirst h) (Nat.not_le.2 hlt)]
    omega
  · have hpow : 2 ^ sl ≤ 2 ^ 1 := Nat.pow_le_pow_right (by decide) hle
    split <;> split <;> omega

/-- What level_suffix and the escape of level_prefix 16 and above add. -/
theorem levelCode_suffix_le {p sl suf : Nat} (hp : p ≤ 31) (hsl : sl ≤ 6) (hsuf : suf < 2 ^ levelSuffixSize p sl) :
    (suf : Int) + (if p ≥ 16 then 2 ^ (p - 3) - 4096 else 0) ≤ 2 ^ 29 - 4097 := by
  split
  · rename_i h
    rw [levelSuffixSize_escape (by omega)] at hsuf
    have hpow : 2 ^ (p - 3) ≤ 2 ^ 28 := Nat.pow_le_pow_right (by decide) (by omega)
    have hcast : (2 : Int) ^ (p - 3) = ((2 ^ (p - 3) : Nat) : Int) := by push_cast; rfl
    rw [hcast]
    omega
  · have hsize : levelSuffixSize p sl ≤ 28 := levelSuffixSize_le hp hsl
    have hpow : 2 ^ levelSuffixSize p sl ≤ 2 ^ 28 := Nat.pow_le_pow_right (by decide) hsize
    omega

/-- levelCode is at most 536,867,775 (R106). -/
theorem levelCode_le {p sl suf : Nat} {first : Bool} (hp : p ≤ 31) (hsl : sl ≤ 6) (hsuf : suf < 2 ^ levelSuffixSize p sl)
    (hfirst : first = true → sl ≤ 1) : levelCode p sl suf first ≤ 536867775 := by
  have hbase := levelCode_base_le (p := p) hsl hfirst
  have hsuffix := levelCode_suffix_le hp hsl hsuf
  unfold levelCode
  omega

/-- Settles O46: `levelCode_le` bounds the code and `levelOf_range` its level; the sums are those of R103, case by case. -/
theorem levelsStayInRange : Obligations.LevelsStayInRange := by
  refine ⟨fun p sl suf first hp hsl hsuf hfirst => ?_, ?_, fun m => ⟨levelOf_even m, levelOf_odd m⟩, levelCode_first,
    fun p sl suf hp => ⟨levelSuffixSize_of_le hp sl, levelCode_of_le (Nat.le_succ_of_le hp) sl suf⟩,
    fun suf => ⟨rfl, ?_, rfl, ?_, rfl, ?_⟩,
    fun sl suf hsl => ⟨levelSuffixSize_fourteen hsl, ?_, levelSuffixSize_escape le_rfl sl, ?_,
      levelSuffixSize_escape (by decide) sl, ?_⟩⟩
  · have hsize : suf < 2 ^ 28 := hsuf.trans_le (Nat.pow_le_pow_right (by decide) (levelSuffixSize_le hp hsl))
    have hle := levelCode_le hp hsl hsuf hfirst
    exact ⟨hle, levelOf_range (levelCode_range hp hsl hsize first).1 hle⟩
  · rw [levelCode_escape_pos (by decide) (by decide), levelSuffixSize_escape (by decide)]
    norm_num
  · rw [levelCode_of_le le_rfl]
    norm_num
  · rw [levelCode_escape_zero le_rfl]
    norm_num
  · rw [levelCode_escape_zero (by decide)]
    norm_num
  · exact levelCode_of_le le_rfl sl suf
  · rw [levelCode_escape_pos le_rfl hsl]
    norm_num
  · rw [levelCode_escape_pos (by decide) hsl]
    norm_num

end Sys2Proof.Machine

/-! The statements of 42_cabac.md that follow a CABAC_BLOCK bin by bin: the request that opens it, the coded block it decodes, the
zero block and the unbounded suffix. They are proved on `Asks`; `AsksTo` names the computation a run of bins leads to. -/

namespace Sys2Proof.Machine

/-! ### Where a run of bins leads -/

/-- `r` after one more request. -/
abbrev Run.asked (r : Run) : Run := { r with reqs := r.reqs + 1 }

/-- The bins `bs`, answers to the requests `qs`, take `r` to what `f` makes of a run with the staging copy `S`. -/
def AsksTo (r : Run) (bs : List Bool) (qs : List Request) (f : Run → Run) (S : Results) : Prop :=
  ∃ r', r'.cmd = r.cmd ∧ r'.staged = S ∧ Asks r bs qs (f r')

section
variable {r : Run} {bs bs' : List Bool} {qs qs' : List Request} {f f' : Run → Run} {S S' : Results} {p : BinPhase}

/-- Where `f` needs no further bin. -/
theorem AsksTo.done (h : (f r).cmd = r.cmd) : AsksTo (f r) [] [] f r.staged := ⟨r, h.symm, rfl, .nil _⟩

theorem Run.goto_of_phase {p : Phase} (h : r.phase = p) : r.goto p = r := by subst h; rfl

theorem AsksTo.here {p : Phase} (h : r.phase = p) : AsksTo r [] [] (Run.goto p) r.staged :=
  ⟨r, rfl, rfl, (Run.goto_of_phase h).symm ▸ .nil r⟩

theorem AsksTo.cons (hp : r.phase = .bin p) {b : Bool} (h : AsksTo (afterBin p b r.asked) bs qs f S) :
    AsksTo r (b :: bs) (requestOf p r :: qs) f S := by
  obtain ⟨r', hcmd, hS, h⟩ := h
  exact ⟨r', hcmd.trans (goes_afterBin p b _).1.cmd, hS, .cons hp h⟩

theorem AsksTo.append (h : AsksTo r bs qs f S)
    (h' : ∀ r', r'.cmd = r.cmd → r'.staged = S → AsksTo (f r') bs' qs' f' S') :
    AsksTo r (bs ++ bs') (qs ++ qs') f' S' := by
  obtain ⟨r', hcmd, hS, h⟩ := h
  obtain ⟨r'', hcmd', hS', h'⟩ := h' r' hcmd hS
  exact ⟨r'', hcmd'.trans h.cmd, hS', h.append h'⟩

theorem Run.block_of_cmd {r' : Run} (h : r'.cmd = r.cmd) : r'.block = r.block := congrArg blockOf h

end

/-! ### The bins of one level (R121, R122) -/

section
variable {r : Run} {i g e : Nat}

/-- The request for ABS bin `n`. -/
def absRequest (b : BlockAddress) (i g e n : Nat) : Request := .decision ⟨.abs, b.blockType, b.maxc, b.cat, i, n, g, e⟩

/-- Bins of 1 in the unary part. -/
theorem asks_absOnes (m : Nat) : ∀ {r : Run} {n : Nat}, r.phase = .bin (.absUnary i n g e) → n + m < 14 →
    AsksTo r (List.replicate m true) ((List.range' n m).map (absRequest r.block i g e))
      (Run.goto (.bin (.absUnary i (n + m) g e))) r.staged := by
  induction m with
  | zero => exact fun hp _ => .here hp
  | succ m ih =>
    intro r n hp hn
    have hnext : afterBin (.absUnary i n g e) true r.asked = Run.goto (.bin (.absUnary i (n + 1) g e)) r.asked :=
      if_pos (show n + 1 < 14 by omega)
    refine .cons hp ?_
    rw [hnext, show n + (m + 1) = n + 1 + m by omega]
    exact ih rfl (by omega)

/-- Bins of 1 in the suffix's unary part. -/
theorem asks_sufOnes (m : Nat) : ∀ {r : Run} {k : Nat}, r.phase = .bin (.sufUnary i k (2 ^ k - 1) g e) → k + m ≤ 29 →
    AsksTo r (List.replicate m true) (List.replicate m .bypass)
      (Run.goto (.bin (.sufUnary i (k + m) (2 ^ (k + m) - 1) g e))) r.staged := by
  induction m with
  | zero => exact fun hp _ => .here hp
  | succ m ih =>
    intro r k hp hk
    have hsuf : 2 ^ k - 1 + 2 ^ k = 2 ^ (k + 1) - 1 := by
      have := Nat.two_pow_pos k
      rw [Nat.pow_succ]
      omega
    have hnext : afterBin (.sufUnary i k (2 ^ k - 1) g e) true r.asked
        = Run.goto (.bin (.sufUnary i (k + 1) (2 ^ (k + 1) - 1) g e)) r.asked := by
      rw [← hsuf]
      exact if_neg (show ¬ k + 1 > 29 by omega)
    refine .cons hp ?_
    rw [hnext, show k + (m + 1) = k + 1 + m by omega]
    exact ih rfl (by omega)

theorem msbBits_succ (k n : Nat) : msbBits (k + 1) n = n.testBit k :: msbBits k n := by
  rw [msbBits, List.range_succ_eq_map, List.map_cons, List.map_map]
  refine congrArg (List.cons _) (List.map_congr_left fun j _ => ?_)
  exact congrArg n.testBit (show k + 1 - 1 - (j + 1) = k - 1 - j by omega)

theorem mod_two_pow_succ (n k : Nat) : n % 2 ^ (k + 1) = (n.testBit k).toNat * 2 ^ k + n % 2 ^ k := by
  rw [Nat.mod_pow_succ, ← Nat.toNat_testBit, Nat.add_comm, Nat.mul_comm]

/-- The suffix's bits after its unary part. -/
theorem asks_sufBits (n k : Nat) : ∀ {r : Run} {suf : Nat}, r.phase = .bin (.sufBits i (k + 1) suf g e) →
    AsksTo r (msbBits (k + 1) n) (List.replicate (k + 1) .bypass)
      (Run.goto (.bin (.sign i (14 + (suf + n % 2 ^ (k + 1))) g e))) r.staged := by
  induction k with
  | zero =>
    intro r suf hp
    rw [msbBits_succ, mod_two_pow_succ, Nat.pow_zero, Nat.mod_one, Nat.add_zero]
    exact .cons hp (.here rfl)
  | succ k ih =>
    intro r suf hp
    rw [msbBits_succ, mod_two_pow_succ, ← Nat.add_assoc suf]
    refine .cons hp ?_
    have hnext : afterBin (.sufBits i (k + 1 + 1) suf g e) (n.testBit (k + 1)) r.asked
        = Run.goto (.bin (.sufBits i (k + 1) (suf + (n.testBit (k + 1)).toNat * 2 ^ (k + 1)) g e)) r.asked := by
      rw [afterBin, afterSufBits, if_neg (by omega)]
      rfl
    rw [hnext]
    exact ih rfl

/-- The suffix of a level, whose run of `k` ones and `k` bits code `2^k - 1 + n`. -/
theorem asks_suffix {k n : Nat} (hk : k ≤ 29) (hn : n < 2 ^ k) (hp : r.phase = .bin (.sufUnary i 0 0 g e)) :
    AsksTo r (List.replicate k true ++ false :: msbBits k n) (List.replicate k .bypass ++ .bypass :: List.replicate k .bypass)
      (Run.goto (.bin (.sign i (14 + (2 ^ k - 1 + n)) g e))) r.staged := by
  have hones := asks_sufOnes k hp (by omega)
  rw [Nat.zero_add] at hones
  refine hones.append fun r' _ hS => ?_
  rw [← hS]
  refine .cons (p := .sufUnary i k (2 ^ k - 1) g e) rfl ?_
  cases k with
  | zero =>
    obtain rfl : n = 0 := by omega
    exact .here rfl
  | succ k =>
    have hbits := asks_sufBits (i := i) (g := g) (e := e) n k
      (r := Run.goto (.bin (.sufBits i (k + 1) (2 ^ (k + 1) - 1) g e)) r'.asked) rfl
    rw [Nat.mod_eq_of_lt hn] at hbits
    exact hbits

/-- `suffixK` is the length it stands for (R122). -/
theorem suffixK_spec {v : Nat} (hv : 14 ≤ v) (hmax : v < 14 + 2 ^ 30 - 1) :
    suffixK v ≤ 29 ∧ v - 14 + 1 - 2 ^ suffixK v < 2 ^ suffixK v
      ∧ 14 + (2 ^ suffixK v - 1 + (v - 14 + 1 - 2 ^ suffixK v)) = v := by
  have hlo : 2 ^ suffixK v ≤ v - 14 + 1 := Nat.log2_self_le (by omega)
  have hhi : v - 14 + 1 < 2 ^ (suffixK v + 1) := Nat.lt_log2_self
  have hk : suffixK v < 30 := (Nat.log2_lt (by omega)).2 (by omega)
  have hpos := Nat.two_pow_pos (suffixK v)
  rw [Nat.pow_succ] at hhi
  omega

theorem map_absRequest_range_succ (b : BlockAddress) (i g e n : Nat) : (List.range (n + 1)).map (absRequest b i g e)
    = (List.range' 0 n).map (absRequest b i g e) ++ [absRequest b i g e n] := by
  rw [List.range_succ, List.map_append, List.range_eq_range', List.map_singleton]

/-- The requests of a level without a suffix. -/
theorem absRequests_of_lt (b : BlockAddress) {v : Nat} (hv : v < 14) :
    absRequests b i v g e = (List.range' 0 v).map (absRequest b i g e) ++ [absRequest b i g e v] := by
  rw [absRequests, if_pos hv, List.append_nil, Nat.min_eq_left hv]
  exact map_absRequest_range_succ b i g e v

/-- The requests of a level with a suffix. -/
theorem absRequests_of_not_lt (b : BlockAddress) {v : Nat} (hv : ¬ v < 14) :
    absRequests b i v g e = (List.range' 0 13).map (absRequest b i g e) ++ absRequest b i g e 13
      :: (List.replicate (suffixK v) .bypass ++ .bypass :: List.replicate (suffixK v) .bypass) := by
  rw [absRequests, if_neg hv, Nat.min_eq_right (by omega), ← List.replicate_succ, ← List.replicate_add,
    show suffixK v + (suffixK v + 1) = 2 * suffixK v + 1 by omega, List.append_cons]
  exact congrArg (· ++ _) (map_absRequest_range_succ b i g e 13)

theorem absBins_of_not_lt {v : Nat} (hv : ¬ v < 14) :
    absBins v = List.replicate 13 true ++ true
      :: (List.replicate (suffixK v) true ++ false :: msbBits (suffixK v) (v - 14 + 1 - 2 ^ suffixK v)) := by
  rw [absBins, if_neg hv, List.append_assoc, List.append_assoc]
  rfl

/-- absLevelMinus1 = `v` is read from its bins (R121, R122). -/
theorem asks_absBins {v : Nat} (hp : r.phase = .bin (.absUnary i 0 g e)) (hv : v < 14 + 2 ^ 30 - 1) :
    AsksTo r (absBins v) (absRequests r.block i v g e) (Run.goto (.bin (.sign i v g e))) r.staged := by
  by_cases hlt : v < 14
  · rw [absRequests_of_lt _ hlt, absBins, if_pos hlt]
    refine (asks_absOnes v hp (by omega)).append fun r' hcmd hS => ?_
    rw [← hS, ← Run.block_of_cmd hcmd, Nat.zero_add]
    exact .cons (p := .absUnary i v g e) rfl (.here rfl)
  · obtain ⟨hk, hn, hsum⟩ := suffixK_spec (Nat.le_of_not_lt hlt) hv
    rw [absRequests_of_not_lt _ hlt, absBins_of_not_lt hlt]
    refine (asks_absOnes 13 hp (by omega)).append fun r' hcmd hS => ?_
    rw [← hS, ← Run.block_of_cmd hcmd]
    refine .cons (p := .absUnary i 13 g e) rfl ?_
    have hsuffix := asks_suffix (r := Run.goto (.bin (.sufUnary i 0 0 g e)) r'.asked) hk hn rfl
    rw [hsum] at hsuffix
    exact hsuffix

end

/-! ### The levels of a block (R121 to R124) -/

/-- The staging copy after the sign bin of the position, level and sign `c` (R123). -/
def placeCoef (S : Results) (c : Nat × Nat × Bool) : Results :=
  { S with
    abslm1 := S.abslm1.setIfInBounds c.1 (BitVec.ofNat 32 c.2.1)
    signmap := putBit S.signmap c.1 c.2.2
    coef := S.coef.setIfInBounds c.1 (BitVec.ofInt 32 (((c.2.1 : Int) + 1) * (1 - 2 * (c.2.2.toNat : Int)))) }

/-- The positions of `l` are the significant ones below `n` and not below `start`, from the highest down (R124). -/
def ListsBelow (sig : BitVec 64) (start : Nat) : Nat → List (Nat × Nat × Bool) → Prop
  | n, [] => nextSignificant sig start n = none
  | n, c :: rest => nextSignificant sig start n = some c.1 ∧ ListsBelow sig start c.1 rest

/-- Levels read in this order are all the block still asks for. -/
theorem asks_levels (l : List (Nat × Nat × Bool)) : ∀ {r : Run} {n g e : Nat},
    ListsBelow r.staged.sigmap r.block.start n l → (∀ c ∈ l, c.2.1 < 14 + 2 ^ 30 - 1) →
    AsksTo (nextCoef n g e r) (levelBins l) (levelRequests r.block g e l) finishCabac (l.foldl placeCoef r.staged) := by
  induction l with
  | nil =>
    intro r n g e hl _
    rw [nextCoef, show nextSignificant _ _ n = none from hl]
    exact .done rfl
  | cons c rest ih =>
    obtain ⟨i, v, s⟩ := c
    intro r n g e hl hv
    obtain ⟨hi, hl⟩ := hl
    obtain ⟨hvi, hv⟩ := List.forall_mem_cons.1 hv
    rw [nextCoef, hi]
    refine (asks_absBins (r := r.goto (.bin (.absUnary i 0 g e))) rfl hvi).append
      fun r' hcmd (hS : r'.staged = r.staged) => ?_
    have hblock : r'.block = r.block := Run.block_of_cmd hcmd
    refine .cons (p := .sign i v g e) rfl ?_
    rw [← hblock, ← hS] at hl ⊢
    exact ih (r := Run.stage (fun S => placeCoef S (i, v, s)) (r'.goto (.bin (.sign i v g e))).asked) hl hv

/-! ### The entries of a block by position -/

section
variable {start j n : Nat} {c : Option (Nat × Bool)} {cs : CabacCoefs}

theorem coefEntry_of_lt (h : j < start) : coefEntry start cs j = none := if_pos h

theorem coefEntry_nil : coefEntry start [] j = none := by
  unfold coefEntry
  split <;> rfl

theorem coefEntry_cons : coefEntry start (c :: cs) j = if j = start then c else coefEntry (start + 1) cs j := by
  unfold coefEntry
  rcases Nat.lt_trichotomy j start with h | rfl | h
  · rw [if_pos h, if_neg h.ne, if_pos (by omega)]
  · rw [if_neg (Nat.lt_irrefl _), if_pos rfl, Nat.sub_self]
    rfl
  · rw [if_neg h.asymm, if_neg h.ne', if_neg (by omega), show j - start = j - (start + 1) + 1 by omega]
    rfl

theorem coefEntry_cons_none : coefEntry start (none :: cs) = coefEntry (start + 1) cs := by
  funext j
  rw [coefEntry_cons]
  split
  · rw [coefEntry_of_lt (by omega)]
  · rfl

theorem downward_cons :
    downward start (c :: cs) = downward (start + 1) cs ++ (c.map fun c => (start, c.1, c.2)).toList := by
  rw [downward, List.length_cons, List.range_succ_eq_map, List.filterMap_cons, List.filterMap_map, downward]
  have htail : ((fun k => ((c :: cs).getD k none).map fun c => (start + k, c.1, c.2)) ∘ Nat.succ)
      = fun k => (cs.getD k none).map fun c => (start + 1 + k, c.1, c.2) := by
    funext k
    rw [Nat.add_assoc, Nat.add_comm 1]
    rfl
  rw [htail]
  cases c <;> simp

/-! ### Masks by position -/

/-- A map whose bit `j` is `f j`. -/
def mask64 (f : Nat → Bool) : BitVec 64 := maskOf 64 ((List.range 64).map f)

theorem mask64_getLsbD (f : Nat → Bool) (hj : j < 64) : (mask64 f).getLsbD j = f j := by
  rw [mask64, maskOf_getLsbD _ hj]
  simp [hj]

theorem eq_mask64 {f : Nat → Bool} {m : BitVec 64} (h : ∀ j, j < 64 → m.getLsbD j = f j) : m = mask64 f :=
  BitVec.eq_of_getLsbD_eq fun j hj => by rw [h j hj, mask64_getLsbD f hj]

theorem putBit_mask64 (f : Nat → Bool) (i : Nat) (b : Bool) : putBit (mask64 f) i b = mask64 fun j => f j || (b && j == i) := by
  refine eq_mask64 fun j hj => ?_
  rw [putBit_getLsbD, mask64_getLsbD f hj, decide_eq_true hj, Bool.and_true]
  rfl

theorem mask64_false : mask64 (fun _ => false) = 0 := (eq_mask64 fun _ _ => BitVec.getLsbD_zero).symm

/-- The significance map of the coefficients `cs` from position `start` on (R120). -/
def sigMask (start : Nat) (cs : CabacCoefs) : BitVec 64 := mask64 fun j => (coefEntry start cs j).isSome

theorem sigMask_getLsbD (hj : j < 64) : (sigMask start cs).getLsbD j = (coefEntry start cs j).isSome := mask64_getLsbD _ hj

theorem sigMask_nil : sigMask start [] = 0 := by
  rw [sigMask, ← mask64_false]
  exact congrArg mask64 (funext fun j => by rw [coefEntry_nil]; rfl)

theorem sigMask_cons_none : sigMask start (none :: cs) = sigMask (start + 1) cs := by rw [sigMask, coefEntry_cons_none, sigMask]

theorem sigMask_cons_some (x : Nat × Bool) : sigMask start (some x :: cs) = putBit (sigMask (start + 1) cs) start true := by
  rw [sigMask, sigMask, putBit_mask64]
  refine congrArg mask64 (funext fun j => ?_)
  rw [coefEntry_cons]
  by_cases h : j = start
  · simp [h]
  · simp [h]

theorem countBits_eq_card (m : BitVec 64) : countBits m = ((Finset.range 64).filter fun j => m.getLsbD j = true).card := by
  rw [countBits, ← List.toFinset_card_of_nodup (List.nodup_range.filter _), List.toFinset_filter, List.toFinset_range]

theorem countBits_putBit {m : BitVec 64} {i : Nat} (hi : i < 64) (hm : m.getLsbD i = false) :
    countBits (putBit m i true) = countBits m + 1 := by
  have hset : ((Finset.range 64).filter fun j => (putBit m i true).getLsbD j = true)
      = insert i ((Finset.range 64).filter fun j => m.getLsbD j = true) := by
    ext j
    simp only [Finset.mem_filter, Finset.mem_range, Finset.mem_insert, putBit_true_iff m hi j]
    constructor
    · tauto
    · rintro (rfl | ⟨h, hj⟩)
      · exact ⟨hi, .inr rfl⟩
      · exact ⟨h, .inl hj⟩
  rw [countBits_eq_card, countBits_eq_card, hset, Finset.card_insert_of_notMem]
  simp [hm]

/-- TOTALCOEFF counts the significant positions (R125). -/
theorem countBits_sigMask (cs : CabacCoefs) : ∀ {start : Nat}, start + cs.length ≤ 64 →
    countBits (sigMask start cs) = (cs.filterMap id).length := by
  induction cs with
  | nil =>
    intro start _
    rw [sigMask_nil]
    rfl
  | cons c cs ih =>
    intro start hfit
    rw [List.length_cons] at hfit
    cases c with
    | none => rw [sigMask_cons_none, ih (by omega)]; rfl
    | some x =>
      have hclear : (sigMask (start + 1) cs).getLsbD start = false := by
        rw [sigMask_getLsbD (by omega), coefEntry_of_lt (Nat.lt_succ_self _)]
        rfl
      rw [sigMask_cons_some, countBits_putBit (by omega) hclear, ih (by omega)]
      rfl

/-! ### The order of the levels (R124) -/

theorem nextSignificant_succ_of_sig {sig : BitVec 64} (hstart : start ≤ n) (h : sig.getLsbD n = true) :
    nextSignificant sig start (n + 1) = some n := by
  rw [nextSignificant, if_neg (Nat.not_lt.2 hstart), if_pos h]

theorem nextSignificant_succ_of_not_sig {sig : BitVec 64} (hstart : start ≤ n) (h : sig.getLsbD n = false) :
    nextSignificant sig start (n + 1) = nextSignificant sig start n := by
  rw [nextSignificant, if_neg (Nat.not_lt.2 hstart), if_neg (by rw [h]; decide)]

theorem nextSignificant_start (sig : BitVec 64) (start : Nat) : nextSignificant sig start start = none := by
  cases start with
  | zero => rfl
  | succ n => rw [nextSignificant, if_pos (Nat.lt_succ_self n)]

theorem listsBelow_succ_of_not_sig {sig : BitVec 64} {l : List (Nat × Nat × Bool)} (hstart : start ≤ n)
    (h : sig.getLsbD n = false) (hl : ListsBelow sig start n l) : ListsBelow sig start (n + 1) l := by
  cases l with
  | nil => exact (nextSignificant_succ_of_not_sig hstart h).trans hl
  | cons c rest => exact ⟨(nextSignificant_succ_of_not_sig hstart h).trans hl.1, hl.2⟩

/-- `downward` lists the significant positions from the highest down; `below` are those before its first position. -/
theorem listsBelow_downward (cs : CabacCoefs) : ∀ {start n : Nat} {sig : BitVec 64} {below : List (Nat × Nat × Bool)},
    start ≤ n → (∀ j, n ≤ j → j < n + cs.length → sig.getLsbD j = (coefEntry n cs j).isSome) →
    ListsBelow sig start n below → ListsBelow sig start (n + cs.length) (downward n cs ++ below) := by
  induction cs with
  | nil => exact fun _ _ h => h
  | cons c cs ih =>
    intro start n sig below hstart hsig hbelow
    have hhead : sig.getLsbD n = c.isSome := by
      rw [hsig n le_rfl (by simp), coefEntry_cons, if_pos rfl]
    have htail : ∀ j, n + 1 ≤ j → j < n + 1 + cs.length → sig.getLsbD j = (coefEntry (n + 1) cs j).isSome := by
      intro j hj hlt
      rw [hsig j (by omega) (by rw [List.length_cons]; omega), coefEntry_cons, if_neg (by omega)]
    rw [downward_cons, List.append_assoc, List.length_cons, Nat.add_comm cs.length, ← Nat.add_assoc]
    refine ih (by omega) htail ?_
    cases c with
    | none => exact listsBelow_succ_of_not_sig hstart hhead hbelow
    | some x => exact ⟨nextSignificant_succ_of_sig hstart hhead, hbelow⟩

/-! ### The staging copy of a block -/

/-- The staging copy after the significance map of `cs` from position `start` on (R120). -/
def withMap (S : Results) (start : Nat) (cs : CabacCoefs) : Results :=
  { S with
    sigmap := S.sigmap ||| sigMask start cs
    lastmap := S.lastmap ||| mask64 fun j => j == start + cs.length - 1
    lastpos := BitVec.ofNat 32 (start + cs.length - 1) }

theorem withMap_of_clear {S : Results} (hsig : S.sigmap = 0) (hlast : S.lastmap = 0) :
    withMap S start cs = { S with
      sigmap := sigMask start cs
      lastmap := mask64 fun j => j == start + cs.length - 1
      lastpos := BitVec.ofNat 32 (start + cs.length - 1) } := by
  have hor : ∀ m : BitVec 64, 0 ||| m = m := fun _ => BitVec.zero_or
  rw [withMap, hsig, hlast, hor, hor]

theorem withMap_cons_none (S : Results) : withMap S start (none :: cs) = withMap S (start + 1) cs := by
  rw [withMap, withMap, sigMask_cons_none, List.length_cons, show start + (cs.length + 1) = start + 1 + cs.length by omega]

theorem putBit_or {k : Nat} (m m' : BitVec k) (i : Nat) : m ||| putBit m' i true = putBit m i true ||| m' := by
  rw [putBit, putBit, if_pos rfl, if_pos rfl, BitVec.or_assoc, BitVec.or_comm m']

theorem withMap_cons_some (S : Results) (x : Nat × Bool) :
    withMap S start (some x :: cs) = withMap { S with sigmap := putBit S.sigmap start true } (start + 1) cs := by
  rw [withMap, withMap, sigMask_cons_some, List.length_cons, show start + (cs.length + 1) = start + 1 + cs.length by omega,
    putBit_or]

/-- The final position alone, requested or inferred. -/
theorem withMap_singleton (S : Results) (x : Nat × Bool) :
    withMap S n [some x] = { S with
      sigmap := putBit S.sigmap n true, lastmap := putBit S.lastmap n true, lastpos := BitVec.ofNat 32 n } := by
  have hlast : mask64 (fun j => j == n) = putBit 0 n true := by
    rw [← mask64_false, putBit_mask64]
    rfl
  rw [withMap, sigMask_cons_some, sigMask_nil, putBit_or, List.length_singleton, Nat.add_sub_cancel, hlast, putBit_or]
  simp

theorem putBit_putBit {k : Nat} (m : BitVec k) (i : Nat) : putBit (putBit m i true) i true = putBit m i true := by
  rw [putBit, putBit, if_pos rfl, if_pos rfl, BitVec.or_assoc, BitVec.or_self]

/-- A final position that was requested is staged twice, to the same effect. -/
theorem withMap_requested (S : Results) (x : Nat × Bool) :
    withMap { S with sigmap := putBit S.sigmap n true, lastmap := putBit S.lastmap n true } n [some x]
      = withMap S n [some x] := by
  simp only [withMap_singleton, putBit_putBit]

/-- ABSLM1 of an entry (R123). -/
def absWord (c : Option (Nat × Bool)) : Word := BitVec.ofNat 32 ((c.map Prod.fst).getD 0)

/-- COEF of an entry (R123). -/
def coefWord (c : Option (Nat × Bool)) : Word :=
  match c with
  | none => 0
  | some (v, s) => BitVec.ofInt 32 (if s then -((v : Int) + 1) else (v : Int) + 1)

theorem coefWord_some (v : Nat) (s : Bool) :
    coefWord (some (v, s)) = BitVec.ofInt 32 (((v : Int) + 1) * (1 - 2 * (s.toNat : Int))) := by
  cases s <;> simp [coefWord]

/-- The register array that holds a word of each entry. -/
def wordsFrom (word : Option (Nat × Bool) → Word) (start : Nat) (cs : CabacCoefs) : Vector Word 64 :=
  Vector.ofFn fun j => word (coefEntry start cs j.val)

theorem wordsFrom_nil {word : Option (Nat × Bool) → Word} (h : word none = 0) :
    wordsFrom word start [] = Vector.replicate 64 0 := by
  ext j hj : 1
  rw [wordsFrom, Vector.getElem_ofFn, coefEntry_nil, Vector.getElem_replicate, h]

theorem wordsFrom_cons_some (word : Option (Nat × Bool) → Word) (x : Nat × Bool) :
    wordsFrom word start (some x :: cs) = (wordsFrom word (start + 1) cs).setIfInBounds start (word (some x)) := by
  ext j hj : 1
  rw [Vector.getElem_setIfInBounds hj, wordsFrom, wordsFrom, Vector.getElem_ofFn, Vector.getElem_ofFn, coefEntry_cons]
  by_cases h : j = start
  · rw [if_pos h, if_pos h.symm]
  · rw [if_neg h, if_neg (Ne.symm h)]

/-- The sign map of the entries (R123). -/
def signMask (start : Nat) (cs : CabacCoefs) : BitVec 64 := mask64 fun j => ((coefEntry start cs j).map Prod.snd).getD false

theorem signMask_nil : signMask start [] = 0 := by
  rw [signMask, ← mask64_false]
  exact congrArg mask64 (funext fun j => by rw [coefEntry_nil]; rfl)

theorem signMask_cons_some (v : Nat) (s : Bool) :
    signMask start (some (v, s) :: cs) = putBit (signMask (start + 1) cs) start s := by
  rw [signMask, signMask, putBit_mask64]
  refine congrArg mask64 (funext fun j => ?_)
  rw [coefEntry_cons]
  by_cases h : j = start
  · subst h
    simp [coefEntry_of_lt (Nat.lt_succ_self _)]
  · simp [h]

/-- `S` with the levels and signs of `cs`, from position `start` on (R123, R125). -/
def withCoefs (S : Results) (start : Nat) (cs : CabacCoefs) : Results :=
  { S with
    abslm1 := wordsFrom absWord start cs
    signmap := signMask start cs
    coef := wordsFrom coefWord start cs }

/-- No level has been staged yet. -/
structure NoCoefs (S : Results) : Prop where
  abslm1 : S.abslm1 = Vector.replicate 64 0
  signmap : S.signmap = 0
  coef : S.coef = Vector.replicate 64 0

theorem withCoefs_nil {S : Results} (h : NoCoefs S) : withCoefs S start [] = S := by
  have habs : wordsFrom absWord start [] = S.abslm1 := (wordsFrom_nil rfl).trans h.abslm1.symm
  have hsign : signMask start [] = S.signmap := signMask_nil.trans h.signmap.symm
  have hcoef : wordsFrom coefWord start [] = S.coef := (wordsFrom_nil rfl).trans h.coef.symm
  rw [withCoefs, habs, hsign, hcoef]

theorem withCoefs_cons_none (S : Results) : withCoefs S start (none :: cs) = withCoefs S (start + 1) cs := by
  simp only [withCoefs, wordsFrom, signMask, coefEntry_cons_none]

theorem withCoefs_cons_some (S : Results) (v : Nat) (s : Bool) :
    withCoefs S start (some (v, s) :: cs) = placeCoef (withCoefs S (start + 1) cs) (start, v, s) := by
  simp only [withCoefs, placeCoef, wordsFrom_cons_some, signMask_cons_some, coefWord_some]
  rfl

/-- Placing the levels in their order gives every position its entry. -/
theorem foldl_placeCoef_downward {S : Results} (h : NoCoefs S) (cs : CabacCoefs) :
    ∀ start, (downward start cs).foldl placeCoef S = withCoefs S start cs := by
  induction cs with
  | nil => exact fun start => (withCoefs_nil h).symm
  | cons c cs ih =>
    intro start
    rw [downward_cons, List.foldl_append, ih]
    cases c with
    | none => exact (withCoefs_cons_none S).symm
    | some x => exact (withCoefs_cons_some S x.1 x.2).symm

end

/-! ### A coded block (R119, R120) -/

theorem scanFrom_within {i n : Nat} (h : i + 1 < n) (r : Run) : scanFrom i n r = r.goto (.bin (.significant i n)) := if_pos h

theorem scanFrom_final {i n : Nat} (h : n ≤ i + 1) (r : Run) : scanFrom i n r = finalPosition (n - 1) r :=
  if_neg (Nat.not_lt.2 h)

theorem asksTo_finalPosition (i : Nat) (x : Nat × Bool) (r : Run) :
    AsksTo (finalPosition i r) [] [] (nextCoef (i + 1) 0 0) (withMap r.staged i [some x]) := by
  rw [withMap_singleton]
  exact .done (goes_nextCoef _ _ _ _).1.cmd

/-- A last-significance bin of 1 ends the scan (R119). -/
theorem afterLast_one (i n : Nat) (r : Run) :
    afterLast i n true r = finalPosition i (r.stage fun S => { S with lastmap := putBit S.lastmap i true }) := by
  rw [afterLast, if_pos rfl, scanFrom_final (Nat.le_succ _)]
  rfl

/-- The scan of a coded block's positions leads to its levels. -/
theorem asks_scan (stop : Nat) (i : Nat) (cs : CabacCoefs) : ∀ {r : Run}, r.block.stop = stop →
    (∃ x, cs.getLast? = some (some x)) → i + cs.length ≤ stop + 1 →
    AsksTo (scanFrom i (stop + 1) r) (scanBins stop i cs) (scanRequests r.block i cs) (nextCoef (i + cs.length) 0 0)
      (withMap r.staged i cs) := by
  induction i, cs using scanBins.induct stop with
  | case1 =>
    rintro r - ⟨x, hx⟩
    cases hx
  | case2 c =>
    rintro r hstop ⟨x, hx⟩ -
    obtain rfl : c = some x := Option.some.inj hx
    rw [scanFrom_final le_rfl, scanBins, scanRequests, if_pos rfl, if_pos hstop.symm]
    exact asksTo_finalPosition stop x r
  | case3 i c hne =>
    rintro r hstop ⟨x, hx⟩ hfit
    obtain rfl : c = some x := Option.some.inj hx
    have hlt : i < stop := by rw [List.length_singleton] at hfit; omega
    rw [scanFrom_within (by omega), scanBins, scanRequests, if_neg hne, if_neg (hstop ▸ hne)]
    refine .cons (p := .significant i (stop + 1)) rfl (.cons (p := .last i (stop + 1)) rfl ?_)
    show AsksTo (afterLast i (stop + 1) true _) _ _ _ _
    rw [afterLast_one, ← withMap_requested]
    exact asksTo_finalPosition i x _
  | case4 i c rest ih =>
    intro r hstop hlast hfit
    simp only [List.length_cons] at hfit ih ⊢
    rw [scanFrom_within (by omega), scanBins, scanRequests, withMap_cons_none,
      show i + (rest.length + 1 + 1) = i + 1 + (rest.length + 1) by omega]
    refine .cons (p := .significant i (stop + 1)) rfl ?_
    exact ih (by exact hstop) hlast (by omega)
  | case5 i x c rest ih =>
    intro r hstop hlast hfit
    simp only [List.length_cons] at hfit ih ⊢
    rw [scanFrom_within (by omega), scanBins, scanRequests, withMap_cons_some,
      show i + (rest.length + 1 + 1) = i + 1 + (rest.length + 1) by omega]
    refine .cons (p := .significant i (stop + 1)) rfl (.cons (p := .last i (stop + 1)) rfl ?_)
    exact ih (by exact hstop) hlast (by omega)

/-- The coefficients of a coded block: the final one is significant and in the span, and each level has a code. -/
theorem cabacOk_iff {b : BlockAddress} {cs : CabacCoefs} : cabacOk b cs = true ↔
    (∃ x, cs.getLast? = some (some x)) ∧ b.start + cs.length ≤ b.stop + 1
      ∧ ∀ v s, some (v, s) ∈ cs → v < 14 + 2 ^ 30 - 1 := by
  rw [cabacOk, Bool.and_eq_true, Bool.and_eq_true, decide_eq_true_eq, and_assoc, List.all_eq_true]
  refine and_congr ?_ (and_congr_right fun _ => ⟨fun h v s hmem => of_decide_eq_true (h _ hmem), fun h c hmem => ?_⟩)
  · split
    · rename_i x hx
      exact ⟨fun _ => ⟨x, hx⟩, fun _ => rfl⟩
    · rename_i hno
      exact ⟨fun h => absurd h (by decide), fun ⟨x, hx⟩ => absurd hx (hno x)⟩
  · cases c with
    | none => rfl
    | some c => exact decide_eq_true (h c.1 c.2 hmem)

theorem mem_downward {start : Nat} {cs : CabacCoefs} {c : Nat × Nat × Bool} (h : c ∈ downward start cs) : some c.2 ∈ cs := by
  induction cs generalizing start with
  | nil => cases h
  | cons x cs ih =>
    rw [downward_cons, List.mem_append] at h
    rcases h with h | h
    · exact List.mem_cons_of_mem _ (ih h)
    · cases x with
      | none => cases h
      | some x =>
        obtain rfl : c = (start, x.1, x.2) := List.mem_singleton.1 h
        exact List.mem_cons_self

/-- The staging copy of a coded block before its commit. -/
def codedStaged (b : BlockAddress) (cs : CabacCoefs) : Results :=
  withCoefs (withMap { Results.zero with cbf := 1 } b.start cs) b.start cs

theorem codedStaged_sigmap (b : BlockAddress) (cs : CabacCoefs) : (codedStaged b cs).sigmap = sigMask b.start cs :=
  BitVec.zero_or

/-- The commit of a coded block publishes its results (R125). -/
theorem cabacResults_eq {b : BlockAddress} {cs : CabacCoefs} (hfit : b.start + cs.length ≤ 64) (n : Nat) :
    cabacResults b n cs = { codedStaged b cs with
      totalcoeff := BitVec.ofNat 32 (countBits (codedStaged b cs).sigmap), reqs := BitVec.ofNat 32 n } := by
  rw [codedStaged_sigmap, countBits_sigMask cs hfit, codedStaged, withMap_of_clear rfl rfl]
  unfold cabacResults withCoefs wordsFrom absWord coefWord signMask sigMask mask64
  rfl

/-- From the head of the scan, a coded block's bins lead to its commit (R119 to R125). -/
theorem asks_codedBlock {cs : CabacCoefs} {r : Run} (hok : cabacOk r.block cs = true)
    (hS : r.staged = { Results.zero with cbf := 1 }) :
    AsksTo (scanFrom r.block.start (r.block.stop + 1) r) (cabacBins r.block cs) (cabacRequests r.block cs) finishCabac
      (codedStaged r.block cs) := by
  obtain ⟨hlast, hfit, hv⟩ := cabacOk_iff.1 hok
  have hstop := r.stop_lt
  refine (asks_scan r.block.stop r.block.start cs rfl hlast hfit).append fun r' hcmd hS' => ?_
  have hblock : r'.block = r.block := Run.block_of_cmd (hcmd.trans (goes_scanFrom _ _ r).1.cmd)
  rw [hS] at hS'
  have hlists : ListsBelow r'.staged.sigmap r'.block.start (r.block.start + cs.length) (downward r.block.start cs) := by
    have hsig : r'.staged.sigmap = sigMask r.block.start cs := by rw [hS']; exact codedStaged_sigmap r.block cs
    rw [hsig, hblock, ← List.append_nil (downward _ _)]
    exact listsBelow_downward cs le_rfl (fun j _ hj => sigMask_getLsbD (by omega)) (nextSignificant_start _ _)
  have hlevels := asks_levels _ (g := 0) (e := 0) hlists fun c hc => hv c.2.1 c.2.2 (mem_downward hc)
  rw [hS', foldl_placeCoef_downward ⟨rfl, rfl, rfl⟩, hblock] at hlevels
  exact hlevels

/-! ### A whole CABAC_BLOCK -/

/-- `inputsLeft` bounds the requests that a CABAC_BLOCK still issues (R126). -/
theorem Asks.length_le_inputsLeft {r r' : Run} {bs : List Bool} {qs : List Request} (h : Asks r bs qs r') (hr : CabacInv r) :
    bs.length ≤ inputsLeft r.phase := by
  induction h with
  | nil r => exact Nat.zero_le _
  | @cons r r' p b bs qs hp _ ih =>
    have hat : CabacAt r (.bin p) := hp ▸ hr.2
    have hless := inputsLeft_afterBin (cabacAt_ask hat) b
    rw [hp]
    exact (Nat.succ_le_succ (ih (cabacInv_advances (rule := .doc) hr (.bin hp b)))).trans hless

/-- The CBF request of a block (R116, R117). -/
def cbfRequest (b : BlockAddress) : Request := .decision ⟨.cbf, b.blockType, b.maxc, b.cat, 0, 0, 0, 0⟩

section
variable (start stop : BitVec 6) (maxc : BitVec 3) (btype : BitVec 5) (cat : BitVec 2) (s : State)

/-- CABAC_BLOCK after its legality check. -/
def cabacRun : Run :=
  begunRun (encode (.cabacBlock start stop maxc btype cat)) (.cabacBlock start stop maxc btype cat) s

/-- The block of the command's word. -/
abbrev cabacBlockOf : BlockAddress := blockOf (encode (.cabacBlock start stop maxc btype cat))

end

section
variable {start stop : BitVec 6} {maxc : BitVec 3} {btype : BitVec 5} {cat : BitVec 2} {s : State}

theorem cabacRun_block : (cabacRun start stop maxc btype cat s).block = cabacBlockOf start stop maxc btype cat :=
  (keeps_begunRun _ _ s).block

theorem cabacBlockOf_eq : cabacBlockOf start stop maxc btype cat
    = ⟨btype.toNat, start.toNat, stop.toNat, (Tables.maxCoefficients maxc).getD 0, cat.toNat⟩ := by
  simp only [blockOf, encode, fieldBtype_packWord, fieldStart_packWord, fieldEnd_packWord, fieldMaxc_packWord,
    fieldCat_packWord]

theorem cabacRun_cbfRequest : requestOf .codedBlockFlag (cabacRun start stop maxc btype cat s)
    = cbfRequest (cabacBlockOf start stop maxc btype cat) := by
  rw [requestOf, cabacRun_block, cbfRequest]

/-- A legal command passes its check (R69). -/
theorem checkCommand_cabacBlock (hlegal : legal (.cabacBlock start stop maxc btype cat) s.arg = true) :
    checkCommand s.cbfRule (some (.cabacBlock start stop maxc btype cat))
        (freshRun (encode (.cabacBlock start stop maxc btype cat)) (some (.cabacBlock start stop maxc btype cat)) s)
      = cabacRun start stop maxc btype cat s := if_pos hlegal

theorem cabacInv_cabacRun (hlegal : legal (.cabacBlock start stop maxc btype cat) s.arg = true) :
    CabacInv (cabacRun start stop maxc btype cat s) := by
  rw [← checkCommand_cabacBlock hlegal]
  exact cabacInv_checkCommand rfl rfl rfl s.cbfRule

/-- The requests of a CABAC_BLOCK, with its check and its commit, keep to the budget of a command. -/
theorem cabacRun_asks_length {bs : List Bool} {qs : List Request} {r : Run}
    (hlegal : legal (.cabacBlock start stop maxc btype cat) s.arg = true)
    (h : Asks (cabacRun start stop maxc btype cat s) bs qs r) : bs.length + 2 ≤ Config.coreBudget := by
  have hleft : inputsLeft (cabacRun start stop maxc btype cat s).phase ≤ 4863 := by
    rw [← checkCommand_cabacBlock hlegal]
    exact inputsLeft_checkCommand _ _
  exact Nat.add_le_add_right ((h.length_le_inputsLeft (cabacInv_cabacRun hlegal)).trans hleft) 2

/-- A legal CABAC_BLOCK whose bins lead to a commit leaves what it staged, with the requests it issued (R125, R132). -/
theorem exec_asks {bs : List Bool} {qs : List Request} {S : Results} {rest : List Answer} (hidle : s.run = none)
    (hlegal : legal (.cabacBlock start stop maxc btype cat) s.arg = true)
    (h : AsksTo (cabacRun start stop maxc btype cat s) bs qs finishCabac S)
    (hanswers : s.engine.answers = bs.map .bin ++ rest) :
    exec (.cabacBlock start stop maxc btype cat) s
      = .next { committed (encode (.cabacBlock start stop maxc btype cat))
          { S with totalcoeff := BitVec.ofNat 32 (countBits S.sigmap), reqs := BitVec.ofNat 32 qs.length } 0 s with
        engine := ⟨rest, s.engine.requests ++ qs⟩ } := by
  obtain ⟨r, -, rfl, h⟩ := h
  have hkeeps := keeps_begunRun (encode (.cabacBlock start stop maxc btype cat)) (.cabacBlock start stop maxc btype cat) s
  have hpos : r.pos = s.pos.toNat := h.pos.trans hkeeps.pos
  have hreqs : r.reqs = qs.length := h.reqs.trans (by rw [cabacRun, hkeeps.reqs]; exact Nat.zero_add _)
  rw [exec_eq_runCommand]
  refine congrArg _ (runCommand_of_iterate hidle (k := 1 + (bs.length + 1)) ?_ ?_ (stalled_of_idle rfl))
  · have := cabacRun_asks_length hlegal h
    omega
  · rw [Function.iterate_add_apply, Function.iterate_add_apply, Function.iterate_one, coreStep_start_legal hlegal]
    rw [show begunRun _ _ s = cabacRun start stop maxc btype cat s from rfl,
      h.iterate (startCommand _ _ s) rest hanswers, coreStep_commit (r := finishCabac r) rfl rfl]
    simp [commitRun, committed, statusCommit, startCommand, statusStart, finishCabac, hpos, hreqs]

/-- A block that skips the request begins as after a CBF bin of 1 (R117). -/
theorem cabacRun_of_skipped (h : cbfSkipped s.cbfRule (cabacBlockOf start stop maxc btype cat) = true) :
    ∃ r, r.cmd = encode (.cabacBlock start stop maxc btype cat) ∧ r.staged = Results.zero
      ∧ cabacRun start stop maxc btype cat s = withCbf true r :=
  ⟨freshRun (encode (.cabacBlock start stop maxc btype cat)) (some (.cabacBlock start stop maxc btype cat)) s, rfl, rfl,
    if_pos h⟩

/-- A block that does not skip the request begins with it (R117). -/
theorem cabacRun_of_not_skipped (h : cbfSkipped s.cbfRule (cabacBlockOf start stop maxc btype cat) = false) :
    (cabacRun start stop maxc btype cat s).phase = .bin .codedBlockFlag
      ∧ (cabacRun start stop maxc btype cat s).staged = Results.zero := by
  have hbegin : cabacRun start stop maxc btype cat s = Run.goto (.bin .codedBlockFlag)
      (freshRun (encode (.cabacBlock start stop maxc btype cat)) (some (.cabacBlock start stop maxc btype cat)) s) :=
    if_neg (Bool.eq_false_iff.1 h)
  rw [hbegin]
  exact ⟨rfl, rfl⟩

/-- A CBF bin of 1, or a skipped one, leads to the head of the scan. -/
theorem asks_withCbf {b : BlockAddress} {cs : CabacCoefs} {r : Run} (hb : r.block = b) (hok : cabacOk b cs = true)
    (hS : r.staged = Results.zero) :
    AsksTo (withCbf true r) (cabacBins b cs) (cabacRequests b cs) finishCabac (codedStaged b cs) := by
  subst hb
  exact asks_codedBlock (r := r.stage fun S => { S with cbf := 1 }) hok (by rw [Run.stage_staged, hS])

/-- Settles O51: the CBF bin, where it is requested, and then `asks_codedBlock`. -/
theorem cabacDecodesEveryBlock : Obligations.CabacDecodesEveryBlock := by
  intro s start stop maxc btype cat cs rest hidle hlegal hok hanswers
  obtain ⟨-, hfit, -⟩ := cabacOk_iff.1 hok
  have hfits : (cabacBlockOf start stop maxc btype cat).start + cs.length ≤ 64 :=
    hfit.trans (fieldEnd (encode (.cabacBlock start stop maxc btype cat))).isLt
  rw [cabacResults_eq hfits]
  refine exec_asks hidle hlegal ?_ hanswers
  cases hskip : cbfSkipped s.cbfRule (cabacBlockOf start stop maxc btype cat) with
  | true =>
    obtain ⟨r, hcmd, hS, hr⟩ := cabacRun_of_skipped hskip
    rw [hr, cbfRequests, if_pos hskip]
    exact asks_withCbf (congrArg blockOf hcmd) hok hS
  | false =>
    obtain ⟨hp, hS⟩ := cabacRun_of_not_skipped hskip
    rw [cbfRequests, if_neg (Bool.eq_false_iff.1 hskip)]
    have hasks := AsksTo.cons hp (asks_withCbf (r := (cabacRun start stop maxc btype cat s).asked) cabacRun_block hok hS)
    rw [cabacRun_cbfRequest] at hasks
    exact hasks

/-- A CBF bin of 0 ends the block with nothing staged (R118). -/
theorem asks_withCbf_zero {r : Run} (hS : r.staged = Results.zero) :
    AsksTo (withCbf false r) [] [] finishCabac Results.zero := by
  have hdone := AsksTo.done (f := finishCabac) (r := r.stage fun S => { S with cbf := 0 }) rfl
  rw [Run.stage_staged, hS] at hdone
  exact hdone

/-- Settles O52: the bin of 0 leads straight to the commit of an empty staging copy. -/
theorem cabacZeroFlagGivesAZeroBlock : Obligations.CabacZeroFlagGivesAZeroBlock := by
  intro s start stop maxc btype cat rest hidle hlegal hskip hanswers
  obtain ⟨hp, hS⟩ := cabacRun_of_not_skipped hskip
  have hasks := AsksTo.cons hp (asks_withCbf_zero (r := (cabacRun start stop maxc btype cat s).asked) hS)
  rw [cabacRun_cbfRequest, cabacBlockOf_eq] at hasks
  rw [exec_asks hidle hlegal hasks hanswers]
  rfl

/-! ### The first request (R116, R117) -/

@[simp] theorem abortRun_engine (err : ErrorKind) (s : State) (r : Run) : (abortRun err s r).engine = s.engine := by
  unfold abortRun
  split <;> rfl

/-- No Core step takes back a request. -/
theorem requests_prefix_coreStep (s : State) : s.engine.requests <+: (coreStep s).engine.requests := by
  rcases coreStep_cases s with ⟨-, h⟩ | ⟨r, -, h⟩
  · rw [h]
  rcases h with ⟨r', -, h⟩ | ⟨p, -, -, h⟩ | ⟨p, b, -, -, h⟩ | ⟨p, -, -, h⟩ | ⟨p, rest, -, -, h⟩ | ⟨p, b, rest, -, -, h⟩
    | ⟨-, h⟩ | ⟨err, -, h⟩ <;> rw [h]
  · exact List.prefix_append _ _
  · exact List.prefix_append _ _
  · exact List.prefix_rfl
  · rw [abortRun_engine]

theorem requests_prefix_iterate (n : Nat) (s : State) : s.engine.requests <+: (coreStep^[n] s).engine.requests := by
  induction n generalizing s with
  | zero => exact List.prefix_rfl
  | succ n ih => exact (requests_prefix_coreStep s).trans (ih _)

/-- A phase that asks issues its request, whatever the Engine answers (R10). -/
theorem requests_coreStep_bin {s : State} {r : Run} {p : BinPhase} (hr : s.run = some r) (hp : r.phase = .bin p)
    (hanswers : s.engine.answers ≠ []) : (coreStep s).engine.requests = s.engine.requests ++ [requestOf p r] := by
  obtain ⟨a, rest, ha⟩ := List.exists_cons_of_ne_nil hanswers
  cases a with
  | bin b => rw [coreStep_bin hr hp ha]
  | exhausted => rw [coreStep_exhausted hr hp ha]

/-- The first request of a command whose first phase asks (R131). -/
theorem first_request {s t : State} {i : Instr} {p : BinPhase} (hidle : s.run = none) (hlegal : legal i s.arg = true)
    (hp : (begunRun (encode i) i s).phase = .bin p) (hanswers : s.engine.answers ≠ []) (ht : exec i s = .next t) :
    (t.engine.requests.drop s.engine.requests.length).head? = some (requestOf p (begunRun (encode i) i s)) := by
  obtain ⟨n, hn⟩ : ∃ n, Config.coreBudget = n + 1 + 1 := ⟨4863, rfl⟩
  obtain ⟨u, hu⟩ : ∃ u, u = { startCommand (encode i) (some i) s with run := some (begunRun (encode i) i s) } :=
    ⟨_, rfl⟩
  rw [exec_eq_runCommand, runCommand_idle hidle, runCore_eq_iterate, hn, Function.iterate_succ_apply,
    Function.iterate_succ_apply, coreStep_start_legal hlegal, ← hu] at ht
  have hask : (coreStep u).engine.requests = s.engine.requests ++ [requestOf p (begunRun (encode i) i s)] := by
    rw [hu]
    exact requests_coreStep_bin rfl hp hanswers
  obtain ⟨q, hq⟩ := requests_prefix_iterate n (coreStep u)
  rw [Host.Outcome.next.inj ht, hask, List.append_assoc] at hq
  rw [← hq, List.drop_left]
  rfl

theorem eq_codedBlockFlag_of_requestOf {p : BinPhase} {r : Run} {b : BlockAddress} (h : requestOf p r = cbfRequest b) :
    p = .codedBlockFlag := by
  cases p with
  | codedBlockFlag => rfl
  | significant | last | absUnary | sufUnary | sufBits | sign => cases h

/-- A skipped flag leads to a request for the map or, in a span of one position, for its level (R119 to R121). -/
theorem withCbf_one_phase {r : Run} (hspan : r.block.start ≤ r.block.stop) :
    ∃ p, p ≠ .codedBlockFlag ∧ (withCbf true r).phase = .bin p := by
  have hstop := r.stop_lt
  rw [withCbf, if_pos rfl, Run.stage_block]
  rcases hspan.lt_or_eq with hlt | heq
  · exact ⟨.significant r.block.start (r.block.stop + 1), by simp, by rw [scanFrom_within (by omega)]; rfl⟩
  · refine ⟨.absUnary r.block.stop 0 0 0, by simp, ?_⟩
    rw [scanFrom_final (by omega), finalPosition, nextCoef, Nat.add_sub_cancel, nextSignificant_succ_of_sig]
    · rfl
    · exact hspan
    · exact (putBit_true_iff _ hstop _).2 (.inr rfl)

/-- Which CABAC_BLOCK skips the flag's request, by its fields (R117). -/
theorem cbfSkipped_iff (rule : CbfRule) : cbfSkipped rule (cabacBlockOf start stop maxc btype cat) = true
    ↔ maxc = 4 ∧ ((rule = .doc ∧ cat = 3) ∨ (rule = .h264 ∧ cat ≠ 3)) := by
  have hmaxc : (Tables.maxCoefficients maxc).getD 0 = 64 ↔ maxc = 4 := by revert maxc; decide
  have hcat : cat.toNat = 3 ↔ cat = 3 := BitVec.toNat_inj (x := cat) (y := 3)
  rw [cabacBlockOf_eq]
  cases rule with
  | doc => simp [cbfSkipped, hmaxc, hcat]
  | h264 => simp [cbfSkipped, hmaxc, hcat]

theorem start_le_stop_of_legal {arg : Word} (h : legal (.cabacBlock start stop maxc btype cat) arg = true) :
    start.toNat ≤ stop.toNat := by
  simp only [legal, Instr.wellFormed, Instr.spanOrdered, Bool.and_eq_true, decide_eq_true_eq] at h
  obtain ⟨⟨⟨-, hordered⟩, -⟩, -⟩ := h
  exact hordered

/-- R117 for a legal CABAC_BLOCK that starts while idle and is answered, with these conditions before the equivalence: it issues
the CBF request first unless its block skips it. -/
theorem cbfRequest_first_iff {t : State} (hidle : s.run = none)
    (hlegal : legal (.cabacBlock start stop maxc btype cat) s.arg = true) (hanswers : s.engine.answers ≠ [])
    (ht : exec (.cabacBlock start stop maxc btype cat) s = .next t) :
    (t.engine.requests.drop s.engine.requests.length).head?
        = some (.decision ⟨.cbf, btype.toNat, (Tables.maxCoefficients maxc).getD 0, cat.toNat, 0, 0, 0, 0⟩)
      ↔ ¬ (maxc = 4 ∧ ((s.cbfRule = .doc ∧ cat = 3) ∨ (s.cbfRule = .h264 ∧ cat ≠ 3))) := by
  have hreq : cbfRequest (cabacBlockOf start stop maxc btype cat)
      = .decision ⟨.cbf, btype.toNat, (Tables.maxCoefficients maxc).getD 0, cat.toNat, 0, 0, 0, 0⟩ := by
    rw [cabacBlockOf_eq, cbfRequest]
  rw [← hreq, ← cbfSkipped_iff (start := start) (stop := stop) (btype := btype)]
  cases hskip : cbfSkipped s.cbfRule (cabacBlockOf start stop maxc btype cat) with
  | true =>
    obtain ⟨r, hcmd, -, hr⟩ := cabacRun_of_skipped hskip
    obtain ⟨hstart, hstop⟩ := Run.block_span hcmd
    obtain ⟨p, hne, hp⟩ := withCbf_one_phase (r := r) (by rw [hstart, hstop]; exact start_le_stop_of_legal hlegal)
    rw [← hr] at hp
    rw [first_request hidle hlegal hp hanswers ht]
    exact iff_of_false (fun h => hne (eq_codedBlockFlag_of_requestOf (Option.some.inj h))) (not_not_intro rfl)
  | false =>
    obtain ⟨hp, -⟩ := cabacRun_of_not_skipped hskip
    rw [first_request hidle hlegal hp hanswers ht]
    exact iff_of_true (congrArg some cabacRun_cbfRequest) Bool.false_ne_true

/-- Refutes O54: `↔` binds weaker than `→`, so the statement's conditions belong to its left side, and a state that fails one of
them makes that side true. After reset no answer is listed, and the 64-coefficient block of CAT 3 skips its request, so the
right side is false. `cbfRequest_first_iff` is the rule with the conditions before the equivalence. -/
theorem not_cbfRequestFollowsTheRule : ¬ Obligations.CbfRequestFollowsTheRule := by
  intro h
  have hiff := h State.reset 0 63 4 0 3 State.reset
  exact hiff.1 (fun _ _ hanswers _ => absurd rfl hanswers) ⟨rfl, .inl ⟨rfl, rfl⟩⟩

end

/-! ### The unbounded suffix (R122, R134) -/

theorem Asks.posStart {r r' : Run} {bs : List Bool} {qs : List Request} (h : Asks r bs qs r') : r'.posStart = r.posStart := by
  obtain ⟨S, p, rfl⟩ := h.keeps
  rfl

/-- 30 bins of 1 in a level suffix raise UnboundedLoop, each the answer to one Bypass request. -/
theorem asks_thirtyOnes {r : Run} {i g e : Nat} (hp : r.phase = .bin (.sufUnary i 0 0 g e)) :
    AsksTo r (List.replicate 30 true) (List.replicate 30 .bypass) (Run.raise .unboundedLoop) r.staged := by
  rw [show 30 = 29 + 1 from rfl, List.replicate_succ', List.replicate_succ']
  refine (asks_sufOnes 29 hp (by omega)).append fun r' _ hS => ?_
  rw [← hS]
  exact .cons (p := .sufUnary i (0 + 29) (2 ^ (0 + 29) - 1) g e) rfl (.done (r := (r'.goto _).asked) rfl)

/-- Settles O58: the 30 bins raise the error, and the next Core step aborts with POS kept. -/
theorem thirtySuffixOnesAbortTheBlock : Obligations.ThirtySuffixOnesAbortTheBlock := by
  intro s r i g e rest hr hp hcabac hstart hanswers
  obtain ⟨r', hcmd, -, hasks⟩ := asks_thirtyOnes hp
  have hkeeps : keepsPos .unboundedLoop (r'.raise .unboundedLoop) = true := by
    rw [keepsPos, Run.raise_isCabac, Run.isCabac, hcmd]
    exact hcabac
  have hiter := hasks.iterate s rest (by rw [List.map_replicate]; exact hanswers)
  rw [show { s with run := some r } = s by rw [← hr], List.length_replicate] at hiter
  rw [Function.iterate_succ_apply', hiter, coreStep_abort rfl rfl]
  exact abortRun_keepsPos hkeeps (hasks.posStart.trans hstart)

end Sys2Proof.Machine

/-! The statements of 60_exceptions.md: how a command ends (commit, abort), that it ends, and a machine that no Core step changes, idle
or waiting for the Engine. -/

namespace Sys2Proof.Machine

/-! ### A machine where no Core step is enabled (R131, R143, R146, R153) -/

/-- With nothing listed the Core moves, and it has no step. -/
theorem core_run_stalled {s : State} (hst : stalled s = true) (hinbox : s.inbox = []) (n : Nat) :
    Sys2Proof.core.run n s = .next s := by
  induction n with
  | zero => exact core_run_zero s
  | succ n ih => rw [core_run_succ (step_empty hinbox), coreStep_stalled hst, ih]

/-- Settles O18: both clauses are the idle Core's step. -/
theorem idleCoreStaysIdle : Obligations.IdleCoreStaysIdle := fun s hidle =>
  ⟨coreStep_idle hidle, fun hinbox => by rw [step_empty hinbox, coreStep_idle hidle]⟩

/-- Settles O56: a request without an answer stalls the Core. -/
theorem unansweredRequestsHang : Obligations.UnansweredRequestsHang := fun s r p n hr hp hanswers hinbox =>
  core_run_stalled ((stalled_iff s).2 (.inr ⟨r, p, hr, hp, hanswers⟩)) hinbox n

/-! ### Commit and abort (R132) -/

/-- The aborts that keep POS_start, by the command word's OP. -/
theorem keepsPos_iff (e : ErrorKind) (r : Run) : keepsPos e r = true ↔ e = .invalidCommand ∨ r.cmd.toNat % 16 = 6 := by
  rw [keepsPos, Run.isCabac, Bool.or_eq_true, decide_eq_true_iff, decide_eq_true_iff, ← BitVec.toNat_inj, toNat_fieldOp]
  rfl

/-- An abort overwrites POS, whatever it holds. -/
theorem abortRun_with_pos (e : ErrorKind) (s : State) (r : Run) (p : Word) :
    abortRun e { s with pos := p } r = abortRun e s r := by
  unfold abortRun
  split <;> rfl

/-- Settles O15: the abort of a state whose POS register is POS_start, which is the abort of the state itself. -/
theorem commitAndAbortAreSingleSteps : Obligations.CommitAndAbortAreSingleSteps := by
  intro s r hr
  refine ⟨fun hp => coreStep_commit hr hp, fun e hp hfits => ?_⟩
  rw [coreStep_abort hr hp, ← abortRun_with_pos e s r r.posStart]
  cases hk : keepsPos e r with
  | true =>
    exact ⟨r.posStart, s.draws, abortRun_keepsPos hk rfl, fun _ => rfl, le_rfl, le_max_left _ _⟩
  | false =>
    obtain ⟨p, n, habort, hrange⟩ := abortRun_spec e (s := { s with pos := r.posStart }) hfits rfl
    refine ⟨p, n, habort, fun hkept => ?_, hrange⟩
    rw [(keepsPos_iff e r).2 hkept] at hk
    cases hk

/-! ### Every command ends or waits for the Engine (R131, R153, R155) -/

/-- With a count that every `Advances` step makes smaller, that many Core steps leave the Core idle or waiting. -/
theorem runCore_stalls {w : Word} {s : State} {r : Run} {eng : Engine} {P : Run → Prop} {fuel : Phase → Nat}
    (hP : ∀ r r', P r → Advances s.cbfRule r r' → P r' ∧ fuel r'.phase < fuel r.phase) (n : Nat) (hr : P r)
    (h : Underway w s r eng) (hn : fuel r.phase < n) : stalled (runCore n (onTheWay w s r eng)) = true := by
  induction n generalizing r eng with
  | zero => exact absurd hn (Nat.not_lt_zero _)
  | succ n ih =>
    rw [runCore]
    split
    · assumption
    · rename_i hstalled
      rcases coreStep_onTheWay h with ⟨r', eng', hadv, h', e⟩ | ⟨hwait, -⟩ | ⟨-, e⟩ | ⟨err, -, e⟩
      · obtain ⟨hr', hless⟩ := hP r r' hr hadv
        rw [e]
        exact ih hr' h' (by omega)
      · exact absurd hwait hstalled
      · rw [e, runCore_stalled (stalled_of_idle (commitRun_run _ _))]
        exact stalled_of_idle (commitRun_run _ _)
      · rw [e, runCore_stalled (stalled_of_idle (abortRun_run _ _ _))]
        exact stalled_of_idle (abortRun_run _ _ _)

/-- A bound on the Core steps of a CABAC_BLOCK from a phase to its last one: the check takes a step without a request. -/
def requestStepsLeft : Phase → Nat
  | .check c => inputsLeft (.check c) + 1
  | p => inputsLeft p

/-- No phase after the check is the check again, so each of its steps is a request. -/
theorem requestStepsLeft_of_legal {p : Phase} (h : p.legal) : requestStepsLeft p = inputsLeft p := by
  cases p with
  | check => exact absurd h id
  | bit | bin | place | commit | abort => rfl

/-- Each step of a CABAC_BLOCK leaves fewer to go. -/
theorem requestStepsLeft_advances {rule : CbfRule} {r r' : Run} (h : CabacInv r) (hadv : Advances rule r r') :
    requestStepsLeft r'.phase < requestStepsLeft r.phase := by
  obtain ⟨-, hat⟩ := h
  cases hadv with
  | @check c hp =>
    rw [hp, requestStepsLeft_of_legal (goes_checkCommand rule c r).2]
    exact Nat.lt_succ_of_le (inputsLeft_checkCommand rule c)
  | bit hp => rw [hp] at hat; exact absurd hat id
  | endOfStream hp => rw [hp] at hat; exact absurd hat id
  | @bin p hp b =>
    rw [hp] at hat ⊢
    rw [requestStepsLeft_of_legal (goes_afterBin p b _).2]
    exact inputsLeft_afterBin (cabacAt_ask hat) b
  | exhausted hp =>
    rw [hp] at hat ⊢
    exact (Nat.zero_le _).trans_lt (inputsLeft_afterBin (cabacAt_ask hat) false)
  | place hp => rw [hp] at hat; exact absurd hat id

/-- A CABAC_BLOCK ends, or waits for an answer the Engine has not given. -/
theorem cabacBlock_stalls {s t : State} {start stop : BitVec 6} {maxc : BitVec 3} {btype : BitVec 5} {cat : BitVec 2}
    (hidle : s.run = none) (ht : exec (.cabacBlock start stop maxc btype cat) s = .next t) : stalled t = true := by
  rw [exec_eq_runCommand, runCommand_idle hidle, startCommand_eq_onTheWay] at ht
  cases ht
  exact runCore_stalls (P := CabacInv) (fun _ _ h hadv => ⟨cabacInv_advances h hadv, requestStepsLeft_advances h hadv⟩) _
    ⟨rfl, rfl, start, stop, maxc, btype, cat, rfl, rfl⟩ (underway_fresh _ _ s) (show 4863 + 1 < 4865 by decide)

/-- A Core that is not enabled is idle or waits. -/
theorem idle_or_waiting_of_stalled {s : State} (h : stalled s = true) : s.run = none ∨ waiting s = true := by
  simpa [stalled, State.busy] using h

/-- A read ends. -/
theorem read_ends {s t : State} {i : Instr} (hidle : s.run = none) (hread : IsRead i) (ht : exec i s = .next t) :
    t.run = none := by
  obtain ⟨r, -, hleaves⟩ := exec_leavesBits hidle ht readInv_bitCommand ⟨rfl, rfl, i, rfl, hread⟩
  exact hleaves.run

/-- Settles O25: a command that reads bits has a bound on its steps (`BitCommand`), a CABAC_BLOCK one on its requests. -/
theorem everyCommandEnds : Obligations.EveryCommandEnds := by
  intro s i hidle
  have ht := exec_eq_runCommand i s
  refine ⟨_, ht, ?_⟩
  cases i with
  | readUe => exact .inl (read_ends hidle (.inl rfl) ht)
  | readSe => exact .inl (read_ends hidle (.inr (.inl rfl)) ht)
  | readTe => exact .inl (read_ends hidle (.inr (.inr (.inl rfl))) ht)
  | readCe => exact .inl (read_ends hidle (.inr (.inr (.inr rfl))) ht)
  | cavlcBlock start stop maxc btype =>
    obtain ⟨r, hleaves, -⟩ := exec_cavlcBlock hidle ht
    exact .inl hleaves.run
  | cabacBlock start stop maxc btype cat =>
    exact (idle_or_waiting_of_stalled (cabacBlock_stalls hidle ht)).imp_right
      fun hwait => ⟨⟨start, stop, maxc, btype, cat, rfl⟩, hwait⟩

end Sys2Proof.Machine
